-- ==== Sys2Proof/Word.lean ====
section
/-! DEFINITION. The word types of the block (00_scope.md R9, R10, R11). -/

namespace Sys2Proof

/-- A register or a host-memory word: 32 bits, bit 0 least significant (R9). -/
abbrev Word := BitVec 32

/-- A 16-bit value of host memory (R18). -/
abbrev Half := BitVec 16

/-- One byte of host memory, the smallest addressable unit (20_memory.md R80). -/
abbrev Byte := BitVec 8

/-- A binary32 value held as its bit pattern (R11): sign 31, biased exponent 30:23, fraction 22:0. -/
abbrev F32 := BitVec 32

/-- A 32-bit two's complement integer (R10); `int(w)` of the spec is `w.toInt`. -/
abbrev I32 := BitVec 32

end Sys2Proof
end

