-- ==== Sys2Proof/Machine/Float.lean ====
section
/-! DEFINITION. The binary32 primitives of 00_scope.md R11 to R17. PRESUMED (log entry 19): where R12 names IEEE 754
and gives no case, the signs of zeros, infinities and invalid operations are those of the standard. Every finite binary32 value is an integer multiple of
2^-149, so each operation computes its exact result as an integer or a quotient of integers in that unit and rounds once. -/

namespace Sys2Proof.Machine

/-- Sign bit (R11). -/
def f32Sign (x : F32) : Bool := x.getLsbD 31

/-- Biased exponent, bits 30:23 (R11). -/
def f32Exp (x : F32) : Nat := (x.extractLsb' 23 8).toNat

/-- Fraction, bits 22:0 (R11). -/
def f32Frac (x : F32) : Nat := (x.extractLsb' 0 23).toNat

def f32IsNaN (x : F32) : Bool := decide (f32Exp x = 255) && decide (f32Frac x ≠ 0)

def f32IsInf (x : F32) : Bool := decide (f32Exp x = 255) && decide (f32Frac x = 0)

def f32IsFinite (x : F32) : Bool := decide (f32Exp x ≠ 255)

/-- Magnitude of a finite value in units of 2^-149; an infinity gets 2^277 (that is 2^128), above every finite value. -/
def f32Mag (x : F32) : Nat :=
  if f32Exp x = 0 then f32Frac x else (2 ^ 23 + f32Frac x) * 2 ^ (f32Exp x - 1)

/-- Signed value in units of 2^-149. -/
def f32Val (x : F32) : Int := if f32Sign x then -(f32Mag x : Int) else (f32Mag x : Int)

/-- The unit: 1.0 is `f32One` units of 2^-149. -/
def f32One : Nat := 2 ^ 149

/-- Bits 30:0 of the binary32 nearest to `n / d` units of 2^-149, ties to even, infinity on overflow (R12). With `k` the
power of two of the last place, the pattern of `m * 2^k` is `k * 2^23 + m`, for subnormal and normal results alike. -/
def roundMag (n d : Nat) : Nat :=
  let k := Nat.log2 (n / d) - 23
  let den := d * 2 ^ k
  let m := n / den
  let r := n % den
  let up := den < 2 * r ∨ (den = 2 * r ∧ m % 2 = 1)
  min (k * 2 ^ 23 + (if up then m + 1 else m)) 0x7F800000

/-- The rounded value with its sign. -/
def f32Round (neg : Bool) (n d : Nat) : F32 :=
  BitVec.ofNat 32 ((if neg then 2 ^ 31 else 0) + roundMag n d)

/-- The canonical quiet NaN (R13). -/
def f32NaN : F32 := 0x7FC00000#32

/-- The infinity of a sign. -/
def f32Inf (neg : Bool) : F32 := if neg then 0xFF800000#32 else 0x7F800000#32

/-- `+0.0`. -/
def f32Zero : F32 := 0x00000000#32

/-- `1.0`. -/
def f32PosOne : F32 := 0x3F800000#32

/-- `-1.0`. -/
def f32NegOne : F32 := 0xBF800000#32

/-- `f32_add` (R12, R13). An exact zero sum is `-0.0` only if both operands have a negative sign (IEEE 754). -/
def f32Add (a b : F32) : F32 :=
  if f32IsNaN a || f32IsNaN b then f32NaN
  else if f32IsInf a then (if f32IsInf b && f32Sign a != f32Sign b then f32NaN else a)
  else if f32IsInf b then b
  else
    let s := f32Val a + f32Val b
    if s = 0 then (if f32Sign a && f32Sign b then 0x80000000#32 else f32Zero)
    else f32Round (decide (s < 0)) s.natAbs 1

/-- The sign bit flipped: adding 2^31 modulo 2^32 flips bit 31 and no other. -/
def f32Neg (a : F32) : F32 := a + 0x80000000#32

/-- `f32_sub` (R12, R13). -/
def f32Sub (a b : F32) : F32 := f32Add a (f32Neg b)

/-- `f32_mul` (R12, R13). -/
def f32Mul (a b : F32) : F32 :=
  let neg := f32Sign a != f32Sign b
  if f32IsNaN a || f32IsNaN b then f32NaN
  else if f32IsInf a || f32IsInf b then
    (if f32Mag a = 0 ∨ f32Mag b = 0 then f32NaN else f32Inf neg)
  else f32Round neg (f32Mag a * f32Mag b) f32One

/-- `f32_div` (R12, R13). -/
def f32Div (a b : F32) : F32 :=
  let neg := f32Sign a != f32Sign b
  if f32IsNaN a || f32IsNaN b then f32NaN
  else if f32IsInf a then (if f32IsInf b then f32NaN else f32Inf neg)
  else if f32IsInf b then f32Round neg 0 1
  else if f32Mag b = 0 then (if f32Mag a = 0 then f32NaN else f32Inf neg)
  else f32Round neg (f32Mag a * f32One) (f32Mag b)

/-- `f32_from_int` (R12). -/
def f32FromInt (i : Int) : F32 := f32Round (decide (i < 0)) (i.natAbs * f32One) 1

/-- `f32_gt` (R14). -/
def f32Gt (a b : F32) : Bool :=
  !f32IsNaN a && !f32IsNaN b && decide (f32Val b < f32Val a)

/-- `f32_lt` (R14). -/
def f32Lt (a b : F32) : Bool :=
  !f32IsNaN a && !f32IsNaN b && decide (f32Val a < f32Val b)

/-- `clamp` (R15). -/
def clamp (x lo hi : F32) : F32 :=
  if f32IsNaN x then lo
  else if f32Lt x lo then lo
  else if f32Gt x hi then hi
  else x

/-- Limit an integer to `lo .. hi`. -/
def limit (v lo hi : Int) : Int := if v < lo then lo else if hi < v then hi else v

/-- `f32_floor_sat` (R16). -/
def f32FloorSat (x : F32) : I32 :=
  if f32IsNaN x then 0#32
  else BitVec.ofInt 32 (limit (f32Val x / (f32One : Int)) (-2147483648) 2147483647)

/-- The integer nearest to `v / d`, ties to even. -/
def roundDivEven (v : Int) (d : Nat) : Int :=
  let q := v / (d : Int)
  let r := v % (d : Int)
  if (d : Int) < 2 * r ∨ ((d : Int) = 2 * r ∧ q % 2 = 1) then q + 1 else q

/-- `f32_to_int_rne_sat` (R17); an infinity gives the bound on its side, whatever the bounds. -/
def f32ToIntRneSat (x : F32) (lo hi : Int) : Int :=
  if f32IsNaN x then 0
  else if f32IsInf x then (if f32Sign x then lo else hi)
  else limit (roundDivEven (f32Val x) f32One) lo hi

/-- `2^-7` (41_soundbank.md R200). -/
def f32TwoPowNeg7 : F32 := 0x3C000000#32

/-- `2^-15` (41_soundbank.md R200). -/
def f32TwoPowNeg15 : F32 := 0x38000000#32

/-- `128.0` (41_soundbank.md R206). -/
def f32OneTwentyEight : F32 := 0x43000000#32

/-- `32768.0` (41_soundbank.md R205). -/
def f32TwoPow15 : F32 := 0x47000000#32

end Sys2Proof.Machine
end

