-- ==== Sys2Proof/Config.lean ====
section
/-! DEFINITION. What an implementation fixes (00_scope.md R5) and the free values of the spec
(93_implementation_defined.md section 1). The OPEN parameters are a record that State carries unchanged, so
that a claim about every state is a claim about every choice of them. -/

namespace Sys2Proof

/-- The OPEN parameters of R5, and the ranges of host addresses that the platform maps to something other than
ordinary memory (20_memory.md R93; log entry 11). -/
structure Params where
  /-- `CTRL_BASE`: host byte address of the 64-byte register window. -/
  ctrlBase : Nat
  /-- `HOST_MEM_BYTES`: the block may reach addresses `0 .. hostMemBytes - 1`. -/
  hostMemBytes : Nat
  /-- `MAX_VOICES`: the largest voice count `SETNVOC` accepts. -/
  maxVoices : Nat
  /-- `MAX_SOUNDS`: the largest number of sound slots. -/
  maxSounds : Nat
  /-- `SAMPLE_MEM_FRAMES`: the frames the sample memory holds across all slots. -/
  sampleMemFrames : Nat
  /-- Ranges (base, length) that are not ordinary memory. -/
  devices : List (Nat × Nat)
  deriving DecidableEq, Repr

namespace Config

/-- `HOST_ADDR_BITS` (R5, D21). -/
def hostAddrBits : Nat := 32

/-- `INIT_VOICES` (R5, D12). -/
def initVoices : Nat := 1

/-- `LOOP_MODE_VALUE` (R5, D16). -/
def loopModeValue : Int := 1

/-- Size of the register window in bytes (10_state.md R55). -/
def windowBytes : Nat := 64

/-- Free value: the byte a host read of an in-flight region returns (20_memory.md R97 item 4; DESIGN CHOICE,
log entry 5). -/
opaque inFlightByte : Nat → Byte

/-- Free value: a word that an `UPDATE` abandoned by a reset leaves in its buffer
(70_reset_and_hazards.md R381; DESIGN CHOICE, log entry 6). -/
opaque abandonedWord : Nat → Word

/-- The parameters of the setup of 95_test_vectors.md, with the register window just above host memory.
DESIGN CHOICE (log entry 1): the values `State.reset` carries; the spec leaves them OPEN. -/
def vectorParams : Params where
  ctrlBase := 0x10000
  hostMemBytes := 0x10000
  maxVoices := 8
  maxSounds := 16
  sampleMemFrames := 0x100000
  devices := []

end Config

end Sys2Proof
end

