-- ==== Sys2Proof/Syntax.lean ====
section
/-! DEFINITION. The syntax of the block: its 26 commands (30_encoding.md R127), their operand and result kinds
(R124, R125), the host's actions (70_reset_and_hazards.md R398) and the assembler's lines (R130 to R133). -/

namespace Sys2Proof

/-- The commands of R127, one constructor per row of spec/opcode_table.json. A command word holds no operand (R123). -/
inductive Instr where
  | init | fini | isinit | getsr | getnsnd | getnvoc | setnvoc | getact | getgvol | setgvol
  | load | peekf | peeki16 | peeki8 | pokef | pokei16 | pokei8
  | getvvol | setvvol | getvbal | setvbal | getvfrq | setvfrq | stop | play
  | update
  deriving DecidableEq, Repr

/-- How an argument register is read (R124). -/
inductive OperandKind where
  | i32 | u32 | f32 | i16 | i8
  deriving DecidableEq, Repr

/-- What `RESULT` holds on success (R125). -/
inductive ResultKind where
  | bool | i32 | f32 | i16 | i8 | none
  deriving DecidableEq, Repr

/-- The operand kinds of a command, `ARG0` first: the argument columns of R127. -/
def Instr.operands : Instr → List OperandKind
  | .init => [.i32]
  | .fini | .isinit | .getsr | .getnsnd | .getnvoc => []
  | .setnvoc => [.i32]
  | .getact | .getgvol => []
  | .setgvol => [.f32]
  | .load => [.i32, .u32, .i32, .i32, .i32]
  | .peekf | .peeki16 | .peeki8 => [.i32, .i32]
  | .pokef => [.i32, .i32, .f32]
  | .pokei16 => [.i32, .i32, .i16]
  | .pokei8 => [.i32, .i32, .i8]
  | .getvvol | .getvbal | .getvfrq | .stop => [.i32]
  | .setvvol | .setvbal | .setvfrq => [.i32, .f32]
  | .play => [.i32, .i32, .i32, .i32, .i32, .i32]
  | .update => [.u32, .i32]

/-- The result column of R127. -/
def Instr.resultKind : Instr → ResultKind
  | .init | .isinit => .bool
  | .getsr | .getnsnd | .getnvoc | .getact => .i32
  | .getgvol | .peekf | .getvvol | .getvbal | .getvfrq => .f32
  | .peeki16 => .i16
  | .peeki8 => .i8
  | .fini | .setnvoc | .setgvol | .load | .pokef | .pokei16 | .pokei8
  | .setvvol | .setvbal | .setvfrq | .stop | .play | .update => .none

/-- The widths the block reads and writes host memory at, and the sample widths of `LOAD`: 8, 16 or 32 bits (R18). -/
inductive Width where
  | w8 | w16 | w32
  deriving DecidableEq, Repr

/-- The bytes of a width. -/
def Width.bytes : Width → Nat
  | .w8 => 1
  | .w16 => 2
  | .w32 => 4

/-- One action of a host agent on the bus, or the reset input. The list of them in State is the serialised order of
all host agents' actions (60_exceptions.md R359; 70_reset_and_hazards.md R398). -/
inductive HostAction where
  /-- A read of `bytes` bytes, any number of them (10_state.md R56), at a host byte address: the register window or host
  memory. DESIGN CHOICE (log entries 29 and 30): addresses and widths have no bound here. -/
  | read (addr bytes : Nat)
  /-- A write of `bytes` bytes: the low `8 * bytes` bits of `data`. -/
  | write (addr bytes data : Nat)
  /-- `WAIT`: read STATUS until BUSY = 0 (R133). -/
  | wait
  /-- The reset input is asserted (70_reset_and_hazards.md R380). -/
  | reset
  deriving DecidableEq, Repr

/-- An operand literal (R131). -/
inductive Literal where
  /-- A decimal or hexadecimal integer. -/
  | int (v : Int)
  /-- A decimal number with an `f` suffix: `digits / 10^scale`, negated if `neg` (`-0.25f` is `dec true 25 2`). -/
  | dec (neg : Bool) (digits scale : Nat)
  /-- `f32:0x...`: a bit pattern. -/
  | pattern (w : Word)
  deriving DecidableEq, Repr

/-- A line of a host program (R130 to R133). -/
inductive Line where
  | command (i : Instr) (operands : List Literal)
  | wait
  | clrstat
  | raw (w : Word)
  | hostW8 (addr : Nat) (v : Int)
  | hostW16 (addr : Nat) (v : Int)
  | hostW32 (addr : Nat) (v : Word)
  | hostZero (addr n : Nat)
  /-- `EXPECT RESULT = w, ERR = e, CAUSE = c`: an assertion, no action. -/
  | expect (result : Word) (err : Bool) (cause : Nat)
  deriving DecidableEq, Repr

end Sys2Proof
end

