-- ==== Sys2Proof/Machine/State.lean ====
section
/-! DEFINITION. The state of the block, of host memory and of the host side (10_state.md; INVENTORY.md lists each
field with its rule and reset value), the reasons a step can stop, and the state after reset. -/

namespace Sys2Proof.Machine

/-- The cause codes of 60_exceptions.md R350. The codes 6 to 15 are never written, so they have no constructor. -/
inductive Cause where
  | none | state | range | param | encoding | capacity
  deriving DecidableEq, Repr

/-- The play mode of a voice (10_state.md R47). -/
inductive PlayMode where
  | single | loop
  deriving DecidableEq, Repr

/-- A sound: its frames in order (R35). -/
abbrev Sound := List F32

/-- A voice (R39). -/
structure Voice where
  /-- `SOUND`: the bound slot, `none` for `UNBOUND` (R40). -/
  sound : Option Nat
  freq : F32
  pitch : F32
  vol : F32
  pan : F32
  gl : F32
  gr : F32
  pos : F32
  ipos : I32
  rstart : F32
  rend : F32
  mode : PlayMode
  cur : F32
  prev : F32
  deriving DecidableEq, Repr

/-- The session state `S` with the slot table and the voice table (R30). `NSOUND` is the length of `slots`, `NVOICE`
the length of `voices`. -/
structure Session where
  init : Bool
  sr : I32
  gvol : F32
  active : Nat
  slots : List Sound
  voices : List Voice
  deriving DecidableEq, Repr

/-- The argument registers (R58). -/
structure Args where
  arg0 : Word
  arg1 : Word
  arg2 : Word
  arg3 : Word
  arg4 : Word
  arg5 : Word
  deriving DecidableEq, Repr

/-- The `STATUS` register's fields (R62); its reserved bits have no storage. -/
structure Status where
  busy : Bool
  err : Bool
  errstk : Bool
  ovr : Bool
  init : Bool
  cause : Cause
  deriving DecidableEq, Repr

/-- Host memory as the bytes that differ from what an unlisted address reads as, addresses strictly rising. -/
abbrev Memory := List Host.Cell

/-- What a byte that nothing has written reads as. DESIGN CHOICE, unsafe (log entry 7): the spec gives host memory no
initial contents (70_reset_and_hazards.md R400: it is "given as a byte map"). -/
def Memory.unlisted : Byte := 0#8

/-- Addresses strictly rising and no entry equal to the unlisted byte: the canonical form, as a check. -/
def Memory.wf : Memory → Bool
  | [] => true
  | [(_, b)] => decide (b ≠ Memory.unlisted)
  | (a, b) :: (a', b') :: rest =>
    decide (b ≠ Memory.unlisted) && decide (a < a') && Memory.wf ((a', b') :: rest)

/-- The whole state. -/
structure State where
  /-- The OPEN parameters of 00_scope.md R5; no step changes them. -/
  params : Params
  /-- The block's internal state (10_state.md sections 1 to 3). -/
  session : Session
  /-- `CMD`: the last accepted command word (R57). -/
  cmd : Word
  /-- `ARG0 .. ARG5` (R58). -/
  args : Args
  /-- `RESULT` (R59). -/
  result : Word
  /-- `STATUS` (R62). -/
  status : Status
  /-- The arguments latched when the command in `cmd` was accepted (R57; DESIGN CHOICE, log entry 16). -/
  latched : Args
  /-- How many further host moments the command in progress lasts (70_reset_and_hazards.md R395; log entry 2). -/
  remaining : Nat
  /-- Input: the durations of the commands to come (log entry 2). -/
  delays : List Nat
  /-- Host memory (20_memory.md R80). -/
  mem : Memory
  /-- Input: the host actions to come, in their serialised order (log entry 3). -/
  host : List HostAction
  /-- What the last host read returned, of whatever width (DESIGN CHOICE, log entry 4). -/
  readData : Nat
  /-- Counter for the free values (log entries 5 and 6). -/
  fresh : Nat
  deriving DecidableEq, Repr

/-- Why the run ends as faulted. -/
inductive Fault where
  /-- Raised by a host write to a region in flight (20_memory.md R97 item 5). It is the spec's own fault: safe. -/
  | inFlightWrite
  /-- Raised by a host access to an address past host memory and outside the window (log entry 8): safe. -/
  | outsideHostMemory
  /-- Raised by a host access that starts below the register window and reaches into it (log entry 9): safe. -/
  | straddlesWindow
  deriving DecidableEq, Repr

/-- Why the model gives a step no meaning. -/
inductive Refusal where
  /-- Raised by no arm of exec now: an instruction without a meaning yet: safe. -/
  | notModelled (mnemonic : String)
  /-- Raised by LOAD, UPDATE, and a reset during one of them, whose region overlaps the register window (20_memory.md R82,
  93_implementation_defined.md item 8, treatment "refuse"): safe. -/
  | windowRegion
  /-- Raised by LOAD, UPDATE, and a reset during one of them, whose region is not ordinary memory (20_memory.md R93,
  93_implementation_defined.md item 7, treatment "refuse"): safe. -/
  | deviceRegion
  /-- Raised by a host access to a range that is not ordinary memory (log entry 11): safe. -/
  | deviceAccess
  deriving DecidableEq, Repr

/-- No session: the values of `S`, the slots and the voices after reset and after `FINI` (R64, R66). -/
def Session.empty : Session where
  init := false
  sr := 0#32
  gvol := 0x00000000#32
  active := 0
  slots := []
  voices := []

/-- All argument registers 0 (R64). -/
def Args.zero : Args := ⟨0#32, 0#32, 0#32, 0#32, 0#32, 0#32⟩

/-- `STATUS` = 0x00000000 (R64). -/
def Status.zero : Status := ⟨false, false, false, false, false, .none⟩

/-- The block after a hardware reset (R64, 70_reset_and_hazards.md R380) under given parameters, with nothing in host
memory and no input from outside. DESIGN CHOICE (log entry 15): what R64 does not name is zero or empty. -/
def State.resetWith (p : Params) : State where
  params := p
  session := .empty
  cmd := 0#32
  args := .zero
  result := 0#32
  status := .zero
  latched := .zero
  remaining := 0
  delays := []
  mem := []
  host := []
  readData := 0
  fresh := 0

/-- The machine right after reset, under the parameters of 95_test_vectors.md (log entry 1). -/
def State.reset : State := .resetWith Config.vectorParams

end Sys2Proof.Machine
end

