-- ==== Sys2Proof/Machine/Flags.lean ====
section
/-! DEFINITION. The `STATUS` register (10_state.md R62, R63) and what a command's completion does to it
(60_exceptions.md R352). The block has no arithmetic flags (10_state.md R54). -/

namespace Sys2Proof.Machine

/-- The code of a cause (60_exceptions.md R350). -/
def causeCode : Cause → Nat
  | .none => 0
  | .state => 1
  | .range => 2
  | .param => 3
  | .encoding => 4
  | .capacity => 5

/-- A flag at a bit position. -/
def flagBit (b : Bool) (n : Nat) : Nat := if b then 2 ^ n else 0

/-- The word a read of `STATUS` returns (R62). -/
def statusWord (st : Status) : Word :=
  BitVec.ofNat 32
    (flagBit st.busy 0 + flagBit st.err 1 + flagBit st.errstk 2 + flagBit st.ovr 3 + flagBit st.init 4 +
      causeCode st.cause * 2 ^ 8)

/-- A 32-bit write to `STATUS` (R63): a 1 in bit 2 or 3 clears that bit, everything else is ignored. -/
def statusWrite (st : Status) (w : Word) : Status :=
  { st with
    errstk := st.errstk && !w.getLsbD 2
    ovr := st.ovr && !w.getLsbD 3 }

/-- `STATUS` at the completion of a failed command (60_exceptions.md R352). -/
def statusFailed (st : Status) (c : Cause) : Status :=
  { st with busy := false, err := true, cause := c, errstk := true }

/-- `STATUS` at the completion of a successful command that leaves `S.INIT = init` (60_exceptions.md R352). -/
def statusSucceeded (st : Status) (init : Bool) : Status :=
  { st with busy := false, err := false, cause := .none, init := init }

/-- `STATUS` at the acceptance of a command (60_exceptions.md R357). -/
def statusAccepted (st : Status) : Status := { st with busy := true }

/-- `STATUS` after a write dropped because `BUSY = 1` (10_state.md R57, R58). -/
def statusOverrun (st : Status) : Status := { st with ovr := true }

end Sys2Proof.Machine
end

