-- ==== Sys2Proof/Machine/Operands.lean ====
section
/-! DEFINITION. How commands read their operands (30_encoding.md R124) and encode their results (R125), and how an index
operand selects an entry of a table. -/

namespace Sys2Proof.Machine

/-- Kind `I32`: `int(ARGn)`. -/
def opI32 (w : Word) : Int := w.toInt

/-- Kind `U32`: a host byte address. -/
def opU32 (w : Word) : Nat := w.toNat

/-- Kind `F32`: the bit pattern. -/
def opF32 (w : Word) : F32 := w

/-- Kind `I16`: `sext_16(ARGn[15:0])`; bits 31:16 are ignored. -/
def opI16 (w : Word) : Int := (w.extractLsb' 0 16).toInt

/-- Kind `I8`: `sext_8(ARGn[7:0])`; bits 31:8 are ignored. -/
def opI8 (w : Word) : Int := (w.extractLsb' 0 8).toInt

/-- Result kind `B`. -/
def resBool (b : Bool) : Word := if b then 1#32 else 0#32

/-- Result kind `I32` of a count or an index. DEDUCED (log entry 20): modulo 2^32. -/
def resI32 (v : Int) : Word := BitVec.ofInt 32 v

/-- Result kind `I16`: sign-extended. -/
def resI16 (v : Int) : Word := (BitVec.ofInt 16 v).signExtend 32

/-- Result kind `I8`: sign-extended. -/
def resI8 (v : Int) : Word := (BitVec.ofInt 8 v).signExtend 32

/-- Result kind `NONE`. -/
def resNone : Word := 0#32

/-- The entry at index `i` of a table of entries `0 .. length - 1`, `none` for an index outside it. -/
def lookupI {α : Type} (l : List α) (i : Int) : Option α := if i < 0 then none else l[i.toNat]?

end Sys2Proof.Machine
end

