-- ==== Sys2Proof/Machine/Ops.lean ====
section
/-! DEFINITION. The named operations that every command shares: host memory by bytes (00_scope.md R18, 20_memory.md
R80, R85), the checks that open a command, acceptance, and completion in failure or success (60_exceptions.md R352,
R357). A failure is the block's only exception; R358 gives it no saved pc, no vector and no return. -/

namespace Sys2Proof.Machine

/-- The byte at an address. -/
def Memory.read8 : Memory → Nat → Byte
  | [], _ => Memory.unlisted
  | (a, b) :: rest, k => if k = a then b else Memory.read8 rest k

/-- The memory with one byte replaced, in canonical form again. -/
def Memory.write8 : Memory → Nat → Byte → Memory
  | [], k, v => if v = Memory.unlisted then [] else [(k, v)]
  | (a, b) :: rest, k, v =>
    if k < a then (if v = Memory.unlisted then (a, b) :: rest else (k, v) :: (a, b) :: rest)
    else if k = a then (if v = Memory.unlisted then rest else (k, v) :: rest)
    else (a, b) :: Memory.write8 rest k v

/-- The value of the bytes `byte 0 .. byte (n - 1)`, byte 0 least significant (R18, R85). -/
def bytesValue (byte : Nat → Byte) : Nat → Nat
  | 0 => 0
  | n + 1 => bytesValue byte n + (byte n).toNat * 2 ^ (8 * n)

/-- `MemRead(a, n)` (R18), zero-extended to a word. -/
def Memory.read (m : Memory) (a : Nat) (width : Width) : Word :=
  BitVec.ofNat 32 (bytesValue (fun i => Memory.read8 m (a + i)) width.bytes)

/-- The `n` low bytes of `v` written from address `a` upward, least significant first (R18, R85). -/
def Memory.writeBytes (m : Memory) (a v : Nat) : Nat → Memory
  | 0 => m
  | n + 1 => Memory.write8 (Memory.writeBytes m a v n) (a + n) (BitVec.ofNat 8 (v >>> (8 * n)))

/-- `MemWrite(a, n, v)` (R18). -/
def Memory.write (m : Memory) (a : Nat) (width : Width) (v : Word) : Memory :=
  Memory.writeBytes m a v.toNat width.bytes

/-- The ranges `[a, a+n)` and `[b, b+k)` share an address. -/
def rangesMeet (a n b k : Nat) : Bool :=
  decide (0 < n) && decide (0 < k) && decide (a < b + k) && decide (b < a + n)

/-- A region a command may not be given: over the register window (20_memory.md R82), or not ordinary memory (R93). -/
def regionRefusal (p : Params) (a n : Nat) : Option Refusal :=
  if rangesMeet a n p.ctrlBase Config.windowBytes then some .windowRegion
  else if p.devices.any (fun d => rangesMeet a n d.1 d.2) then some .deviceRegion
  else none

/-- What a successful command leaves behind: the block's internal state, host memory and its result. Nothing else of
the state can change by a command but `STATUS`. -/
structure Effect where
  session : Session
  mem : Memory
  result : Word
  deriving DecidableEq, Repr

/-- Completion of a failed command (R352): everything as before, `RESULT` 0, the failure in `STATUS`. -/
def State.fail (s : State) (c : Cause) : State :=
  { s with result := 0#32, status := statusFailed s.status c }

/-- Completion of a successful command (R352): its effects, its result, success in `STATUS`. -/
def State.succeed (s : State) (e : Effect) : State :=
  { s with
    session := e.session
    mem := e.mem
    result := e.result
    status := statusSucceeded s.status e.session.init }

/-- Completion (R357 item 3). -/
def State.complete (s : State) : Except Cause Effect → State
  | .error c => s.fail c
  | .ok e => s.succeed e

/-- A command that always completes. -/
def completes (s : State) (r : Except Cause Effect) : Host.Outcome State Fault Refusal :=
  .next (s.complete r)

/-- The effect of a command that only answers. -/
def answer (s : State) (r : Word) : Except Cause Effect := .ok ⟨s.session, s.mem, r⟩

/-- The effect of a command that changes the internal state only. -/
def become (s : State) (session : Session) (r : Word) : Except Cause Effect := .ok ⟨session, s.mem, r⟩

/-- `requireInit` (40_session.md): `STATE` outside a session (60_exceptions.md R351). -/
def requireInit (s : State) (k : Except Cause Effect) : Except Cause Effect :=
  if s.session.init then k else .error .state

/-- `requireInit`, then `requireVoice` on `ARG0` (43_voice.md); the command continues with the index and the voice. -/
def withVoice (s : State) (k : Nat → Voice → Except Cause Effect) : Except Cause Effect :=
  requireInit s <|
    match lookupI s.session.voices (opI32 s.latched.arg0) with
    | none => .error .range
    | some v => k (opI32 s.latched.arg0).toNat v

/-- The voice table with voice `i` replaced. -/
def setVoice (s : State) (i : Nat) (v : Voice) : Except Cause Effect :=
  become s { s.session with voices := s.session.voices.set i v } resNone

/-- Acceptance of a command word (10_state.md R57, 60_exceptions.md R357 item 1): the word and the arguments are latched,
`BUSY` is set, and the command takes the next duration given from outside (log entry 2). -/
def State.accept (s : State) (w : Word) : State :=
  { s with
    cmd := w
    latched := s.args
    status := statusAccepted s.status
    remaining := s.delays.headD 0
    delays := s.delays.tail }

/-- A command word just accepted whose time is over, so that the next step completes it. -/
def State.launch (s : State) (w : Word) : State :=
  { s with cmd := w, latched := s.args, status := statusAccepted s.status, remaining := 0 }

end Sys2Proof.Machine
end

