-- ==== Sys2Proof/Machine/Mixer.lean ====
section
/-! DEFINITION. `UPDATE` (44_mixer.md): the linear interpolation sampler, the gain matrix and the stereo accumulator with
its global-volume pass. Host memory takes its final words at completion (20_memory.md R91; DESIGN CHOICE, log entry 14). -/

namespace Sys2Proof.Machine

/-- The end check of a frame (R303): a looping voice wraps (R304), a single-shot voice ends (`none`, R305). -/
def frameStart (v : Voice) : Option Voice :=
  if f32Gt v.pos v.rend then
    match v.mode with
    | .loop => some { v with pos := f32Add v.rstart (f32Sub v.pos v.rend) }
    | .single => none
  else some v

/-- The fetch (R306): shift and refetch when the floor of the position has changed; an out-of-range floor keeps the stale
current sample. -/
def fetch (snd : Sound) (v : Voice) : Voice :=
  let ip := f32FloorSat v.pos
  if ip = v.ipos then v
  else { v with prev := v.cur, ipos := ip, cur := (lookupI snd ip.toInt).getD v.cur }

/-- The blend factor (R307). -/
def blend (v : Voice) : F32 := f32Sub v.pos (f32FromInt (f32FloorSat v.pos).toInt)

/-- The interpolated sample (R307), in the order the rule writes it. -/
def interpolate (v : Voice) : F32 := f32Add v.prev (f32Mul (f32Sub v.cur v.prev) (blend v))

/-- One output lane: `word <- f32_add(word, x)` (R308). -/
def addLane (m : Memory) (a : Nat) (x : F32) : Memory :=
  Memory.write m a .w32 (f32Add (Memory.read m a .w32) x)

/-- Gain and accumulation into the frame at `a`, left before right (R308, 42_gain.md R245). -/
def accumulate (v : Voice) (a : Nat) (m : Memory) : Memory :=
  let x := f32Mul (interpolate v) v.vol
  addLane (addLane m a (f32Mul x v.gl)) (a + 4) (f32Mul x v.gr)

/-- The advance (R309). -/
def advance (v : Voice) : Voice := { v with pos := f32Add v.pos v.pitch }

/-- `count` frames of one voice bound to the sound `snd`, from frame `i` of the buffer on. A single-shot end unbinds the voice
and leaves the later frames alone (R305). -/
def mixVoice (snd : Sound) (buf : Nat) : Nat → Nat → Voice → Memory → Voice × Memory
  | 0, _, v, m => (v, m)
  | count + 1, i, v, m =>
    match frameStart v with
    | none => ({ v with sound := none }, m)
    | some v1 =>
      let v2 := fetch snd v1
      mixVoice snd buf count (i + 1) (advance v2) (accumulate v2 (buf + 8 * i) m)

/-- The sound of a voice that is not skipped: bound to a slot with at least one frame (R302). DESIGN CHOICE (log entry 18):
a slot that does not exist counts as an empty one. -/
def activeSound (slots : List Sound) (v : Voice) : Option Sound :=
  match v.sound with
  | none => none
  | some k =>
    match slots[k]? with
    | some (x :: xs) => some (x :: xs)
    | _ => none

/-- What the voice loop leaves. -/
structure Mixed where
  voices : List Voice
  mem : Memory
  active : Nat
  deriving DecidableEq, Repr

/-- All voices in index order, `n` frames each, counting those not skipped (R301, R302). -/
def mixVoices (slots : List Sound) (buf n : Nat) : List Voice → Memory → Mixed
  | [], m => ⟨[], m, 0⟩
  | v :: vs, m =>
    match activeSound slots v with
    | none =>
      let r := mixVoices slots buf n vs m
      ⟨v :: r.voices, r.mem, r.active⟩
    | some snd =>
      let p := mixVoice snd buf n 0 v m
      let r := mixVoices slots buf n vs p.2
      ⟨p.1 :: r.voices, r.mem, r.active + 1⟩

/-- The global-volume pass over `count` words from word `k` of the buffer on (R310). -/
def globalPass (g : F32) (buf : Nat) : Nat → Nat → Memory → Memory
  | 0, _, m => m
  | count + 1, k, m =>
    globalPass g buf count (k + 1)
      (Memory.write m (buf + 4 * k) .w32 (f32Mul (Memory.read m (buf + 4 * k) .w32) g))

/-- An `UPDATE` that passes its checks. -/
structure UpdatePlan where
  buf : Nat
  frames : Nat
  deriving DecidableEq, Repr

/-- The checks of `UPDATE`, in the order of R300. -/
def updatePlan (s : State) : Except Cause UpdatePlan :=
  let buf := opU32 s.latched.arg0
  let n := opI32 s.latched.arg1
  if !s.session.init then .error .state
  else if buf = 0 then .error .param
  else if n < 1 then .error .param
  else if buf % 4 ≠ 0 then .error .param
  else if s.params.hostMemBytes < buf + 8 * n.toNat then .error .range
  else .ok ⟨buf, n.toNat⟩

/-- What an `UPDATE` that passes its checks does (R300). -/
def updateEffect (s : State) (p : UpdatePlan) : Except Cause Effect :=
  let r := mixVoices s.session.slots p.buf p.frames s.session.voices s.mem
  .ok ⟨{ s.session with voices := r.voices, active := r.active },
    globalPass s.session.gvol p.buf (2 * p.frames) 0 r.mem, resNone⟩

/-- `UPDATE` (R300). A buffer over the register window or over memory that is not ordinary is refused (20_memory.md R82,
R93). -/
def execUpdate (s : State) : Host.Outcome State Fault Refusal :=
  match updatePlan s with
  | .error c => completes s (.error c)
  | .ok p =>
    match regionRefusal s.params p.buf (8 * p.frames) with
    | some r => .refused r
    | none => completes s (updateEffect s p)

end Sys2Proof.Machine
end

