-- ==== Sys2Proof/Machine/Gain.lean ====
section
/-! DEFINITION. The pan-law function GAIN_FN (42_gain.md R241), computed in 192-bit fixed point. DEDUCED (log entry 12);
DESIGN CHOICE (log entry 13): it is the reference, no other function that R243 admits. With
`t = real(q) + 1` the angle is `θ = t * π / 4`, the right gain is `sin θ`, and the left gain is
`cos θ = sin (π/2 - θ) = sin ((2 - t) * π / 4)`, so both sides are one function of `t` and of `2 - t`. -/

namespace Sys2Proof.Machine

/-- `floor(π / 4 * 2^192)`. -/
def piQuarter : Nat := 0xc90fdaa22168c234c4c6628b80dc1cd129024e088a67cc74

/-- Horner form of `sin x / x = 1 - x²/(2·3) · (1 - x²/(4·5) · (1 - …))`, with `x2 = x² · 2^192`: the factor from
level `k` on, `fuel` levels deep, times 2^192. -/
def sinHorner (x2 : Nat) : Nat → Nat → Nat
  | 0, _ => 2 ^ 192
  | fuel + 1, k =>
    2 ^ 192 - x2 * sinHorner x2 fuel (k + 1) / (2 ^ 192 * ((2 * k) * (2 * k + 1)))

/-- `sin (t / 2^149 * π / 4) * 2^192`, for `0 ≤ t ≤ 2 * 2^149`, never above 1. -/
def sinQuarter (t : Nat) : Nat :=
  let x := t * piQuarter / f32One
  min (x * sinHorner (x * x / 2 ^ 192) 30 1 / 2 ^ 192) (2 ^ 192)

/-- One gain, rounded once to binary32 (R241 `RN32`). -/
def gainSide (t : Nat) : F32 := f32Round false (sinQuarter t * f32One) (2 ^ 192)

/-- `GAIN_FN` (R241): the pair (left, right). -/
def gainFn (p : F32) : F32 × F32 :=
  let q := f32Val (clamp p f32NegOne f32PosOne)
  (gainSide ((f32One : Int) - q).toNat, gainSide ((f32One : Int) + q).toNat)

end Sys2Proof.Machine
end

