-- ==== Sys2Proof/Machine/Session.lean ====
section
/-! DEFINITION. The session commands (40_session.md). Each meaning runs on the latched arguments and completes. -/

namespace Sys2Proof.Machine

/-- `SRf` (10_state.md R32). -/
def sampleRateF (sr : I32) : F32 := f32FromInt sr.toInt

/-- `DefaultVoice` (10_state.md R49). -/
def defaultVoice (sr : I32) : Voice where
  sound := none
  freq := sampleRateF sr
  pitch := f32PosOne
  vol := f32PosOne
  pan := f32Zero
  gl := (gainFn f32Zero).1
  gr := (gainFn f32Zero).2
  pos := f32Zero
  ipos := 0#32
  rstart := f32Zero
  rend := f32Zero
  mode := .single
  cur := f32Zero
  prev := f32Zero

/-- `n` fresh voices. -/
def freshVoices (n : Nat) (sr : I32) : List Voice := List.replicate n (defaultVoice sr)

/-- The session `INIT` starts (10_state.md R65). -/
def startedSession (sr : I32) : Session where
  init := true
  sr := sr
  gvol := f32PosOne
  active := 0
  slots := []
  voices := freshVoices Config.initVoices sr

/-- `INIT` (R160). -/
def execInit (s : State) : Host.Outcome State Fault Refusal :=
  completes s <|
    if s.session.init then .error .state
    else if opI32 s.latched.arg0 < 1 then .error .param
    else become s (startedSession s.latched.arg0) (resBool true)

/-- `FINI` (R161). -/
def execFini (s : State) : Host.Outcome State Fault Refusal :=
  completes s <| requireInit s <| become s .empty resNone

/-- `ISINIT` (R162). -/
def execIsinit (s : State) : Host.Outcome State Fault Refusal :=
  completes s <| answer s (resBool s.session.init)

/-- `GETSR` (R163). -/
def execGetsr (s : State) : Host.Outcome State Fault Refusal :=
  completes s <| requireInit s <| answer s s.session.sr

/-- `GETNSND` (R164). -/
def execGetnsnd (s : State) : Host.Outcome State Fault Refusal :=
  completes s <| requireInit s <| answer s (resI32 s.session.slots.length)

/-- `GETNVOC` (R165). -/
def execGetnvoc (s : State) : Host.Outcome State Fault Refusal :=
  completes s <| requireInit s <| answer s (resI32 s.session.voices.length)

/-- `SETNVOC` (R166). -/
def execSetnvoc (s : State) : Host.Outcome State Fault Refusal :=
  completes s <| requireInit s <|
    let n := opI32 s.latched.arg0
    if n < 1 then .error .param
    else if (s.params.maxVoices : Int) < n then .error .capacity
    else become s { s.session with voices := freshVoices n.toNat s.session.sr } resNone

/-- `GETACT` (R167). -/
def execGetact (s : State) : Host.Outcome State Fault Refusal :=
  completes s <| requireInit s <| answer s (resI32 s.session.active)

/-- `GETGVOL` (R168). -/
def execGetgvol (s : State) : Host.Outcome State Fault Refusal :=
  completes s <| requireInit s <| answer s s.session.gvol

/-- `SETGVOL` (R169). -/
def execSetgvol (s : State) : Host.Outcome State Fault Refusal :=
  completes s <| requireInit s <|
    become s { s.session with gvol := clamp (opF32 s.latched.arg0) f32Zero f32PosOne } resNone

end Sys2Proof.Machine
end

