-- ==== Sys2Proof/Machine/SoundBank.lean ====
section
/-! DEFINITION. The SoundBank commands (41_soundbank.md): decoding PCM from host memory into slots, and single frames. -/

namespace Sys2Proof.Machine

/-- `decodeSample(a, w)` (R200). -/
def decodeSample (m : Memory) (a : Nat) : Width → F32
  | .w8 => f32Mul (f32FromInt (opI8 (Memory.read m a .w8))) f32TwoPowNeg7
  | .w16 => f32Mul (f32FromInt (opI16 (Memory.read m a .w16))) f32TwoPowNeg15
  | .w32 => Memory.read m a .w32

/-- The sum of `count` further channels from channel `c` on, of the frame at `a`, added to `acc` in channel order (R201). -/
def addChannels (m : Memory) (a : Nat) (w : Width) : Nat → Nat → F32 → F32
  | 0, _, acc => acc
  | count + 1, c, acc => addChannels m a w count (c + 1) (f32Add acc (decodeSample m (a + c * w.bytes) w))

/-- One frame of `ch` interleaved channels at `a` (R201). -/
def decodeFrame (m : Memory) (a : Nat) (w : Width) (ch : Nat) : F32 :=
  addChannels m a w (ch - 1) 1 (decodeSample m a w)

/-- `decodeFrames(src, byteCount, w, ch)` (R201); trailing bytes that make no whole frame are ignored
(DESIGN CHOICE, log entry 23: not read). -/
def decodeFrames (m : Memory) (src byteCount : Nat) (w : Width) (ch : Nat) : Sound :=
  (List.range (byteCount / (w.bytes * ch))).map (fun f => decodeFrame m (src + f * ch * w.bytes) w ch)

/-- The sample widths `LOAD` accepts: 1, 2 or 4 bytes (R202). -/
def sampleWidth (v : Int) : Option Width :=
  if v = 1 then some .w8 else if v = 2 then some .w16 else if v = 4 then some .w32 else none

/-- The frames held by all slots (10_state.md R35). -/
def totalFrames (slots : List Sound) : Nat := (slots.map List.length).sum

/-- The frames of slot `i`, none for a slot that does not exist (R202 `old`). -/
def slotFrames (slots : List Sound) (i : Nat) : Nat := (slots.getD i []).length

/-- A `LOAD` that passes its checks. -/
structure LoadPlan where
  slot : Nat
  src : Nat
  byteCount : Nat
  width : Width
  channels : Nat
  deriving DecidableEq, Repr

/-- The checks of `LOAD`, in the order of R202. -/
def loadPlan (s : State) : Except Cause LoadPlan :=
  let slot := opI32 s.latched.arg0
  let src := opU32 s.latched.arg1
  let n := opI32 s.latched.arg2
  let ch := opI32 s.latched.arg4
  if !s.session.init then .error .state
  else if slot < 0 then .error .range
  else if (s.params.maxSounds : Int) ≤ slot then .error .capacity
  else
    match sampleWidth (opI32 s.latched.arg3) with
    | none => .error .param
    | some w =>
      if ch < 1 then .error .param
      else if n < 0 then .error .param
      else if src = 0 then .error .param
      else if s.params.hostMemBytes < src + n.toNat then .error .range
      else if s.params.sampleMemFrames <
          totalFrames s.session.slots - slotFrames s.session.slots slot.toNat
            + n.toNat / (w.bytes * ch.toNat) then .error .capacity
      else .ok ⟨slot.toNat, src, n.toNat, w, ch.toNat⟩

/-- The slot table with slot `i` holding `new`, grown with empty slots if `i` is past its end (R202, R203). -/
def putSlot (slots : List Sound) (i : Nat) (new : Sound) : List Sound :=
  if i < slots.length then slots.set i new
  else slots ++ List.replicate (i - slots.length) [] ++ [new]

/-- What a `LOAD` that passes its checks does (R202). -/
def loadEffect (s : State) (p : LoadPlan) : Except Cause Effect :=
  become s
    { s.session with
      slots := putSlot s.session.slots p.slot (decodeFrames s.mem p.src p.byteCount p.width p.channels) }
    resNone

/-- `LOAD` (R202). A source over the register window or over memory that is not ordinary is refused (20_memory.md R82,
R93). -/
def execLoad (s : State) : Host.Outcome State Fault Refusal :=
  match loadPlan s with
  | .error c => completes s (.error c)
  | .ok p =>
    match regionRefusal s.params p.src p.byteCount with
    | some r => .refused r
    | none => completes s (loadEffect s p)

/-- The checks of the peek and poke commands (R204): `requireInit`, the slot in `ARG0`, the index in `ARG1`; the command
continues with both indexes, the slot's contents and the frame. -/
def withFrame (s : State) (k : Nat → Nat → Sound → F32 → Except Cause Effect) : Except Cause Effect :=
  requireInit s <|
    match lookupI s.session.slots (opI32 s.latched.arg0) with
    | none => .error .range
    | some snd =>
      match lookupI snd (opI32 s.latched.arg1) with
      | none => .error .range
      | some x => k (opI32 s.latched.arg0).toNat (opI32 s.latched.arg1).toNat snd x

/-- Frame `i` of slot `n` (holding `snd`) replaced. -/
def setFrame (s : State) (n i : Nat) (snd : Sound) (x : F32) : Except Cause Effect :=
  become s { s.session with slots := s.session.slots.set n (snd.set i x) } resNone

/-- `PEEKF` (R204). -/
def execPeekf (s : State) : Host.Outcome State Fault Refusal :=
  completes s <| withFrame s fun _ _ _ x => answer s x

/-- `PEEKI16` (R205). -/
def execPeeki16 (s : State) : Host.Outcome State Fault Refusal :=
  completes s <| withFrame s fun _ _ _ x =>
    answer s (resI16 (f32ToIntRneSat (f32Mul x f32TwoPow15) (-32768) 32767))

/-- `PEEKI8` (R206). -/
def execPeeki8 (s : State) : Host.Outcome State Fault Refusal :=
  completes s <| withFrame s fun _ _ _ x =>
    answer s (resI8 (f32ToIntRneSat (f32Mul x f32OneTwentyEight) (-128) 127))

/-- `POKEF` (R207). -/
def execPokef (s : State) : Host.Outcome State Fault Refusal :=
  completes s <| withFrame s fun n i snd _ => setFrame s n i snd (opF32 s.latched.arg2)

/-- `POKEI16` (R208). -/
def execPokei16 (s : State) : Host.Outcome State Fault Refusal :=
  completes s <| withFrame s fun n i snd _ =>
    setFrame s n i snd (f32Mul (f32FromInt (opI16 s.latched.arg2)) f32TwoPowNeg15)

/-- `POKEI8` (R209). -/
def execPokei8 (s : State) : Host.Outcome State Fault Refusal :=
  completes s <| withFrame s fun n i snd _ =>
    setFrame s n i snd (f32Mul (f32FromInt (opI8 s.latched.arg2)) f32TwoPowNeg7)

end Sys2Proof.Machine
end

