-- ==== Sys2Proof/Machine/VoicePool.lean ====
section
/-! DEFINITION. The voice commands (43_voice.md): each reads or writes one voice, selected by `ARG0`. -/

namespace Sys2Proof.Machine

/-- `GETVVOL` (R260). -/
def execGetvvol (s : State) : Host.Outcome State Fault Refusal :=
  completes s <| withVoice s fun _ v => answer s v.vol

/-- `SETVVOL` (R261). -/
def execSetvvol (s : State) : Host.Outcome State Fault Refusal :=
  completes s <| withVoice s fun i v =>
    setVoice s i { v with vol := clamp (opF32 s.latched.arg1) f32Zero f32PosOne }

/-- `GETVBAL` (R262). -/
def execGetvbal (s : State) : Host.Outcome State Fault Refusal :=
  completes s <| withVoice s fun _ v => answer s v.pan

/-- A voice with its balance and the gain pair of it (R263, 42_gain.md R244). -/
def balanced (v : Voice) (pan : F32) : Voice :=
  { v with pan := pan, gl := (gainFn pan).1, gr := (gainFn pan).2 }

/-- `SETVBAL` (R263). -/
def execSetvbal (s : State) : Host.Outcome State Fault Refusal :=
  completes s <| withVoice s fun i v =>
    setVoice s i (balanced v (clamp (opF32 s.latched.arg1) f32NegOne f32PosOne))

/-- `GETVFRQ` (R264). -/
def execGetvfrq (s : State) : Host.Outcome State Fault Refusal :=
  completes s <| withVoice s fun _ v => answer s v.freq

/-- The frequencies `SETVFRQ` accepts (R265): not NaN, above 0, not `+inf`. -/
def frequencyOk (hz : F32) : Bool :=
  !f32IsNaN hz && f32Gt hz f32Zero && !decide (hz = f32Inf false)

/-- `SETVFRQ` (R265). -/
def execSetvfrq (s : State) : Host.Outcome State Fault Refusal :=
  completes s <| withVoice s fun i v =>
    let hz := opF32 s.latched.arg1
    if frequencyOk hz then
      setVoice s i { v with freq := hz, pitch := f32Div hz (sampleRateF s.session.sr) }
    else .error .param

/-- What `STOP` leaves of a voice (R266). -/
def stopped (v : Voice) : Voice :=
  { v with
    sound := none
    vol := f32PosOne
    pos := f32Zero
    ipos := 0#32
    rstart := f32Zero
    rend := f32Zero
    mode := .single }

/-- `STOP` (R266). -/
def execStop (s : State) : Host.Outcome State Fault Refusal :=
  completes s <| withVoice s fun i v => setVoice s i (stopped v)

/-- The pre-fetched sample: the frame at `st`, or `+0.0` outside the slot (R267). -/
def prefetch (snd : Sound) (st : Int) : F32 := (lookupI snd st).getD f32Zero

/-- What `PLAY` writes into a voice: slot `k` holding `snd`, start `st`, mode `md`, range `rs`, `re` (R267). -/
def played (v : Voice) (k : Nat) (snd : Sound) (st : I32) (md rs re : Int) : Voice :=
  { v with
    sound := some k
    mode := if md = Config.loopModeValue then .loop else .single
    pos := f32FromInt st.toInt
    ipos := st
    rstart := f32FromInt rs
    rend := f32FromInt re
    cur := prefetch snd st.toInt
    prev := prefetch snd st.toInt }

/-- `PLAY` (R267). -/
def execPlay (s : State) : Host.Outcome State Fault Refusal :=
  completes s <| withVoice s fun i v =>
    match lookupI s.session.slots (opI32 s.latched.arg1) with
    | none => .error .range
    | some snd =>
      setVoice s i
        (played v (opI32 s.latched.arg1).toNat snd s.latched.arg2 (opI32 s.latched.arg3)
          (opI32 s.latched.arg4) (opI32 s.latched.arg5))

end Sys2Proof.Machine
end

