-- ==== Sys2Proof/Machine/Dispatch.lean ====
section
/-! DEFINITION. The dispatch: one arm per command of 30_encoding.md R127. -/

namespace Sys2Proof.Machine

def exec (i : Instr) (s : State) : Host.Outcome State Fault Refusal :=
  match i with
  | .init => Sys2Proof.Machine.execInit s
  | .fini => Sys2Proof.Machine.execFini s
  | .isinit => Sys2Proof.Machine.execIsinit s
  | .getsr => Sys2Proof.Machine.execGetsr s
  | .getnsnd => Sys2Proof.Machine.execGetnsnd s
  | .getnvoc => Sys2Proof.Machine.execGetnvoc s
  | .setnvoc => Sys2Proof.Machine.execSetnvoc s
  | .getact => Sys2Proof.Machine.execGetact s
  | .getgvol => Sys2Proof.Machine.execGetgvol s
  | .setgvol => Sys2Proof.Machine.execSetgvol s
  | .load => Sys2Proof.Machine.execLoad s
  | .peekf => Sys2Proof.Machine.execPeekf s
  | .peeki16 => Sys2Proof.Machine.execPeeki16 s
  | .peeki8 => Sys2Proof.Machine.execPeeki8 s
  | .pokef => Sys2Proof.Machine.execPokef s
  | .pokei16 => Sys2Proof.Machine.execPokei16 s
  | .pokei8 => Sys2Proof.Machine.execPokei8 s
  | .getvvol => Sys2Proof.Machine.execGetvvol s
  | .setvvol => Sys2Proof.Machine.execSetvvol s
  | .getvbal => Sys2Proof.Machine.execGetvbal s
  | .setvbal => Sys2Proof.Machine.execSetvbal s
  | .getvfrq => Sys2Proof.Machine.execGetvfrq s
  | .setvfrq => Sys2Proof.Machine.execSetvfrq s
  | .stop => Sys2Proof.Machine.execStop s
  | .play => Sys2Proof.Machine.execPlay s
  | .update => Sys2Proof.Machine.execUpdate s

end Sys2Proof.Machine
end

