-- ==== Sys2Proof/WellFormed.lean ====
section
/-! DEFINITION. Well-formedness: of the parameters (00_scope.md R5), of literals and of assembler lines
(30_encoding.md R130, R131). A command word holds no operand (R123), so every `Instr` is well formed; what can be
ill formed is a line that names operands for it. -/

namespace Sys2Proof

/-- The value ranges of R5. `ctrlBase` has no upper bound: the window is outside the block's 32-bit master space
(20_memory.md R82; log entry 29). -/
abbrev Params.wf (p : Params) : Prop :=
  p.ctrlBase % 64 = 0 ∧
  1 ≤ p.hostMemBytes ∧ p.hostMemBytes ≤ 2 ^ Config.hostAddrBits ∧
  Config.initVoices ≤ p.maxVoices ∧ 1 ≤ p.maxSounds

/-- The range of an integer literal of `n` bits: a two's complement or an unsigned value (R131; DEDUCED, log entry 21). -/
abbrev fitsBits (n : Nat) (v : Int) : Prop := -(2 ^ (n - 1) : Int) ≤ v ∧ v < (2 ^ n : Int)

/-- A literal fits an operand kind (R131): an F32 operand is an `f` or `f32:` literal, every other kind is an integer
literal that fits its width. -/
def Literal.fits : OperandKind → Literal → Bool
  | .f32, .dec _ _ _ => true
  | .f32, .pattern _ => true
  | .i32, .int v => decide (fitsBits 32 v)
  | .u32, .int v => decide (fitsBits 32 v)
  | .i16, .int v => decide (fitsBits 16 v)
  | .i8, .int v => decide (fitsBits 8 v)
  | _, _ => false

/-- As many operands as the row has, each of its kind (R130). -/
def operandsFit : List OperandKind → List Literal → Bool
  | [], [] => true
  | k :: ks, l :: ls => l.fits k && operandsFit ks ls
  | _, _ => false

/-- A well-formed line. -/
def Line.wf : Line → Bool
  | .command i ops => operandsFit i.operands ops
  | .hostW8 _ v => decide (fitsBits 8 v)
  | .hostW16 _ v => decide (fitsBits 16 v)
  | .expect _ _ c => decide (c < 16)
  | .wait | .clrstat | .raw _ | .hostW32 _ _ | .hostZero _ _ => true

end Sys2Proof
end

