-- ==== Sys2Proof/Decode.lean ====
section
/-! DEFINITION. Decoding and encoding of command words (30_encoding.md R120, R121, R127, R128) and disassembly (R134). -/

namespace Sys2Proof

/-- Why a word is no command (R128). -/
inductive DecodeError where
  /-- `CMD[31:8] ≠ 0`. -/
  | reservedBits
  /-- `CMD[7:0]` is an opcode that R127 does not assign. -/
  | unassignedOpcode
  deriving DecidableEq, Repr

/-- A row of the opcode map. -/
structure OpcodeRow where
  opc : Byte
  instr : Instr
  deriving DecidableEq, Repr

/-- The rows of R127 for the session commands. -/
def sessionRows : List OpcodeRow :=
  [⟨0x01, .init⟩, ⟨0x02, .fini⟩, ⟨0x03, .isinit⟩, ⟨0x04, .getsr⟩, ⟨0x05, .getnsnd⟩,
   ⟨0x06, .getnvoc⟩, ⟨0x07, .setnvoc⟩, ⟨0x08, .getact⟩, ⟨0x09, .getgvol⟩, ⟨0x0A, .setgvol⟩]

/-- The rows of R127 for the SoundBank commands. -/
def soundRows : List OpcodeRow :=
  [⟨0x10, .load⟩, ⟨0x11, .peekf⟩, ⟨0x12, .peeki16⟩, ⟨0x13, .peeki8⟩, ⟨0x14, .pokef⟩,
   ⟨0x15, .pokei16⟩, ⟨0x16, .pokei8⟩]

/-- The rows of R127 for the voice commands and `UPDATE`. -/
def voiceRows : List OpcodeRow :=
  [⟨0x20, .getvvol⟩, ⟨0x21, .setvvol⟩, ⟨0x22, .getvbal⟩, ⟨0x23, .setvbal⟩, ⟨0x24, .getvfrq⟩,
   ⟨0x25, .setvfrq⟩, ⟨0x26, .stop⟩, ⟨0x27, .play⟩, ⟨0x30, .update⟩]

/-- The opcode map (R127). -/
def opcodeRows : List OpcodeRow := sessionRows ++ soundRows ++ voiceRows

/-- Decoding (R121): bits 31:8 must be 0, then bits 7:0 select the row. Independent of arguments and state. -/
def decode (w : Word) : Except DecodeError Instr :=
  if w.extractLsb' 8 24 ≠ 0#24 then .error .reservedBits
  else
    match opcodeRows.find? (fun r => r.opc == w.extractLsb' 0 8) with
    | some r => .ok r.instr
    | none => .error .unassignedOpcode

/-- The opcode column of R127. -/
def opcode : Instr → Byte
  | .init => 0x01 | .fini => 0x02 | .isinit => 0x03 | .getsr => 0x04 | .getnsnd => 0x05
  | .getnvoc => 0x06 | .setnvoc => 0x07 | .getact => 0x08 | .getgvol => 0x09 | .setgvol => 0x0A
  | .load => 0x10 | .peekf => 0x11 | .peeki16 => 0x12 | .peeki8 => 0x13 | .pokef => 0x14
  | .pokei16 => 0x15 | .pokei8 => 0x16
  | .getvvol => 0x20 | .setvvol => 0x21 | .getvbal => 0x22 | .setvbal => 0x23 | .getvfrq => 0x24
  | .setvfrq => 0x25 | .stop => 0x26 | .play => 0x27
  | .update => 0x30

/-- The command word of a command: `zext_32(OPC)` (R127, R132). -/
def encode (i : Instr) : Word := (opcode i).setWidth 32

/-- The mnemonic column of R127. -/
def mnemonic : Instr → String
  | .init => "INIT" | .fini => "FINI" | .isinit => "ISINIT" | .getsr => "GETSR"
  | .getnsnd => "GETNSND" | .getnvoc => "GETNVOC" | .setnvoc => "SETNVOC" | .getact => "GETACT"
  | .getgvol => "GETGVOL" | .setgvol => "SETGVOL"
  | .load => "LOAD" | .peekf => "PEEKF" | .peeki16 => "PEEKI16" | .peeki8 => "PEEKI8"
  | .pokef => "POKEF" | .pokei16 => "POKEI16" | .pokei8 => "POKEI8"
  | .getvvol => "GETVVOL" | .setvvol => "SETVVOL" | .getvbal => "GETVBAL" | .setvbal => "SETVBAL"
  | .getvfrq => "GETVFRQ" | .setvfrq => "SETVFRQ" | .stop => "STOP" | .play => "PLAY"
  | .update => "UPDATE"

/-- One hexadecimal digit, upper case. -/
def hexDigit (n : Nat) : Char := "0123456789ABCDEF".toList.getD n '0'

/-- The `n` low hexadecimal digits of `v`, most significant first. -/
def hexDigits : Nat → Nat → List Char
  | 0, _ => []
  | n + 1, v => hexDigits n (v / 16) ++ [hexDigit (v % 16)]

/-- Disassembly (R134): the row's mnemonic, or `RAW` and eight hexadecimal digits. -/
def disassemble (w : Word) : String :=
  match decode w with
  | .ok i => mnemonic i
  | .error _ => "RAW 0x" ++ String.ofList (hexDigits 8 w.toNat)

/-- The command whose word has the bits `w`, numbered as spec/opcode_table.json numbers them: one 32-bit word, the bits
above `nbits` zero. -/
def decodeTableWord (nbits w : Nat) : Option Instr :=
  match decode (BitVec.ofNat 32 (w % 2 ^ nbits)) with
  | .ok i => some i
  | .error _ => none

end Sys2Proof
end

