-- ==== Sys2Proof/Machine/HostPort.lean ====
section
/-! DEFINITION. What a host agent can do: register accesses (10_state.md R55 to R63), host-memory accesses with the
in-flight rule (20_memory.md R94, R97), `WAIT` (30_encoding.md R133) and the reset input (70_reset_and_hazards.md R380,
R381). -/

namespace Sys2Proof.Machine

/-- A region of host memory in use by the command in progress. -/
structure Region where
  base : Nat
  len : Nat
  deriving DecidableEq, Repr

/-- The region in flight (20_memory.md R94): that of a `LOAD` or `UPDATE` in progress that passes its checks. -/
def inFlight (s : State) : Option Region :=
  if s.status.busy then
    match decode s.cmd with
    | .ok .load =>
      match loadPlan s with
      | .ok p => some ⟨p.src, p.byteCount⟩
      | .error _ => none
    | .ok .update =>
      match updatePlan s with
      | .ok p => some ⟨p.buf, 8 * p.frames⟩
      | .error _ => none
    | _ => none
  else none

/-- The `UPDATE` in progress, if its checks pass: the one command whose region a reset disturbs (R381). -/
def inFlightUpdate (s : State) : Option UpdatePlan :=
  if s.status.busy then
    match decode s.cmd with
    | .ok .update =>
      match updatePlan s with
      | .ok p => some p
      | .error _ => none
    | _ => none
  else none

/-- An aligned 32-bit read at an offset of the window (R55, R59, R60, R62). -/
def registerRead (s : State) : Nat → Word
  | 0x00 => s.cmd
  | 0x04 => s.args.arg0
  | 0x08 => s.args.arg1
  | 0x0C => s.args.arg2
  | 0x10 => s.args.arg3
  | 0x14 => s.args.arg4
  | 0x18 => s.args.arg5
  | 0x1C => s.result
  | 0x20 => statusWord s.status
  | _ => 0#32

/-- A read of `n` bytes of the window: a width other than 4 bytes, or another alignment, returns 0 (R56). -/
def windowRead (s : State) (off n : Nat) : Nat :=
  if n = 4 ∧ off % 4 = 0 then (registerRead s off).toNat else 0

/-- A write to `CMD` or `ARGn` while `BUSY = 1` is dropped and sets `OVR` (R57, R58); otherwise `k` happens. -/
def unlessBusy (s : State) (k : State) : State :=
  if s.status.busy then { s with status := statusOverrun s.status } else k

/-- An aligned 32-bit write at an offset of the window (R57, R58, R59, R60, R63). -/
def registerWrite (s : State) (w : Word) : Nat → State
  | 0x00 => unlessBusy s (s.accept w)
  | 0x04 => unlessBusy s { s with args := { s.args with arg0 := w } }
  | 0x08 => unlessBusy s { s with args := { s.args with arg1 := w } }
  | 0x0C => unlessBusy s { s with args := { s.args with arg2 := w } }
  | 0x10 => unlessBusy s { s with args := { s.args with arg3 := w } }
  | 0x14 => unlessBusy s { s with args := { s.args with arg4 := w } }
  | 0x18 => unlessBusy s { s with args := { s.args with arg5 := w } }
  | 0x20 => { s with status := statusWrite s.status w }
  | _ => s

/-- A write of `n` bytes to the window: a width other than 4 bytes, or another alignment, is ignored (R56). -/
def windowWrite (s : State) (off n data : Nat) : State :=
  if n = 4 ∧ off % 4 = 0 then registerWrite s (BitVec.ofNat 32 data) off else s

/-- An address is in the register window (R55). -/
def inWindow (p : Params) (a : Nat) : Bool :=
  decide (p.ctrlBase ≤ a) && decide (a < p.ctrlBase + Config.windowBytes)

/-- A host access of `n` bytes at `a`, outside the window, that reaches ordinary host memory continues with `k`; any other
stops. DESIGN CHOICE (log entries 8, 9, 11, 27). -/
def onHostMemory (s : State) (a n : Nat) (k : Host.Outcome State Fault Refusal) :
    Host.Outcome State Fault Refusal :=
  if rangesMeet a n s.params.ctrlBase Config.windowBytes then .fault .straddlesWindow
  else if s.params.devices.any (fun d => rangesMeet a n d.1 d.2) then .refused .deviceAccess
  else if s.params.hostMemBytes < a + n then .fault .outsideHostMemory
  else k

/-- The access `[a, a+n)` touches the region in flight. -/
def touchesInFlight (s : State) (a n : Nat) : Bool :=
  match inFlight s with
  | none => false
  | some r => rangesMeet a n r.base r.len

/-- The byte a host read sees: any value inside the region in flight (20_memory.md R97 item 4), the stored byte elsewhere. -/
def byteSeen (s : State) (a i : Nat) : Byte :=
  if touchesInFlight s (a + i) 1 then Config.inFlightByte (s.fresh + i) else Memory.read8 s.mem (a + i)

/-- A host read of `n` bytes. Reading changes nothing but what the host has read and, if a free value was used, the
counter. -/
def hostRead (s : State) (a n : Nat) : Host.Outcome State Fault Refusal :=
  if inWindow s.params a then .next { s with readData := windowRead s (a - s.params.ctrlBase) n }
  else
    onHostMemory s a n <| .next
      { s with
        readData := bytesValue (byteSeen s a) n
        fresh := if touchesInFlight s a n then s.fresh + n else s.fresh }

/-- A host write of `n` bytes. A write to the region in flight ends the run as a fault (20_memory.md R97 item 5). -/
def hostWrite (s : State) (a n data : Nat) : Host.Outcome State Fault Refusal :=
  if inWindow s.params a then .next (windowWrite s (a - s.params.ctrlBase) n data)
  else
    onHostMemory s a n <|
      if touchesInFlight s a n then .fault .inFlightWrite
      else .next { s with mem := Memory.writeBytes s.mem a data n }

/-- The `count` words of an abandoned `UPDATE` buffer from word `k` on, each left with any value (R381). -/
def abandonWords (fresh buf : Nat) : Nat → Nat → Memory → Memory
  | 0, _, m => m
  | count + 1, k, m =>
    abandonWords fresh buf count (k + 1)
      (Memory.write m (buf + 4 * k) .w32 (Config.abandonedWord (fresh + k)))

/-- The state after the reset input (R380): every piece of block state at its reset value; the parameters, host memory and
the inputs from outside are not the block's. -/
def afterReset (s : State) (m : Memory) (fresh : Nat) : State :=
  { State.resetWith s.params with
    delays := s.delays, mem := m, host := s.host, readData := s.readData, fresh := fresh }

/-- The refusal of the command in progress: its region in flight is one a command may not be given (20_memory.md R82,
R93). -/
def inFlightRefusal (s : State) : Option Refusal :=
  match inFlight s with
  | none => none
  | some r => regionRefusal s.params r.base r.len

/-- The reset input is asserted (R380, R381). A `LOAD` or `UPDATE` on a region it may not be given is refused when a reset
abandons it as when it completes (DESIGN CHOICE, log entries 10 and 11). -/
def assertReset (s : State) : Host.Outcome State Fault Refusal :=
  match inFlightRefusal s with
  | some r => .refused r
  | none =>
    match inFlightUpdate s with
    | none => .next (afterReset s s.mem s.fresh)
    | some p =>
      .next (afterReset s (abandonWords s.fresh p.buf (2 * p.frames) 0 s.mem) (s.fresh + 2 * p.frames))

/-- One moment of the host: its next action, if it has one. `WAIT` reads `STATUS` and is done when `BUSY` reads 0. -/
def hostStep (s : State) : Host.Outcome State Fault Refusal :=
  match s.host with
  | [] => .next s
  | .read a n :: rest => hostRead { s with host := rest } a n
  | .write a n d :: rest => hostWrite { s with host := rest } a n d
  | .wait :: rest =>
    .next { s with readData := (statusWord s.status).toNat, host := if s.status.busy then s.host else rest }
  | .reset :: rest => assertReset { s with host := rest }

end Sys2Proof.Machine
end

