-- ==== Sys2Proof/Machine/Step.lean ====
section
/-! DEFINITION. The step. The block fetches no instructions (10_state.md R53): a step is one moment of the command in
progress, in which a host action may fall, or the completion of that command, or, with no command in progress, the
host's next action (60_exceptions.md R357; DESIGN CHOICE, log entries 2, 3, 17). -/

namespace Sys2Proof.Machine

/-- The command in progress decodes, executes and completes (R357 items 2 and 3); an illegal word fails with `ENCODING`
(60_exceptions.md R354). -/
def engine (s : State) : Host.Outcome State Fault Refusal :=
  match decode s.cmd with
  | .ok i => exec i s
  | .error _ => completes s (.error .encoding)

/-- One step. -/
def step (s : State) : Host.Outcome State Fault Refusal :=
  if s.status.busy then
    match s.remaining with
    | 0 => engine s
    | k + 1 => hostStep { s with remaining := k }
  else hostStep s

/-- `s` with the command word of the bits `w` just accepted, its time over: the next step completes it (log entry 3). -/
def State.withFetchWord (s : State) (nbits w : Nat) : State :=
  s.launch (BitVec.ofNat 32 (w % 2 ^ nbits))

end Sys2Proof.Machine
end

