-- ==== Sys2Proof/Machine/Assembler.lean ====
section
/-! DEFINITION. Host programs: operand literals (30_encoding.md R131), the expansion of lines into host actions (R132, R133)
and the assertion `EXPECT` (R133). -/

namespace Sys2Proof.Machine

/-- The 32-bit word of a literal (R131). -/
def literalWord : Literal → Word
  | .int v => BitVec.ofInt 32 v
  | .dec neg digits scale => f32Round neg (digits * f32One) (10 ^ scale)
  | .pattern w => w

/-- A 32-bit write to the window at an offset. -/
def writeRegister (p : Params) (off : Nat) (w : Word) : HostAction :=
  .write (p.ctrlBase + off) 4 w.toNat

/-- The writes of the operands to `ARG0`, `ARG1`, … from `ARGk` on (R132). -/
def writeOperands (p : Params) : Nat → List Literal → List HostAction
  | _, [] => []
  | k, l :: ls => writeRegister p (4 + 4 * k) (literalWord l) :: writeOperands p (k + 1) ls

/-- The actions a line stands for (R132, R133). Address sums do not wrap (00_scope.md R10; log entry 29). -/
def expandLine (p : Params) : Line → List HostAction
  | .command i ops => writeOperands p 0 ops ++ [writeRegister p 0 (encode i), .wait]
  | .wait => [.wait]
  | .clrstat => [writeRegister p 0x20 0x0000000C#32]
  | .raw w => [writeRegister p 0 w, .wait]
  | .hostW8 a v => [.write a 1 (BitVec.ofInt 8 v).toNat]
  | .hostW16 a v => [.write a 2 (BitVec.ofInt 16 v).toNat]
  | .hostW32 a v => [.write a 4 v.toNat]
  | .hostZero a n => (List.range n).map (fun k => .write (a + k) 1 0)
  | .expect _ _ _ => []

/-- The actions of a program. -/
def expandProgram (p : Params) (ls : List Line) : List HostAction := ls.flatMap (expandLine p)

/-- What `EXPECT` asserts (R133); every other line asserts nothing. -/
def lineHolds (s : State) : Line → Bool
  | .expect r e c => decide (s.result = r) && s.status.err == e && decide (causeCode s.status.cause = c)
  | _ => true

end Sys2Proof.Machine
end

