-- ==== Sys2Proof/Safety.lean ====
section
/-! DEFINITION. The terms claims are stated in: the invariants of 10_state.md, the launch states and the end of a run
(70_reset_and_hazards.md R398, R400), and what counts as a safe step. -/

namespace Sys2Proof.Machine

/-- A playback position: never NaN and never `-inf` (44_mixer.md R313). -/
def positionOk (x : F32) : Bool := !f32IsNaN x && !decide (x = f32Inf true)

/-- A segment bound: the conversion of an I32 frame number (10_state.md R46; `+0.0` is that of 0). -/
def IsFrameBound (x : F32) : Prop := ∃ k : I32, x = f32FromInt k.toInt

/-- What holds of every voice of a session (10_state.md R40 to R46). -/
structure Voice.Inv (S : Session) (v : Voice) : Prop where
  /-- R40. -/
  bound_slot_exists : ∀ k, v.sound = some k → k < S.slots.length
  /-- R42. -/
  volume_in_range : clamp v.vol f32Zero f32PosOne = v.vol
  /-- R43. -/
  pan_in_range : clamp v.pan f32NegOne f32PosOne = v.pan
  /-- R43. -/
  gains_of_pan : (v.gl, v.gr) = gainFn v.pan
  /-- 43_voice.md R265. -/
  frequency_ok : frequencyOk v.freq = true
  /-- R41. -/
  pitch_of_frequency : v.pitch = f32Div v.freq (sampleRateF S.sr)
  /-- R44. -/
  position_ok : positionOk v.pos = true
  /-- R46: `PLAY` writes the bounds from its integer arguments, and `STOP` and a fresh voice have them 0. -/
  start_of_frame : IsFrameBound v.rstart
  /-- R46. -/
  end_of_frame : IsFrameBound v.rend

/-- What holds of the block's internal state (10_state.md R31 to R38, R64, R66). -/
structure Session.Inv (p : Params) (S : Session) : Prop where
  /-- R64, R66. -/
  empty_outside : S.init = false → S = Session.empty
  /-- R32. -/
  rate_positive : S.init = true → 1 ≤ S.sr.toInt
  /-- R33. -/
  volume_in_range : clamp S.gvol f32Zero f32PosOne = S.gvol
  /-- R34. -/
  active_bounded : S.active ≤ p.maxVoices
  /-- R35. -/
  slots_bounded : S.slots.length ≤ p.maxSounds
  /-- R35. -/
  frames_bounded : totalFrames S.slots ≤ p.sampleMemFrames
  /-- R38. -/
  voice_exists : S.init = true → 1 ≤ S.voices.length
  /-- R38. -/
  voices_bounded : S.voices.length ≤ p.maxVoices
  voices_ok : ∀ v ∈ S.voices, Voice.Inv S v

/-- What holds of the whole state. -/
structure State.Inv (s : State) : Prop where
  /-- 00_scope.md R5. -/
  params_wf : s.params.wf
  session_ok : Session.Inv s.params s.session
  /-- Host memory is in its canonical form. -/
  mem_wf : Memory.wf s.mem = true
  /-- 20_memory.md R80: nothing is stored past host memory. -/
  mem_inside : ∀ c ∈ s.mem, c.1 < s.params.hostMemBytes
  /-- R62: `STATUS.INIT` mirrors `S.INIT`. -/
  init_mirrored : s.status.init = s.session.init
  /-- R62: `ERR` is 1 exactly when the last completed command failed. -/
  err_iff_cause : s.status.err = decide (s.status.cause ≠ .none)
  /-- R59: a failure returns 0. -/
  failure_returns_zero : s.status.err = true → s.result = 0#32
  /-- R57, R58: the latched arguments are the argument registers while a command runs. -/
  latched_while_busy : s.status.busy = true → s.latched = s.args
  /-- No time is left over when no command is in progress. -/
  idle_without_time : s.status.busy = false → s.remaining = 0

/-- `ResetLaunch` (70_reset_and_hazards.md R400): the block's reset state under any parameters, with host memory and inputs
given from outside. -/
def ResetLaunch (s : State) : Prop :=
  s.params.wf ∧ Memory.wf s.mem = true ∧ (∀ c ∈ s.mem, c.1 < s.params.hostMemBytes) ∧
    s = { State.resetWith s.params with
      mem := s.mem, host := s.host, delays := s.delays, readData := s.readData, fresh := s.fresh }

/-- `SessionLaunch` (70_reset_and_hazards.md R400). -/
def SessionLaunch (s : State) : Prop :=
  s.Inv ∧ s.session.init = true ∧ s.status.busy = false ∧ s.status.errstk = false ∧ s.status.ovr = false ∧
    s.status.init = true

/-- The end of a run (70_reset_and_hazards.md R398). -/
def RunEnded (s : State) : Prop := s.host = [] ∧ s.status.busy = false

/-- A step that ends neither in a fault nor in a refusal. -/
def SafeStep (s : State) : Prop := ∃ t, step s = .next t

end Sys2Proof.Machine
end

