-- ==== Sys2Proof/Certificates/Slice0/Obligations.lean ====
section
/-! DEFINITION. The statements for the provers, from the numbered rules of spec/. A command that succeeds leaves
`s.succeed ⟨session, memory, result⟩` and one that fails `s.fail cause`; what these two are is itself a statement
(`CompletionFollowsR352`). -/

namespace Sys2Proof.Claims

open Sys2Proof.Machine

/-- The command succeeds, leaving the session `S`, host memory as it was, and the result `r`. -/
def succeedsWith (i : Instr) (s : State) (S : Session) (r : Word) : Prop :=
  exec i s = .next (s.succeed ⟨S, s.mem, r⟩)

/-- The command fails with the cause `c`. -/
def failsWith (i : Instr) (s : State) (c : Cause) : Prop := exec i s = .next (s.fail c)

/-- `ARGn` as the command reads it, kind I32. -/
def a0 (s : State) : Int := s.latched.arg0.toInt
def a1 (s : State) : Int := s.latched.arg1.toInt
def a2 (s : State) : Int := s.latched.arg2.toInt
def a3 (s : State) : Int := s.latched.arg3.toInt
def a4 (s : State) : Int := s.latched.arg4.toInt
def a5 (s : State) : Int := s.latched.arg5.toInt

/-- An index outside a table of `n` entries. -/
def outside (i : Int) (n : Nat) : Prop := i < 0 ∨ (n : Int) ≤ i

/-- `DefaultVoice` of 10_state.md R49, field by field. -/
def r49Voice (sr : I32) : Voice where
  sound := none
  freq := f32FromInt sr.toInt
  pitch := 0x3F800000#32
  vol := 0x3F800000#32
  pan := 0x00000000#32
  gl := (gainFn 0x00000000#32).1
  gr := (gainFn 0x00000000#32).2
  pos := 0x00000000#32
  ipos := 0#32
  rstart := 0x00000000#32
  rend := 0x00000000#32
  mode := .single
  cur := 0x00000000#32
  prev := 0x00000000#32

/-- Voice `a0 s` of a session, where it exists. -/
def hasVoice (s : State) (v : Voice) : Prop :=
  s.session.init = true ∧ 0 ≤ a0 s ∧ s.session.voices[(a0 s).toNat]? = some v

/-- The session with voice `a0 s` replaced. -/
def withVoiceSet (s : State) (v : Voice) : Session :=
  { s.session with voices := s.session.voices.set (a0 s).toNat v }

/-- Frame `a1 s` of slot `a0 s`, where both exist. -/
def hasFrame (s : State) (snd : Sound) (x : F32) : Prop :=
  s.session.init = true ∧ 0 ≤ a0 s ∧ 0 ≤ a1 s ∧ s.session.slots[(a0 s).toNat]? = some snd ∧
    snd[(a1 s).toNat]? = some x

/-- The session with frame `a1 s` of slot `a0 s` replaced. -/
def withFrameSet (s : State) (snd : Sound) (x : F32) : Session :=
  { s.session with slots := s.session.slots.set (a0 s).toNat (snd.set (a1 s).toNat x) }

/-- One frame of the pseudocode of 44_mixer.md R300, on the voice, the memory and whether `break` was reached. -/
def pseudoFrame (snd : Sound) (buf : Nat) (st : Voice × Memory × Bool) (i : Nat) : Voice × Memory × Bool :=
  let v := st.1
  let m := st.2.1
  if st.2.2 then st
  else if f32Gt v.pos v.rend = true ∧ v.mode = .single then ({ v with sound := none }, m, true)
  else
    let pos := if f32Gt v.pos v.rend then f32Add v.rstart (f32Sub v.pos v.rend) else v.pos
    let ip := f32FloorSat pos
    let prev := if ip ≠ v.ipos then v.cur else v.prev
    let cur :=
      if ip ≠ v.ipos ∧ 0 ≤ ip.toInt ∧ ip.toInt < snd.length then snd.getD ip.toInt.toNat v.cur else v.cur
    let fr := f32Sub pos (f32FromInt ip.toInt)
    let smp := f32Add prev (f32Mul (f32Sub cur prev) fr)
    let x := f32Mul smp v.vol
    let m1 := Memory.write m (buf + 8 * i) .w32 (f32Add (Memory.read m (buf + 8 * i) .w32) (f32Mul x v.gl))
    let m2 := Memory.write m1 (buf + 8 * i + 4) .w32
      (f32Add (Memory.read m1 (buf + 8 * i + 4) .w32) (f32Mul x v.gr))
    ({ v with pos := f32Add pos v.pitch, ipos := ip, prev := prev, cur := cur }, m2, false)

/-- The turn of voice `k` in the pseudocode of R300, on the voice table, the memory and the count. -/
def pseudoVoice (slots : List Sound) (buf n : Nat) (st : List Voice × Memory × Nat) (k : Nat) :
    List Voice × Memory × Nat :=
  match st.1[k]? with
  | none => st
  | some v =>
    match v.sound with
    | none => st
    | some s =>
      let snd := slots.getD s []
      if snd.length = 0 then st
      else
        let r := (List.range n).foldl (pseudoFrame snd buf) (v, st.2.1, false)
        (st.1.set k r.1, r.2.1, st.2.2 + 1)

/-- The pseudocode of R300 after its checks: the session and the memory it leaves. -/
def pseudoUpdate (S : Session) (m : Memory) (buf n : Nat) : Session × Memory :=
  let r := (List.range S.voices.length).foldl (pseudoVoice S.slots buf n) (S.voices, m, 0)
  ({ S with voices := r.1, active := r.2.2 },
    (List.range (2 * n)).foldl
      (fun m k => Memory.write m (buf + 4 * k) .w32 (f32Mul (Memory.read m (buf + 4 * k) .w32) S.gvol)) r.2.1)

/-- The real number an F32 stands for. -/
noncomputable def realOf (x : F32) : ℝ := (f32Val x : ℝ) / 2 ^ 149

/-- The six registers as a list. -/
def argList (a : Args) : List Word := [a.arg0, a.arg1, a.arg2, a.arg3, a.arg4, a.arg5]

/-- The causes a command can raise: the table of 60_exceptions.md R355. -/
def causesOf : Instr → List Cause
  | .init => [.state, .param]
  | .fini | .getsr | .getnsnd | .getnvoc | .getact | .getgvol | .setgvol => [.state]
  | .isinit => []
  | .setnvoc => [.state, .param, .capacity]
  | .load => [.state, .range, .capacity, .param]
  | .peekf | .peeki16 | .peeki8 | .pokef | .pokei16 | .pokei8 => [.state, .range]
  | .getvvol | .setvvol | .getvbal | .setvbal | .getvfrq | .stop => [.state, .range]
  | .setvfrq => [.state, .range, .param]
  | .play => [.state, .range]
  | .update => [.state, .param, .range]

def isSoundCommand : Instr → Bool
  | .load | .peekf | .peeki16 | .peeki8 | .pokef | .pokei16 | .pokei8 => true
  | _ => false

def isVoiceCommand : Instr → Bool
  | .getvvol | .setvvol | .getvbal | .setvbal | .getvfrq | .setvfrq | .stop | .play => true
  | _ => false

/-- A host access of `n` bytes at `a` that reaches ordinary host memory and not the register window. -/
def reachesMemory (s : State) (a n : Nat) : Prop :=
  inWindow s.params a = false ∧ rangesMeet a n s.params.ctrlBase 64 = false ∧
    (∀ d ∈ s.params.devices, rangesMeet a n d.1 d.2 = false) ∧ a + n ≤ s.params.hostMemBytes

/-- The region of `n` bytes at `a` is one a command may not be given, and `r` says why: it meets the register window or, if
not, a range that the platform maps to a device (20_memory.md R82, R93). -/
def forbidden (p : Params) (a n : Nat) (r : Refusal) : Prop :=
  0 < n ∧
    ((a < p.ctrlBase + 64 ∧ p.ctrlBase < a + n ∧ r = .windowRegion) ∨
      (¬ (a < p.ctrlBase + 64 ∧ p.ctrlBase < a + n) ∧ r = .deviceRegion ∧
        ∃ d ∈ p.devices, 0 < d.2 ∧ a < d.1 + d.2 ∧ d.1 < a + n))

/-- The region in flight, if there is one, is a region a command may be given. -/
def regionAllowed (s : State) : Prop := ∀ g r, inFlight s = some g → ¬ forbidden s.params g.base g.len r

end Sys2Proof.Claims

section
open Sys2Proof Sys2Proof.Machine Sys2Proof.Claims

/-! ## Encoding and the step -/

/-- 30_encoding.md R121, R127: each command has exactly one word. -/
def Obligations.DecodeInvertsEncode : Prop :=
  ∀ (w : Word) (i : Instr), decode w = .ok i ↔ w = encode i

/-- 30_encoding.md R128, 60_exceptions.md R354. -/
def Obligations.IllegalWordsFailWithEncoding : Prop :=
  (∀ w : Word, (∃ e, decode w = .error e) ↔
    (w.toNat / 256 ≠ 0 ∨ w.toNat % 256 = 0x00 ∨ (0x0B ≤ w.toNat % 256 ∧ w.toNat % 256 ≤ 0x0F) ∨
      (0x17 ≤ w.toNat % 256 ∧ w.toNat % 256 ≤ 0x1F) ∨ (0x28 ≤ w.toNat % 256 ∧ w.toNat % 256 ≤ 0x2F) ∨
      0x31 ≤ w.toNat % 256)) ∧
  ∀ (s : State) (e : DecodeError), s.status.busy = true → s.remaining = 0 → decode s.cmd = .error e →
    step s = .next (s.fail .encoding)

/-- 30_encoding.md R127: words written out from the opcode column. -/
def Obligations.WrittenOutWordsDecode : Prop :=
  decode 0x00000001#32 = .ok .init ∧ decode 0x0000000A#32 = .ok .setgvol ∧ decode 0x00000010#32 = .ok .load ∧
  decode 0x00000016#32 = .ok .pokei8 ∧ decode 0x00000023#32 = .ok .setvbal ∧
  decode 0x00000027#32 = .ok .play ∧ decode 0x00000030#32 = .ok .update ∧
  decode 0x00000101#32 = .error .reservedBits ∧ decode 0x0000000B#32 = .error .unassignedOpcode

/-- 60_exceptions.md R357: the command whose time is over runs on its latched word; before that, and with no command in
progress, the host acts. -/
def Obligations.StepRunsTheDecodedCommand : Prop :=
  (∀ (s : State) (i : Instr), s.status.busy = true → s.remaining = 0 → decode s.cmd = .ok i → step s = exec i s) ∧
  (∀ (s : State) (k : Nat), s.status.busy = true → s.remaining = k + 1 →
    step s = hostStep { s with remaining := k }) ∧
  (∀ s : State, s.status.busy = false → step s = hostStep s) ∧
  (∀ (s : State) (i : Instr), step (s.withFetchWord 32 (encode i).toNat) = exec i (s.launch (encode i)))

/-! ## Session commands -/

/-- 40_session.md R160, 10_state.md R49, R65. -/
def Obligations.InitStartsASession : Prop :=
  ∀ s : State,
    (s.session.init = true → failsWith .init s .state) ∧
    (s.session.init = false → a0 s < 1 → failsWith .init s .param) ∧
    (s.session.init = false → 1 ≤ a0 s →
      succeedsWith .init s
        { init := true, sr := s.latched.arg0, gvol := 0x3F800000#32, active := 0, slots := [],
          voices := [r49Voice s.latched.arg0] } 1#32)

/-- 40_session.md R161, 10_state.md R66. -/
def Obligations.FiniDestroysTheSession : Prop :=
  ∀ s : State,
    (s.session.init = false → failsWith .fini s .state) ∧
    (s.session.init = true →
      succeedsWith .fini s
        { init := false, sr := 0#32, gvol := 0x00000000#32, active := 0, slots := [], voices := [] } 0#32)

/-- 40_session.md R162, R163, R168. -/
def Obligations.SessionQueriesAnswer : Prop :=
  ∀ s : State,
    succeedsWith .isinit s s.session (if s.session.init then 1#32 else 0#32) ∧
    (s.session.init = true →
      succeedsWith .getsr s s.session s.session.sr ∧ succeedsWith .getgvol s s.session s.session.gvol) ∧
    (s.session.init = false → ∀ i ∈ [Instr.getsr, .getgvol], failsWith i s .state)

/-- 40_session.md R164, R165, R167. That a count is answered modulo 2^32 is the model's choice (log entry 20); every count
that a session can reach is at most 2^31. -/
def Obligations.SessionCountsAnswer : Prop :=
  ∀ s : State,
    (s.session.init = true →
      succeedsWith .getnsnd s s.session (BitVec.ofNat 32 s.session.slots.length) ∧
      succeedsWith .getnvoc s s.session (BitVec.ofNat 32 s.session.voices.length) ∧
      succeedsWith .getact s s.session (BitVec.ofNat 32 s.session.active)) ∧
    (s.session.init = false → ∀ i ∈ [Instr.getnsnd, .getnvoc, .getact], failsWith i s .state)

/-- 40_session.md R166. -/
def Obligations.SetVoiceCountReplacesThePool : Prop :=
  ∀ s : State,
    (s.session.init = false → failsWith .setnvoc s .state) ∧
    (s.session.init = true → a0 s < 1 → failsWith .setnvoc s .param) ∧
    (s.session.init = true → 1 ≤ a0 s → (s.params.maxVoices : Int) < a0 s → failsWith .setnvoc s .capacity) ∧
    (s.session.init = true → 1 ≤ a0 s → a0 s ≤ s.params.maxVoices →
      succeedsWith .setnvoc s
        { s.session with voices := List.replicate (a0 s).toNat (r49Voice s.session.sr) } 0#32)

/-- 40_session.md R169. -/
def Obligations.SetGlobalVolumeClamps : Prop :=
  ∀ s : State,
    (s.session.init = false → failsWith .setgvol s .state) ∧
    (s.session.init = true →
      succeedsWith .setgvol s { s.session with gvol := clamp s.latched.arg0 0x00000000#32 0x3F800000#32 } 0#32)

/-! ## SoundBank commands -/

/-- 41_soundbank.md R202: the checks in their order, and the effect, for a source that is ordinary memory away from the register
window (20_memory.md R82, R93; `ForbiddenRegionsAreRefused` states the rest). -/
def Obligations.LoadReplacesASlot : Prop :=
  ∀ (s : State),
    (s.session.init = false → failsWith .load s .state) ∧
    (s.session.init = true →
      (a0 s < 0 → failsWith .load s .range) ∧
      (0 ≤ a0 s → (s.params.maxSounds : Int) ≤ a0 s → failsWith .load s .capacity) ∧
      (0 ≤ a0 s → a0 s < s.params.maxSounds →
        (a3 s ≠ 1 → a3 s ≠ 2 → a3 s ≠ 4 → failsWith .load s .param) ∧
        ∀ w : Width, a3 s = w.bytes →
          (a4 s < 1 → failsWith .load s .param) ∧
          (1 ≤ a4 s → a2 s < 0 → failsWith .load s .param) ∧
          (1 ≤ a4 s → 0 ≤ a2 s → s.latched.arg1.toNat = 0 → failsWith .load s .param) ∧
          (1 ≤ a4 s → 0 ≤ a2 s → s.latched.arg1.toNat ≠ 0 →
            (s.params.hostMemBytes < s.latched.arg1.toNat + (a2 s).toNat → failsWith .load s .range) ∧
            (s.latched.arg1.toNat + (a2 s).toNat ≤ s.params.hostMemBytes →
              ∀ (frames old : Nat), frames = (a2 s).toNat / (w.bytes * (a4 s).toNat) →
                old = (if (a0 s).toNat < s.session.slots.length
                  then (s.session.slots.getD (a0 s).toNat []).length else 0) →
                (s.params.sampleMemFrames < totalFrames s.session.slots - old + frames →
                  failsWith .load s .capacity) ∧
                (totalFrames s.session.slots - old + frames ≤ s.params.sampleMemFrames →
                  regionRefusal s.params s.latched.arg1.toNat (a2 s).toNat = none →
                    ∀ new, new = decodeFrames s.mem s.latched.arg1.toNat (a2 s).toNat w (a4 s).toNat →
                    succeedsWith .load s
                      { s.session with
                        slots := if (a0 s).toNat < s.session.slots.length
                          then s.session.slots.set (a0 s).toNat new
                          else s.session.slots ++
                            List.replicate ((a0 s).toNat - s.session.slots.length) [] ++ [new] } 0#32)))))

/-- 41_soundbank.md R200 (the exactness in units of 2^-149: `v * 2^-7` is `v * 2^142` of them, `v * 2^-15` is `v * 2^134`)
and R201. -/
def Obligations.DecodedFramesSumTheirChannels : Prop :=
  (∀ (m : Memory) (a : Nat),
    decodeSample m a .w8 = f32Mul (f32FromInt (Memory.read8 m a).toInt) 0x3C000000#32 ∧
    f32Val (decodeSample m a .w8) = (Memory.read8 m a).toInt * 2 ^ 142 ∧
    decodeSample m a .w16 =
      f32Mul (f32FromInt (Memory.read8 m (a + 1) ++ Memory.read8 m a).toInt) 0x38000000#32 ∧
    f32Val (decodeSample m a .w16) = (Memory.read8 m (a + 1) ++ Memory.read8 m a).toInt * 2 ^ 134 ∧
    decodeSample m a .w32 =
      Memory.read8 m (a + 3) ++ Memory.read8 m (a + 2) ++ Memory.read8 m (a + 1) ++ Memory.read8 m a) ∧
  ∀ (m : Memory) (src n : Nat) (w : Width) (ch : Nat), 1 ≤ ch →
    (decodeFrames m src n w ch).length = n / (w.bytes * ch) ∧
    ∀ f, f < n / (w.bytes * ch) →
      (decodeFrames m src n w ch)[f]? =
        some ((List.range' 1 (ch - 1)).foldl
          (fun acc c => f32Add acc (decodeSample m (src + (f * ch + c) * w.bytes) w))
          (decodeSample m (src + (f * ch + 0) * w.bytes) w))

/-- 41_soundbank.md R204, R205, R206. -/
def Obligations.PeeksAnswerTheFrame : Prop :=
  (∀ (s : State) (snd : Sound) (x : F32), hasFrame s snd x →
    succeedsWith .peekf s s.session x ∧
    succeedsWith .peeki16 s s.session
      ((BitVec.ofInt 16 (f32ToIntRneSat (f32Mul x 0x47000000#32) (-32768) 32767)).signExtend 32) ∧
    succeedsWith .peeki8 s s.session
      ((BitVec.ofInt 8 (f32ToIntRneSat (f32Mul x 0x43000000#32) (-128) 127)).signExtend 32)) ∧
  (∀ s : State, ∀ i ∈ [Instr.peekf, .peeki16, .peeki8],
    (s.session.init = false → failsWith i s .state) ∧
    (s.session.init = true → outside (a0 s) s.session.slots.length → failsWith i s .range) ∧
    (∀ snd, s.session.init = true → 0 ≤ a0 s → s.session.slots[(a0 s).toNat]? = some snd →
      outside (a1 s) snd.length → failsWith i s .range))

/-- 41_soundbank.md R207, R208, R209. -/
def Obligations.PokesWriteOneFrame : Prop :=
  (∀ (s : State) (snd : Sound) (x : F32), hasFrame s snd x →
    succeedsWith .pokef s (withFrameSet s snd s.latched.arg2) 0#32 ∧
    succeedsWith .pokei16 s
      (withFrameSet s snd (f32Mul (f32FromInt (s.latched.arg2.extractLsb' 0 16).toInt) 0x38000000#32)) 0#32 ∧
    succeedsWith .pokei8 s
      (withFrameSet s snd (f32Mul (f32FromInt (s.latched.arg2.extractLsb' 0 8).toInt) 0x3C000000#32)) 0#32) ∧
  (∀ s : State, ∀ i ∈ [Instr.pokef, .pokei16, .pokei8],
    (s.session.init = false → failsWith i s .state) ∧
    (s.session.init = true → outside (a0 s) s.session.slots.length → failsWith i s .range) ∧
    (∀ snd, s.session.init = true → 0 ≤ a0 s → s.session.slots[(a0 s).toNat]? = some snd →
      outside (a1 s) snd.length → failsWith i s .range))

/-- 41_soundbank.md R200, R205, R206, R208, R209: "Both scalings are exact" (in units of 2^-149 an 8-bit sample `v` is `v * 2^142` and a
16-bit one `v * 2^134`), and what an integer poke stores, the matching peek gives back. -/
def Obligations.IntegerSamplesRoundTrip : Prop :=
  (∀ v : BitVec 16, ∀ x, x = f32Mul (f32FromInt v.toInt) f32TwoPowNeg15 →
    f32Val x = v.toInt * 2 ^ 134 ∧ f32ToIntRneSat (f32Mul x f32TwoPow15) (-32768) 32767 = v.toInt) ∧
  (∀ v : BitVec 8, ∀ x, x = f32Mul (f32FromInt v.toInt) f32TwoPowNeg7 →
    f32Val x = v.toInt * 2 ^ 142 ∧ f32ToIntRneSat (f32Mul x f32OneTwentyEight) (-128) 127 = v.toInt)

/-- 41_soundbank.md R210: no SoundBank command changes a voice, nor the rest of the session, nor host memory. -/
def Obligations.SoundCommandsLeaveVoicesAlone : Prop :=
  ∀ (i : Instr) (s t : State), isSoundCommand i = true → exec i s = .next t →
    t.session = { s.session with slots := t.session.slots } ∧ t.mem = s.mem ∧
    ∀ k : Nat, (k : Int) ≠ a0 s → k < s.session.slots.length → t.session.slots[k]? = s.session.slots[k]?

/-! ## Voice commands -/

/-- 43_voice.md R260, R262, R264. -/
def Obligations.VoiceQueriesAnswer : Prop :=
  (∀ (s : State) (v : Voice), hasVoice s v →
    succeedsWith .getvvol s s.session v.vol ∧ succeedsWith .getvbal s s.session v.pan ∧
    succeedsWith .getvfrq s s.session v.freq) ∧
  (∀ s : State, ∀ i ∈ [Instr.getvvol, .getvbal, .getvfrq],
    (s.session.init = false → failsWith i s .state) ∧
    (s.session.init = true → outside (a0 s) s.session.voices.length → failsWith i s .range))

/-- 43_voice.md R261. -/
def Obligations.SetVoiceVolumeClamps : Prop :=
  (∀ (s : State) (v : Voice), hasVoice s v →
    succeedsWith .setvvol s
      (withVoiceSet s { v with vol := clamp s.latched.arg1 0x00000000#32 0x3F800000#32 }) 0#32) ∧
  (∀ s : State,
    (s.session.init = false → failsWith .setvvol s .state) ∧
    (s.session.init = true → outside (a0 s) s.session.voices.length → failsWith .setvvol s .range))

/-- 43_voice.md R263. -/
def Obligations.SetVoiceBalanceStoresGains : Prop :=
  (∀ (s : State) (v : Voice) (p : F32), hasVoice s v → p = clamp s.latched.arg1 0xBF800000#32 0x3F800000#32 →
    succeedsWith .setvbal s
      (withVoiceSet s { v with pan := p, gl := (gainFn p).1, gr := (gainFn p).2 }) 0#32) ∧
  (∀ s : State,
    (s.session.init = false → failsWith .setvbal s .state) ∧
    (s.session.init = true → outside (a0 s) s.session.voices.length → failsWith .setvbal s .range))

/-- 43_voice.md R265. -/
def Obligations.SetVoiceFrequencyStoresPitch : Prop :=
  (∀ (s : State) (v : Voice), hasVoice s v →
    (f32IsNaN s.latched.arg1 = false → f32Gt s.latched.arg1 0x00000000#32 = true →
      s.latched.arg1 ≠ 0x7F800000#32 →
      succeedsWith .setvfrq s
        (withVoiceSet s
          { v with
            freq := s.latched.arg1, pitch := f32Div s.latched.arg1 (f32FromInt s.session.sr.toInt) }) 0#32) ∧
    (f32IsNaN s.latched.arg1 = true ∨ f32Gt s.latched.arg1 0x00000000#32 = false ∨
      s.latched.arg1 = 0x7F800000#32 → failsWith .setvfrq s .param)) ∧
  (∀ s : State,
    (s.session.init = false → failsWith .setvfrq s .state) ∧
    (s.session.init = true → outside (a0 s) s.session.voices.length → failsWith .setvfrq s .range))

/-- 43_voice.md R266. -/
def Obligations.StopResetsTheVoice : Prop :=
  (∀ (s : State) (v : Voice), hasVoice s v →
    succeedsWith .stop s
      (withVoiceSet s
        { sound := none, freq := v.freq, pitch := v.pitch, vol := 0x3F800000#32, pan := v.pan, gl := v.gl,
          gr := v.gr, pos := 0x00000000#32, ipos := 0#32, rstart := 0x00000000#32, rend := 0x00000000#32,
          mode := .single, cur := v.cur, prev := v.prev }) 0#32) ∧
  (∀ s : State,
    (s.session.init = false → failsWith .stop s .state) ∧
    (s.session.init = true → outside (a0 s) s.session.voices.length → failsWith .stop s .range))

/-- 43_voice.md R267. -/
def Obligations.PlayBindsTheVoice : Prop :=
  (∀ (s : State) (v : Voice) (snd : Sound) (x : F32), hasVoice s v → 0 ≤ a1 s →
    s.session.slots[(a1 s).toNat]? = some snd →
    x = (if 0 ≤ a2 s ∧ a2 s < snd.length then snd.getD (a2 s).toNat 0x00000000#32 else 0x00000000#32) →
    succeedsWith .play s
      (withVoiceSet s
        { sound := some (a1 s).toNat, freq := v.freq, pitch := v.pitch, vol := v.vol, pan := v.pan, gl := v.gl,
          gr := v.gr, pos := f32FromInt (a2 s), ipos := s.latched.arg2, rstart := f32FromInt (a4 s),
          rend := f32FromInt (a5 s), mode := if a3 s = 1 then .loop else .single, cur := x, prev := x }) 0#32) ∧
  (∀ s : State,
    (s.session.init = false → failsWith .play s .state) ∧
    (s.session.init = true → outside (a0 s) s.session.voices.length → failsWith .play s .range) ∧
    (∀ v, hasVoice s v → outside (a1 s) s.session.slots.length → failsWith .play s .range))

/-- 43_voice.md R268. -/
def Obligations.VoiceCommandsLeaveTheRestAlone : Prop :=
  ∀ (i : Instr) (s t : State), isVoiceCommand i = true → exec i s = .next t →
    t.session = { s.session with voices := t.session.voices } ∧ t.mem = s.mem ∧
    t.session.voices.length = s.session.voices.length ∧
    ∀ k : Nat, (k : Int) ≠ a0 s → t.session.voices[k]? = s.session.voices[k]?

/-! ## Gain -/

/-- 42_gain.md R242: the table, row by row. -/
def Obligations.GainTableIsTheReference : Prop :=
  gainFn 0xC1100000#32 = (0x3F800000#32, 0x00000000#32) ∧
  (∀ p : F32, f32IsNaN p = true → gainFn p = (0x3F800000#32, 0x00000000#32)) ∧
  gainFn 0xBF800000#32 = (0x3F800000#32, 0x00000000#32) ∧
  gainFn 0xBF000000#32 = (0x3F6C835E#32, 0x3EC3EF15#32) ∧
  gainFn 0xBE800000#32 = (0x3F54DB31#32, 0x3F0E39DA#32) ∧
  gainFn 0x00000000#32 = (0x3F3504F3#32, 0x3F3504F3#32) ∧
  gainFn 0x80000000#32 = (0x3F3504F3#32, 0x3F3504F3#32) ∧
  gainFn 0x3E800000#32 = (0x3F0E39DA#32, 0x3F54DB31#32) ∧
  gainFn 0x3F000000#32 = (0x3EC3EF15#32, 0x3F6C835E#32) ∧
  gainFn 0x3F400000#32 = (0x3E47C5C2#32, 0x3F7B14BE#32) ∧
  gainFn 0x3F800000#32 = (0x00000000#32, 0x3F800000#32) ∧
  gainFn 0x40A00000#32 = (0x00000000#32, 0x3F800000#32)

/-- 42_gain.md R243 laws 1 to 4. -/
def Obligations.GainIsAFunctionOfTheClampedPan : Prop :=
  (∀ p : F32, gainFn p = gainFn (clamp p 0xBF800000#32 0x3F800000#32)) ∧
  gainFn 0x80000000#32 = gainFn 0x00000000#32 ∧
  gainFn 0xBF800000#32 = (0x3F800000#32, 0x00000000#32) ∧
  gainFn 0x3F800000#32 = (0x00000000#32, 0x3F800000#32) ∧
  (∀ p : F32, ∀ g ∈ [(gainFn p).1, (gainFn p).2],
    f32IsNaN g = false ∧ f32Sign g = false ∧ f32Val g ≤ f32One) ∧
  (∀ p : F32, f32IsNaN p = false → gainFn (f32Neg p) = ((gainFn p).2, (gainFn p).1))

/-- 42_gain.md R243 laws 5 and 6, over the reals, with the angle of R241. -/
def Obligations.GainIsAccurateAndPowerPreserving : Prop :=
  ∀ p : F32, ∀ θ : ℝ, θ = (realOf (clamp p 0xBF800000#32 0x3F800000#32) + 1) * Real.pi / 4 →
    |realOf (gainFn p).1 - Real.cos θ| ≤ 1 / 2 ^ 23 ∧
    |realOf (gainFn p).2 - Real.sin θ| ≤ 1 / 2 ^ 23 ∧
    |realOf (gainFn p).1 ^ 2 + realOf (gainFn p).2 ^ 2 - 1| ≤ 1 / 2 ^ 22

/-! ## UPDATE -/

/-- 44_mixer.md R300, R301: the checks in their order, and the pseudocode written loop by loop (`pseudoUpdate`), for a buffer
that is ordinary memory away from the register window (20_memory.md R82, R93; `ForbiddenRegionsAreRefused` states the rest).
That a voice bound to a slot that does not exist is skipped like one bound to an empty slot is the model's choice (log
entry 18); the invariant of `EveryStepKeepsTheInvariants` rules such voices out. -/
def Obligations.UpdateRunsThePseudocode : Prop :=
  ∀ s : State,
    (s.session.init = false → failsWith .update s .state) ∧
    (s.session.init = true →
      (s.latched.arg0.toNat = 0 → failsWith .update s .param) ∧
      (s.latched.arg0.toNat ≠ 0 → a1 s < 1 → failsWith .update s .param) ∧
      (s.latched.arg0.toNat ≠ 0 → 1 ≤ a1 s →
        (s.latched.arg0.toNat % 4 ≠ 0 → failsWith .update s .param) ∧
        (s.latched.arg0.toNat % 4 = 0 →
          (s.params.hostMemBytes < s.latched.arg0.toNat + 8 * (a1 s).toNat → failsWith .update s .range) ∧
          (s.latched.arg0.toNat + 8 * (a1 s).toNat ≤ s.params.hostMemBytes →
            regionRefusal s.params s.latched.arg0.toNat (8 * (a1 s).toNat) = none →
            exec .update s = .next (s.succeed
              ⟨(pseudoUpdate s.session s.mem s.latched.arg0.toNat (a1 s).toNat).1,
                (pseudoUpdate s.session s.mem s.latched.arg0.toNat (a1 s).toNat).2, 0#32⟩)))))

/-- 20_memory.md R82, R93, 93_implementation_defined.md items 7 and 8 (treatment "refuse"): a region over the register window, or over
a range that the platform maps to a device, is refused after the checks have passed, and no other command is; a reset that
abandons such a command is refused too. That the refusal falls at completion or at the reset is the model's choice (log
entries 10 and 11). -/
def Obligations.ForbiddenRegionsAreRefused : Prop :=
  (∀ (i : Instr) (s : State) (r : Refusal), exec i s = .refused r ↔
    ∃ a n, ((i = .load ∧ a = s.latched.arg1.toNat ∧ n = (a2 s).toNat) ∨
        (i = .update ∧ a = s.latched.arg0.toNat ∧ n = 8 * (a1 s).toNat)) ∧
      (∀ c, ¬ failsWith i s c) ∧ forbidden s.params a n r) ∧
  ∀ (s : State) (rest : List HostAction) (r : Refusal), s.host = .reset :: rest →
    (hostStep s = .refused r ↔ ∃ g, inFlight s = some g ∧ forbidden s.params g.base g.len r)

/-- 44_mixer.md R303, R304, R305, R309: the end check at the top of a frame and the advance after its output. -/
def Obligations.EndCheckEndsOrWraps : Prop :=
  ∀ (snd : Sound) (buf n i : Nat) (v : Voice) (m : Memory),
    (f32Gt v.pos v.rend = true → v.mode = .single →
      mixVoice snd buf (n + 1) i v m = ({ v with sound := none }, m)) ∧
    (∀ v1 v2,
      (f32Gt v.pos v.rend = true ∧ v.mode = .loop ∧
          v1 = { v with pos := f32Add v.rstart (f32Sub v.pos v.rend) }) ∨
        (f32Gt v.pos v.rend = false ∧ v1 = v) →
      v2 = fetch snd v1 →
      mixVoice snd buf (n + 1) i v m =
        mixVoice snd buf n (i + 1) { v2 with pos := f32Add v2.pos v2.pitch } (accumulate v2 (buf + 8 * i) m))

/-- 44_mixer.md R306, R307, R308: fetch, interpolation and accumulation of one frame. -/
def Obligations.FrameFetchesBlendsAndAdds : Prop :=
  ∀ (snd : Sound) (v : Voice) (a : Nat) (m : Memory), Memory.wf m = true →
    (f32FloorSat v.pos = v.ipos → fetch snd v = v) ∧
    (f32FloorSat v.pos ≠ v.ipos →
      fetch snd v = { v with prev := v.cur, ipos := f32FloorSat v.pos, cur := (fetch snd v).cur } ∧
      (0 ≤ (f32FloorSat v.pos).toInt → (f32FloorSat v.pos).toInt < snd.length →
        snd[(f32FloorSat v.pos).toInt.toNat]? = some (fetch snd v).cur) ∧
      (outside (f32FloorSat v.pos).toInt snd.length → (fetch snd v).cur = v.cur)) ∧
    (∀ x, x = f32Mul (f32Add v.prev (f32Mul (f32Sub v.cur v.prev)
        (f32Sub v.pos (f32FromInt (f32FloorSat v.pos).toInt)))) v.vol →
      Memory.read (accumulate v a m) a .w32 = f32Add (Memory.read m a .w32) (f32Mul x v.gl) ∧
      Memory.read (accumulate v a m) (a + 4) .w32 = f32Add (Memory.read m (a + 4) .w32) (f32Mul x v.gr) ∧
      ∀ b, b < a ∨ a + 8 ≤ b → Memory.read8 (accumulate v a m) b = Memory.read8 m b)

/-- 44_mixer.md R310: the pass over the buffer that the voices leave. -/
def Obligations.GlobalPassScalesEveryWord : Prop :=
  ∀ (s t : State) (m : Memory), Memory.wf s.mem = true → exec .update s = .next t → t.status.err = false →
    m = (mixVoices s.session.slots s.latched.arg0.toNat (a1 s).toNat s.session.voices s.mem).mem →
    (∀ k, k < 2 * (a1 s).toNat →
      Memory.read t.mem (s.latched.arg0.toNat + 4 * k) .w32 =
        f32Mul (Memory.read m (s.latched.arg0.toNat + 4 * k) .w32) s.session.gvol) ∧
    ∀ x, x < s.latched.arg0.toNat ∨ s.latched.arg0.toNat + 8 * (a1 s).toNat ≤ x →
      Memory.read8 t.mem x = Memory.read8 m x

/-- A voice that is not skipped: bound to a slot with frames (a slot that does not exist has none: log entry 18). -/
def Sys2Proof.Claims.mixed (S : Session) (v : Voice) : Bool :=
  match v.sound with
  | none => false
  | some k => decide (0 < (S.slots.getD k []).length)

/-- 44_mixer.md R302: the count is that of the voices as they stand before the mixing; a skipped voice does not change, and leaving
the skipped voices out of the table leaves the buffer as it is. That a voice bound to a slot that does not exist is among the
skipped ones is the model's choice (log entry 18); the invariant of `EveryStepKeepsTheInvariants` rules such voices out. -/
def Obligations.UpdateCountsBoundNonEmptyVoices : Prop :=
  ∀ s t : State, exec .update s = .next t → t.status.err = false →
    t.session.active = s.session.voices.countP (mixed s.session) ∧
    (∀ (k : Nat) (v : Voice), s.session.voices[k]? = some v → mixed s.session v = false →
      t.session.voices[k]? = some v) ∧
    ∀ t', exec .update { s with
        session := { s.session with voices := s.session.voices.filter (mixed s.session) } } = .next t' →
      t'.mem = t.mem ∧ t'.session.active = t.session.active

/-- 44_mixer.md R305, 10_state.md R37, R39, 20_memory.md R91: what UPDATE leaves unchanged. -/
def Obligations.UpdateFrame : Prop :=
  ∀ s t : State, exec .update s = .next t →
    t.session = { s.session with voices := t.session.voices, active := t.session.active } ∧
    t.session.voices.length = s.session.voices.length ∧
    (∀ (k : Nat) (v v' : Voice), s.session.voices[k]? = some v → t.session.voices[k]? = some v' →
      v'.freq = v.freq ∧ v'.pitch = v.pitch ∧ v'.vol = v.vol ∧ v'.pan = v.pan ∧ v'.gl = v.gl ∧ v'.gr = v.gr ∧
      v'.rstart = v.rstart ∧ v'.rend = v.rend ∧ v'.mode = v.mode ∧ (v'.sound = v.sound ∨ v'.sound = none)) ∧
    (Memory.wf s.mem = true →
      ∀ x, x < s.latched.arg0.toNat ∨ s.latched.arg0.toNat + 8 * (a1 s).toNat ≤ x →
        Memory.read8 t.mem x = Memory.read8 s.mem x)

/-- 44_mixer.md R312, R321: no operation mixes lanes, and nothing outside the buffer matters. `d` is 0 for the left lanes
and 4 for the right ones. -/
def Obligations.LanesDoNotMix : Prop :=
  ∀ (s t t' : State) (m' : Memory) (d : Nat), d = 0 ∨ d = 4 →
    Memory.wf s.mem = true → Memory.wf m' = true →
    (∀ i, i < (a1 s).toNat →
      Memory.read s.mem (s.latched.arg0.toNat + 8 * i + d) .w32 =
        Memory.read m' (s.latched.arg0.toNat + 8 * i + d) .w32) →
    exec .update s = .next t → exec .update { s with mem := m' } = .next t' →
    t.session = t'.session ∧ t.result = t'.result ∧ t.status = t'.status ∧
    (t.status.err = false → ∀ i, i < (a1 s).toNat →
      Memory.read t.mem (s.latched.arg0.toNat + 8 * i + d) .w32 =
        Memory.read t'.mem (s.latched.arg0.toNat + 8 * i + d) .w32)

/-- 44_mixer.md R315: at pitch-step 1.0 from an integer start, frame `i` carries the source frame before it, unblurred, up to
the frame that carries the last one of the sound, where nothing more is fetched. -/
def Obligations.UnityPitchPlaysOneFrameLate : Prop :=
  (∀ (snd : Sound) (buf n st : Nat) (v : Voice) (m : Memory),
    Memory.wf m = true → 1 ≤ n → st + n ≤ snd.length + 1 → st + n ≤ 2 ^ 24 →
    v.pitch = 0x3F800000#32 → v.pos = f32FromInt st → v.ipos = BitVec.ofNat 32 st →
    snd[st]? = some v.cur → v.prev = v.cur →
    (∀ i, i < n → f32Gt (f32FromInt ((st + i : Nat) : Int)) v.rend = false) →
    (mixVoice snd buf n 0 v m).1 =
      { v with
        pos := f32FromInt ((st + n : Nat) : Int)
        ipos := BitVec.ofNat 32 (st + n - 1)
        cur := snd.getD (st + n - 1) (snd.getD (st + n - 2) 0#32)
        prev := snd.getD (st + (n - 1 - 1)) 0#32 } ∧
    ∀ i, i < n → ∀ a b x, a = snd.getD (st + (i - 1)) 0#32 → b = snd.getD (st + i) a →
      x = f32Mul (f32Add a (f32Mul (f32Sub b a) 0x00000000#32)) v.vol →
      Memory.read (mixVoice snd buf n 0 v m).2 (buf + 8 * i) .w32 =
        f32Add (Memory.read m (buf + 8 * i) .w32) (f32Mul x v.gl) ∧
      Memory.read (mixVoice snd buf n 0 v m).2 (buf + 8 * i + 4) .w32 =
        f32Add (Memory.read m (buf + 8 * i + 4) .w32) (f32Mul x v.gr)) ∧
  (∀ a b : F32, f32IsFinite a = true → f32IsFinite (f32Sub b a) = true → a ≠ 0x80000000#32 →
    f32Add a (f32Mul (f32Sub b a) 0x00000000#32) = a)

/-- 44_mixer.md R311: at `S.GVOL = 1.0` the global pass changes no word but a NaN. -/
def Obligations.UnitVolumeChangesOnlyNaN : Prop :=
  ∀ w : F32, f32Mul w 0x3F800000#32 = if f32IsNaN w then 0x7FC00000#32 else w

/-! ## Register window and host -/

/-- 10_state.md R56, R60: an access of another width (any number of bytes but 4) or alignment, and an access to a reserved offset, reads as 0 and writes
nothing. -/
def Obligations.OddAccessesDoNothing : Prop :=
  ∀ (s : State) (off n data : Nat) (rest : List HostAction), off < 64 → n ≠ 4 ∨ off % 4 ≠ 0 ∨ 0x24 ≤ off →
    (s.host = .read (s.params.ctrlBase + off) n :: rest →
      hostStep s = .next { s with host := rest, readData := 0 }) ∧
    (s.host = .write (s.params.ctrlBase + off) n data :: rest →
      hostStep s = .next { s with host := rest })

/-- 10_state.md R55, R57 to R60, R62 on reads. -/
def Obligations.WindowReadsFollowTheMap : Prop :=
  ∀ (s : State) (off n : Nat) (rest : List HostAction), off < 64 →
    s.host = .read (s.params.ctrlBase + off) n :: rest →
    hostStep s = .next
      { s with
        host := rest
        readData :=
          if n = 4 ∧ off % 4 = 0 then
            (if off = 0x00 then s.cmd else if off = 0x04 then s.args.arg0 else if off = 0x08 then s.args.arg1
            else if off = 0x0C then s.args.arg2 else if off = 0x10 then s.args.arg3
            else if off = 0x14 then s.args.arg4 else if off = 0x18 then s.args.arg5
            else if off = 0x1C then s.result else if off = 0x20 then statusWord s.status else 0#32).toNat
          else 0 }

/-- 10_state.md R56 to R60, R63 on writes. -/
def Obligations.WindowWritesFollowTheMap : Prop :=
  ∀ (s : State) (off n data : Nat) (w : Word) (rest : List HostAction), off < 64 → w = BitVec.ofNat 32 data →
    s.host = .write (s.params.ctrlBase + off) n data :: rest →
    ∀ u : State, u = { s with host := rest } →
    (n ≠ 4 ∨ off % 4 ≠ 0 → hostStep s = .next u) ∧
    (n = 4 →
      (off = 0x1C ∨ 0x24 ≤ off → hostStep s = .next u) ∧
      (off = 0x20 → hostStep s = .next
        { u with
          status :=
            { s.status with
              errstk := s.status.errstk && !w.getLsbD 2
              ovr := s.status.ovr && !w.getLsbD 3 } }) ∧
      (s.status.busy = true → off ≤ 0x18 → off % 4 = 0 →
        hostStep s = .next { u with status := { s.status with ovr := true } }) ∧
      (s.status.busy = false → off = 0x00 → hostStep s = .next
        { u with
          cmd := w
          latched := s.args
          status := { s.status with busy := true }
          remaining := s.delays.headD 0
          delays := s.delays.tail }) ∧
      (s.status.busy = false → off % 4 = 0 → 0x04 ≤ off → off ≤ 0x18 → ∃ t, hostStep s = .next t ∧
        t = { u with args := t.args } ∧ argList t.args = (argList s.args).set (off / 4 - 1) w))

/-- 10_state.md R62, 60_exceptions.md R350: the bits of the word a read of STATUS returns. -/
def Obligations.StatusWordHasItsFields : Prop :=
  ∀ st : Status, ∀ w, w = statusWord st →
    w.getLsbD 0 = st.busy ∧ w.getLsbD 1 = st.err ∧ w.getLsbD 2 = st.errstk ∧ w.getLsbD 3 = st.ovr ∧
    w.getLsbD 4 = st.init ∧ w.extractLsb' 5 3 = 0#3 ∧ w.extractLsb' 12 20 = 0#20 ∧
    (w.extractLsb' 8 4).toNat =
      (match st.cause with
      | .none => 0 | .state => 1 | .range => 2 | .param => 3 | .encoding => 4 | .capacity => 5)

/-- 20_memory.md R97 item 5, 70_reset_and_hazards.md R398: a host write to a region in flight is a fault of the run; one that
misses it is written (R97 item 6; `MemoryIsLittleEndian` says what `Memory.writeBytes` writes). -/
def Obligations.InFlightWritesFault : Prop :=
  ∀ (s : State) (a n data : Nat) (rest : List HostAction),
    s.host = .write a n data :: rest → reachesMemory s a n →
    (∀ r, inFlight s = some r → 0 < n → 0 < r.len → a < r.base + r.len → r.base < a + n →
      hostStep s = .fault .inFlightWrite) ∧
    ((∀ r, inFlight s = some r → n = 0 ∨ r.len = 0 ∨ r.base + r.len ≤ a ∨ a + n ≤ r.base) →
      hostStep s = .next { s with host := rest, mem := Memory.writeBytes s.mem a data n })

/-- 20_memory.md R94: which region is in flight. -/
def Obligations.InFlightRegionIsTheCommands : Prop :=
  ∀ s : State,
    (s.status.busy = false → inFlight s = none) ∧
    (∀ i, decode s.cmd = .ok i → i ≠ .load → i ≠ .update → inFlight s = none) ∧
    (∀ e, decode s.cmd = .error e → inFlight s = none) ∧
    (∀ i c, decode s.cmd = .ok i → failsWith i s c → inFlight s = none) ∧
    (s.status.busy = true → decode s.cmd = .ok .load → (∀ c, ¬ failsWith .load s c) →
      inFlight s = some ⟨s.latched.arg1.toNat, (a2 s).toNat⟩) ∧
    (s.status.busy = true → decode s.cmd = .ok .update → (∀ c, ¬ failsWith .update s c) →
      inFlight s = some ⟨s.latched.arg0.toNat, 8 * (a1 s).toNat⟩)

/-- 20_memory.md R97 item 6, R85: a host read of `n` bytes that misses the region in flight returns the bytes stored, byte `k`
at bits 8k+7 to 8k, and no host read changes anything but what the host has read. -/
def Obligations.HostReadsSeeMemory : Prop :=
  ∀ (s : State) (a n : Nat) (rest : List HostAction), s.host = .read a n :: rest → reachesMemory s a n →
    ((∀ r, inFlight s = some r → n = 0 ∨ r.len = 0 ∨ r.base + r.len ≤ a ∨ a + n ≤ r.base) →
      ∃ d, hostStep s = .next { s with host := rest, readData := d } ∧ d < 2 ^ (8 * n) ∧
        ∀ k, k < n → d / 2 ^ (8 * k) % 2 ^ 8 = (Memory.read8 s.mem (a + k)).toNat) ∧
    (∃ d f, hostStep s = .next { s with host := rest, readData := d, fresh := f })

/-- 70_reset_and_hazards.md R380, R381, 10_state.md R64: the reset input, for a region in flight that a command may be given
(`ForbiddenRegionsAreRefused` states the rest). -/
def Obligations.ResetClearsTheBlock : Prop :=
  ∀ (s : State) (rest : List HostAction), s.host = .reset :: rest → regionAllowed s →
    ∃ t, hostStep s = .next t ∧ t.params = s.params ∧ t.host = rest ∧
      t.session = { init := false, sr := 0#32, gvol := 0x00000000#32, active := 0, slots := [], voices := [] } ∧
      t.cmd = 0#32 ∧ argList t.args = List.replicate 6 0#32 ∧ t.result = 0#32 ∧ statusWord t.status = 0#32 ∧
      (inFlightUpdate s = none → t.mem = s.mem) ∧
      (Memory.wf s.mem = true → ∀ p, inFlightUpdate s = some p →
        ∀ x, x < p.buf ∨ p.buf + 8 * p.frames ≤ x → Memory.read8 t.mem x = Memory.read8 s.mem x)

/-- 70_reset_and_hazards.md R395, R398: a host that waits goes on. The premise says that the command in progress is not one whose
region the spec leaves undefined (20_memory.md R82, R93; log entries 10 and 11). -/
def Obligations.WaitAlwaysEnds : Prop :=
  ∀ (s : State) (rest : List HostAction), s.status.busy = true → s.host = .wait :: rest →
    regionAllowed s →
    ∃ t, Host.Core.run Sys2Proof.core (s.remaining + 2) s = .next t ∧ t.status.busy = false ∧ t.host = rest ∧
      t.cmd = s.cmd ∧ t.args = s.args

/-- 30_encoding.md R132: the writes a command line expands to have the command accepted with its operands. -/
def Obligations.ExpandedCommandIsAccepted : Prop :=
  ∀ (s : State) (i : Instr) (ops : List Literal) (rest : List HostAction),
    s.status.busy = false → ops.length = i.operands.length →
    s.host = expandLine s.params (.command i ops) ++ rest →
    ∃ t, Host.Core.run Sys2Proof.core (ops.length + 1) s = .next t ∧ t.status.busy = true ∧ t.cmd = encode i ∧
      argList t.latched = ops.map literalWord ++ (argList s.args).drop ops.length ∧
      t.host = .wait :: rest ∧ t.session = s.session ∧ t.mem = s.mem

/-! ## Completion, failure and the whole machine -/

/-- 60_exceptions.md R352: what `s.fail c` and `s.succeed e` are, field by field, and that every next state of a command is a
completion of one of the two forms. -/
def Obligations.CompletionFollowsR352 : Prop :=
  (∀ (s : State) (c : Cause), s.fail c =
    { params := s.params, session := s.session, cmd := s.cmd, args := s.args, result := 0#32
      status :=
        { busy := false, err := true, errstk := true, ovr := s.status.ovr, init := s.status.init, cause := c }
      latched := s.latched, remaining := s.remaining, delays := s.delays, mem := s.mem, host := s.host
      readData := s.readData, fresh := s.fresh }) ∧
  (∀ (s : State) (e : Effect), s.succeed e =
    { params := s.params, session := e.session, cmd := s.cmd, args := s.args, result := e.result
      status :=
        { busy := false, err := false, errstk := s.status.errstk, ovr := s.status.ovr, init := e.session.init
          cause := .none }
      latched := s.latched, remaining := s.remaining, delays := s.delays, mem := e.mem, host := s.host
      readData := s.readData, fresh := s.fresh }) ∧
  ∀ (i : Instr) (s t : State), exec i s = .next t →
    (t.status.err = true →
      t.status.cause ≠ .none ∧
      t = { s with
        result := 0#32
        status := { s.status with busy := false, err := true, cause := t.status.cause, errstk := true } }) ∧
    (t.status.err = false →
      (i.resultKind = .none → t.result = 0#32) ∧
      t = { s with
        session := t.session
        mem := t.mem
        result := t.result
        status :=
          { s.status with busy := false, err := false, cause := .none, init := t.session.init } })

/-- 60_exceptions.md R351. -/
def Obligations.StateCauseOutsideTheBracket : Prop :=
  (∀ (i : Instr) (s : State), s.session.init = false → i ≠ .init → i ≠ .isinit → failsWith i s .state) ∧
  (∀ s : State, s.session.init = true → failsWith .init s .state) ∧
  (∀ s t : State, exec .isinit s = .next t → t.status.cause ≠ .state)

/-- 60_exceptions.md R355. -/
def Obligations.CausesAreThoseOfTheTable : Prop :=
  ∀ (i : Instr) (s t : State), exec i s = .next t →
    t.status.cause = .none ∨ t.status.cause ∈ causesOf i

/-- 10_state.md R34: which steps write the active count: a completion, or a host moment with the reset input. -/
def Obligations.ActiveCountHasFourWriters : Prop :=
  ∀ s t : State, step s = .next t → t.session.active ≠ s.session.active →
    (s.status.busy = true ∧ s.remaining = 0 ∧
      (decode s.cmd = .ok .update ∨ decode s.cmd = .ok .init ∨ decode s.cmd = .ok .fini)) ∨
    ((s.status.busy = false ∨ 0 < s.remaining) ∧ ∃ rest, s.host = .reset :: rest)

/-- 10_state.md R32, R36, R38: within a session the sample rate is fixed, the slot table only grows, and only SETNVOC changes
the size of the voice pool. -/
def Obligations.SessionBoundsHoldAcrossSteps : Prop :=
  ∀ s t : State, step s = .next t → s.session.init = true → t.session.init = true →
    t.session.sr = s.session.sr ∧ s.session.slots.length ≤ t.session.slots.length ∧
    (t.session.voices.length ≠ s.session.voices.length →
      s.status.busy = true ∧ s.remaining = 0 ∧ decode s.cmd = .ok .setnvoc)

/-- 10_state.md R64: the invariants hold after reset under every admissible choice of the parameters. -/
def Obligations.InvariantsHoldAfterReset : Prop :=
  (∀ p : Params, p.wf → (State.resetWith p).Inv) ∧ State.reset.Inv

/-- 10_state.md R31 to R50, R57 to R62, 44_mixer.md R313: every step keeps the invariants. -/
def Obligations.EveryStepKeepsTheInvariants : Prop :=
  ∀ s t : State, s.Inv → step s = .next t → t.Inv

/-! ## Arithmetic and memory -/

/-- 00_scope.md R12: one rounding, to nearest, ties to even, infinity on overflow. -/
def Obligations.RoundingIsToNearestEven : Prop :=
  ∀ (neg : Bool) (n d : Nat) (r : F32), 0 < d → r = f32Round neg n d →
    f32IsNaN r = false ∧ f32Sign r = neg ∧
    (f32IsInf r = true ↔ (2 ^ 25 - 1) * 2 ^ 253 * d ≤ 2 * n) ∧
    (f32IsFinite r = true → ∀ x : F32, f32IsFinite x = true →
      ((f32Mag r * d : Nat) - n : Int).natAbs ≤ ((f32Mag x * d : Nat) - n : Int).natAbs ∧
      (((f32Mag r * d : Nat) - n : Int).natAbs = ((f32Mag x * d : Nat) - n : Int).natAbs →
        f32Mag x ≠ f32Mag r → r.getLsbD 0 = false))

/-- 00_scope.md R12, R13, R14: the operands' exact result, rounded; infinite operands, the invalid operations, exact zero sums
and division by zero; conversion of integers; comparisons. `f32Val` counts units of 2^-149, and an infinity counts 2^277 of
them, above every finite value. R12 takes the signs of zeros and infinities and division by zero from IEEE 754 and does not
spell them out: those clauses are PRESUMED (log entry 19). -/
def Obligations.OperationsRoundTheExactResult : Prop :=
  (∀ a b : F32, ∀ neg, f32IsFinite a = true → f32IsFinite b = true → neg = (f32Sign a != f32Sign b) →
    f32Add a b =
      (if f32Val a + f32Val b = 0 then (if a = 0x80000000#32 ∧ b = 0x80000000#32 then 0x80000000#32 else 0#32)
      else f32Round (decide (f32Val a + f32Val b < 0)) (f32Val a + f32Val b).natAbs 1) ∧
    f32Sub a b =
      (if f32Val a - f32Val b = 0 then (if a = 0x80000000#32 ∧ b = 0#32 then 0x80000000#32 else 0#32)
      else f32Round (decide (f32Val a - f32Val b < 0)) (f32Val a - f32Val b).natAbs 1) ∧
    f32Mul a b = f32Round neg (f32Mag a * f32Mag b) (2 ^ 149) ∧
    f32Div a b =
      (if f32Mag b ≠ 0 then f32Round neg (f32Mag a * 2 ^ 149) (f32Mag b)
      else if f32Mag a = 0 then 0x7FC00000#32 else if neg then 0xFF800000#32 else 0x7F800000#32)) ∧
  (∀ a b : F32, ∀ inf, f32IsInf a = true → f32IsNaN b = false →
    inf = (if f32Sign a != f32Sign b then 0xFF800000#32 else 0x7F800000#32) →
    f32Add a b = (if f32IsInf b = true ∧ b ≠ a then 0x7FC00000#32 else a) ∧
    f32Add b a = (if f32IsInf b = true ∧ b ≠ a then 0x7FC00000#32 else a) ∧
    f32Sub a b = (if b = a then 0x7FC00000#32 else a) ∧
    (f32IsFinite b = true →
      f32Sub b a = (if f32Sign a then 0x7F800000#32 else 0xFF800000#32) ∧
      f32Div a b = inf ∧ f32Div b a = (if f32Sign a != f32Sign b then 0x80000000#32 else 0x00000000#32)) ∧
    f32Mul a b = (if f32Val b = 0 then 0x7FC00000#32 else inf) ∧
    f32Mul b a = (if f32Val b = 0 then 0x7FC00000#32 else inf) ∧
    (f32IsInf b = true → f32Div a b = 0x7FC00000#32)) ∧
  (∀ i : Int, f32FromInt i = f32Round (decide (i < 0)) (i.natAbs * 2 ^ 149) 1 ∧
    (i.natAbs ≤ 2 ^ 24 → f32Val (f32FromInt i) = i * 2 ^ 149)) ∧
  (∀ a b : F32,
    (f32Gt a b = true ↔ f32IsNaN a = false ∧ f32IsNaN b = false ∧ f32Val b < f32Val a) ∧
    (f32Lt a b = true ↔ f32IsNaN a = false ∧ f32IsNaN b = false ∧ f32Val a < f32Val b)) ∧
  (∀ a : F32, f32IsFinite a = true → f32Val 0xFF800000#32 < f32Val a ∧ f32Val a < f32Val 0x7F800000#32)

/-- 00_scope.md R13. -/
def Obligations.ArithmeticNaNIsCanonical : Prop :=
  ∀ (a b : F32), ∀ op ∈ [f32Add, f32Sub, f32Mul, f32Div],
    (f32IsNaN (op a b) = true → op a b = 0x7FC00000#32) ∧
    (f32IsNaN a = true ∨ f32IsNaN b = true → op a b = 0x7FC00000#32)

/-- 00_scope.md R15. -/
def Obligations.ClampStaysInItsInterval : Prop :=
  ∀ x lo hi : F32, f32IsNaN lo = false → f32IsNaN hi = false → f32Val lo ≤ f32Val hi →
    (f32IsNaN x = true → clamp x lo hi = lo) ∧
    (f32Lt x lo = true → clamp x lo hi = lo) ∧
    (f32Gt x hi = true → clamp x lo hi = hi) ∧
    (f32IsNaN x = false → f32Lt x lo = false → f32Gt x hi = false → clamp x lo hi = x) ∧
    f32IsNaN (clamp x lo hi) = false ∧ f32Val lo ≤ f32Val (clamp x lo hi) ∧
    f32Val (clamp x lo hi) ≤ f32Val hi

/-- 00_scope.md R16. -/
def Obligations.FloorSaturates : Prop :=
  ∀ x : F32,
    (f32IsNaN x = true → (f32FloorSat x).toInt = 0) ∧
    (f32IsNaN x = false →
      (2 ^ 31 * 2 ^ 149 ≤ f32Val x → (f32FloorSat x).toInt = 2 ^ 31 - 1) ∧
      (f32Val x < -(2 ^ 31) * 2 ^ 149 → (f32FloorSat x).toInt = -(2 ^ 31)) ∧
      (-(2 ^ 31) * 2 ^ 149 ≤ f32Val x → f32Val x < 2 ^ 31 * 2 ^ 149 →
        (f32FloorSat x).toInt * 2 ^ 149 ≤ f32Val x ∧ f32Val x < ((f32FloorSat x).toInt + 1) * 2 ^ 149))

/-- 00_scope.md R17. -/
def Obligations.IntegerRoundingSaturates : Prop :=
  ∀ (x : F32) (lo hi : Int), lo ≤ hi →
    (f32IsNaN x = true → f32ToIntRneSat x lo hi = 0) ∧
    (x = 0x7F800000#32 → f32ToIntRneSat x lo hi = hi) ∧
    (x = 0xFF800000#32 → f32ToIntRneSat x lo hi = lo) ∧
    (f32IsFinite x = true → ∃ k : Int,
      (2 * (k * 2 ^ 149 - f32Val x).natAbs < 2 ^ 149 ∨
        (2 * (k * 2 ^ 149 - f32Val x).natAbs = 2 ^ 149 ∧ k % 2 = 0)) ∧
      f32ToIntRneSat x lo hi = (if k < lo then lo else if hi < k then hi else k))

/-- 00_scope.md R18, 20_memory.md R80, R85: a value is stored byte by byte, least significant at the lowest address, and read back;
no other byte changes; the canonical form is kept. -/
def Obligations.MemoryIsLittleEndian : Prop :=
  (∀ (m : Memory) (a v n : Nat), Memory.wf m = true →
    Memory.wf (Memory.writeBytes m a v n) = true ∧
    (∀ k, k < n → (Memory.read8 (Memory.writeBytes m a v n) (a + k)).toNat = v / 2 ^ (8 * k) % 2 ^ 8) ∧
    (∀ x, x < a ∨ a + n ≤ x → Memory.read8 (Memory.writeBytes m a v n) x = Memory.read8 m x)) ∧
  ∀ (m : Memory) (a : Nat) (w : Width) (v : Word), Memory.wf m = true →
    Memory.wf (Memory.write m a w v) = true ∧
    (∀ k, k < w.bytes → Memory.read8 (Memory.write m a w v) (a + k) = v.extractLsb' (8 * k) 8) ∧
    (∀ x, x < a ∨ a + w.bytes ≤ x → Memory.read8 (Memory.write m a w v) x = Memory.read8 m x) ∧
    Memory.read (Memory.write m a w v) a w = BitVec.ofNat 32 (v.toNat % 2 ^ (8 * w.bytes)) ∧
    (∀ k, k < w.bytes → (Memory.read m a w).extractLsb' (8 * k) 8 = Memory.read8 m (a + k))

end
end

