-- ==== Sys2Proof/Laws/Float.lean ====
section
/-! SUPPORT. The binary32 primitives: the magnitude as a strictly rising function of the pattern, the two bounds of
rounding (from which exactness and every range fact follow), and what addition, multiplication and conversion of
integers give. -/

namespace Sys2Proof.Machine

/-- The magnitude that bits 30:0 stand for, in units of 2^-149. -/
def magOfBits (r : Nat) : Nat :=
  if r / 2 ^ 23 = 0 then r % 2 ^ 23 else (2 ^ 23 + r % 2 ^ 23) * 2 ^ (r / 2 ^ 23 - 1)

/-- The pattern `k * 2^23 + m` stands for `m * 2^k`. -/
theorem magOfBits_pack {k m : Nat} (h1 : k = 0 ∨ 2 ^ 23 ≤ m) (h2 : m ≤ 2 ^ 24) :
    magOfBits (k * 2 ^ 23 + m) = m * 2 ^ k := by
  unfold magOfBits
  rcases Nat.lt_or_ge m (2 ^ 23) with hm | hm
  · obtain rfl : k = 0 := by omega
    rw [if_pos (by omega)]; omega
  · rcases Nat.lt_or_ge m (2 ^ 24) with hm' | hm'
    · have e1 : (k * 2 ^ 23 + m) / 2 ^ 23 = k + 1 := by omega
      have e2 : (k * 2 ^ 23 + m) % 2 ^ 23 = m - 2 ^ 23 := by omega
      rw [e1, e2, if_neg (by omega), show 2 ^ 23 + (m - 2 ^ 23) = m by omega, Nat.add_sub_cancel]
    · obtain rfl : m = 2 ^ 24 := by omega
      have e1 : (k * 2 ^ 23 + 2 ^ 24) / 2 ^ 23 = k + 2 := by omega
      have e2 : (k * 2 ^ 23 + 2 ^ 24) % 2 ^ 23 = 0 := by omega
      rw [e1, e2, if_neg (by omega)]
      rw [show k + 2 - 1 = k + 1 by omega, pow_succ 2 k, Nat.add_zero]
      generalize 2 ^ k = p
      omega

/-- Every pattern is a `k * 2^23 + m`. -/
theorem bits_pack (r : Nat) :
    ∃ k m, r = k * 2 ^ 23 + m ∧ (k = 0 ∨ 2 ^ 23 ≤ m) ∧ m < 2 ^ 24 := by
  refine ⟨r / 2 ^ 23 - 1, r - (r / 2 ^ 23 - 1) * 2 ^ 23, ?_, ?_, ?_⟩ <;> omega

theorem magOfBits_lt_succ (r : Nat) : magOfBits r < magOfBits (r + 1) := by
  obtain ⟨k, m, rfl, h1, h2⟩ := bits_pack r
  rw [magOfBits_pack h1 (by omega), Nat.add_assoc, magOfBits_pack (m := m + 1) (by omega) (by omega)]
  exact Nat.mul_lt_mul_of_pos_right (by omega) (by positivity)

/-- A larger pattern stands for a larger magnitude. -/
theorem magOfBits_strictMono : StrictMono magOfBits := strictMono_nat_of_lt_succ magOfBits_lt_succ

theorem magOfBits_zero : magOfBits 0 = 0 := by decide

theorem magOfBits_one : magOfBits 0x3F800000 = f32One := by decide +kernel

theorem magOfBits_inf : magOfBits 0x7F800000 = 2 ^ 277 := by decide +kernel

/-- The bits just below the quotient, and how rounding goes from there (R12). -/
theorem roundMag_cases (n d : Nat) (hd : 0 < d) :
    ∃ k m, (k = 0 ∨ 2 ^ 23 ≤ m) ∧ m < 2 ^ 24 ∧ m * 2 ^ k * d ≤ n ∧ n < (m + 1) * 2 ^ k * d ∧
      roundMag n d =
        min (k * 2 ^ 23 +
          (if d * 2 ^ k < 2 * (n - m * 2 ^ k * d) ∨ (d * 2 ^ k = 2 * (n - m * 2 ^ k * d) ∧ m % 2 = 1)
            then m + 1 else m)) 0x7F800000 := by
  set k := Nat.log2 (n / d) - 23 with hk
  set m := n / (d * 2 ^ k) with hm
  have hden : 0 < d * 2 ^ k := by positivity
  have hmq : m = n / d / 2 ^ k := by rw [hm, Nat.div_div_eq_div_mul]
  have hlog : n / d < 2 ^ (Nat.log2 (n / d) + 1) := Nat.lt_log2_self
  refine ⟨k, m, ?_, ?_, ?_, ?_, ?_⟩
  · rcases Nat.eq_zero_or_pos k with h | h
    · exact .inl h
    · right
      have hne : n / d ≠ 0 := by intro h0; rw [h0] at hk; simp at hk; omega
      have := Nat.log2_self_le hne
      rw [hmq, Nat.le_div_iff_mul_le (by positivity), ← pow_add]
      rwa [show 23 + k = Nat.log2 (n / d) by omega]
  · rw [hmq, Nat.div_lt_iff_lt_mul (by positivity), ← pow_add]
    exact hlog.trans_le (Nat.pow_le_pow_right (by omega) (by omega))
  · have := Nat.div_mul_le_self n (d * 2 ^ k)
    rw [← hm] at this
    calc m * 2 ^ k * d = m * (d * 2 ^ k) := by ring
      _ ≤ n := this
  · calc n < (d * 2 ^ k) * (n / (d * 2 ^ k) + 1) := Nat.lt_mul_div_succ n hden
      _ = (m + 1) * 2 ^ k * d := by rw [← hm]; ring
  · have hr : n % (d * 2 ^ k) = n - m * 2 ^ k * d := by
      have := Nat.div_add_mod n (d * 2 ^ k)
      rw [← hm] at this
      have e : d * 2 ^ k * m = m * 2 ^ k * d := by ring
      omega
    simp only [roundMag, ← hk, ← hm, hr]

/-- Rounding does not go below a representable lower bound. -/
theorem le_roundMag {a n d : Nat} (hd : 0 < d) (ha : a ≤ 0x7F800000) (h : magOfBits a * d ≤ n) :
    a ≤ roundMag n d := by
  obtain ⟨k, m, h1, h2, -, h4, h5⟩ := roundMag_cases n d hd
  have : magOfBits a < magOfBits (k * 2 ^ 23 + (m + 1)) := by
    rw [magOfBits_pack (by omega) (by omega)]
    exact Nat.lt_of_mul_lt_mul_right (h.trans_lt h4)
  have := magOfBits_strictMono.lt_iff_lt.mp this
  rw [h5]
  refine le_min ?_ ha
  split <;> omega

/-- Rounding does not go above a representable upper bound. -/
theorem roundMag_le {b n d : Nat} (hd : 0 < d) (h : n ≤ magOfBits b * d) : roundMag n d ≤ b := by
  obtain ⟨k, m, h1, h2, h3, -, h5⟩ := roundMag_cases n d hd
  have hp := magOfBits_pack h1 h2.le
  rw [h5]
  refine (min_le_left _ _).trans ?_
  split
  · rename_i hup
    have hlt : m * 2 ^ k * d < n := by
      have : 0 < d * 2 ^ k := by positivity
      omega
    have : magOfBits (k * 2 ^ 23 + m) < magOfBits b := by
      rw [hp]; exact Nat.lt_of_mul_lt_mul_right (hlt.trans_le h)
    have := magOfBits_strictMono.lt_iff_lt.mp this
    omega
  · have : magOfBits (k * 2 ^ 23 + m) ≤ magOfBits b := by
      rw [hp]; exact Nat.le_of_mul_le_mul_right (h3.trans h) hd
    exact magOfBits_strictMono.le_iff_le.mp this

theorem roundMag_le_inf (n d : Nat) : roundMag n d ≤ 0x7F800000 := by
  simp only [roundMag]; exact min_le_right _ _

/-- A representable value is its own rounding. -/
theorem roundMag_exact {a d : Nat} (hd : 0 < d) (ha : a ≤ 0x7F800000) : roundMag (magOfBits a * d) d = a :=
  le_antisymm (roundMag_le hd le_rfl) (le_roundMag hd ha le_rfl)

/-! Patterns made of a sign and bits 30:0. -/

/-- The pattern of a sign and bits 30:0. -/
def packBits (neg : Bool) (r : Nat) : F32 := BitVec.ofNat 32 ((if neg then 2 ^ 31 else 0) + r)

theorem f32Round_eq_pack (neg : Bool) (n d : Nat) : f32Round neg n d = packBits neg (roundMag n d) := rfl

theorem f32Exp_eq (x : F32) : f32Exp x = x.toNat / 2 ^ 23 % 2 ^ 8 := by
  simp [f32Exp, BitVec.extractLsb'_toNat, Nat.shiftRight_eq_div_pow]

theorem f32Frac_eq (x : F32) : f32Frac x = x.toNat % 2 ^ 23 := by
  simp [f32Frac, BitVec.extractLsb'_toNat]

theorem f32Sign_eq (x : F32) : f32Sign x = decide (2 ^ 31 ≤ x.toNat) := by
  rw [f32Sign, ← BitVec.msb_eq_getLsbD_last, BitVec.msb_eq_decide]

theorem f32Mag_eq (x : F32) : f32Mag x = magOfBits (x.toNat % 2 ^ 31) := by
  have e1 : x.toNat % 2 ^ 31 / 2 ^ 23 = x.toNat / 2 ^ 23 % 2 ^ 8 := by omega
  have e2 : x.toNat % 2 ^ 31 % 2 ^ 23 = x.toNat % 2 ^ 23 := by omega
  simp only [f32Mag, magOfBits, f32Exp_eq, f32Frac_eq, e1, e2]

theorem f32IsNaN_eq (x : F32) : f32IsNaN x = decide (0x7F800000 < x.toNat % 2 ^ 31) := by
  simp only [f32IsNaN, f32Exp_eq, f32Frac_eq, ← Bool.decide_and, decide_eq_decide]
  omega

theorem f32IsInf_eq (x : F32) : f32IsInf x = decide (x.toNat % 2 ^ 31 = 0x7F800000) := by
  simp only [f32IsInf, f32Exp_eq, f32Frac_eq, ← Bool.decide_and, decide_eq_decide]
  omega

theorem f32IsFinite_eq (x : F32) : f32IsFinite x = decide (x.toNat % 2 ^ 31 < 0x7F800000) := by
  simp only [f32IsFinite, f32Exp_eq, decide_eq_decide]
  omega

theorem packBits_toNat {neg : Bool} {r : Nat} (h : r < 2 ^ 31) :
    (packBits neg r).toNat = (if neg then 2 ^ 31 else 0) + r := by
  rw [packBits, BitVec.toNat_ofNat, Nat.mod_eq_of_lt]
  split <;> omega

theorem packBits_mod {neg : Bool} {r : Nat} (h : r < 2 ^ 31) : (packBits neg r).toNat % 2 ^ 31 = r := by
  rw [packBits_toNat h]; split <;> omega

@[simp] theorem f32Sign_pack {neg : Bool} {r : Nat} (h : r < 2 ^ 31) : f32Sign (packBits neg r) = neg := by
  rw [f32Sign_eq, packBits_toNat h]
  cases neg <;> simp <;> omega

@[simp] theorem f32Mag_pack {neg : Bool} {r : Nat} (h : r < 2 ^ 31) :
    f32Mag (packBits neg r) = magOfBits r := by rw [f32Mag_eq, packBits_mod h]

/-- Every pattern is its sign and its bits 30:0. -/
theorem pack_self (x : F32) : packBits (f32Sign x) (x.toNat % 2 ^ 31) = x := by
  apply BitVec.eq_of_toNat_eq
  have := x.isLt
  rw [packBits_toNat (by omega), f32Sign_eq]
  by_cases h : 2 ^ 31 ≤ x.toNat
  · rw [if_pos (by simpa using h)]; omega
  · rw [if_neg (by simpa using h)]; omega

theorem roundMag_lt (n d : Nat) : roundMag n d < 2 ^ 31 := (roundMag_le_inf n d).trans_lt (by norm_num)

@[simp] theorem f32Sign_round (neg : Bool) (n d : Nat) : f32Sign (f32Round neg n d) = neg :=
  f32Sign_pack (roundMag_lt n d)

/-- Rounding never gives NaN. -/
@[simp] theorem f32IsNaN_round (neg : Bool) (n d : Nat) : f32IsNaN (f32Round neg n d) = false := by
  have := roundMag_le_inf n d
  rw [f32IsNaN_eq, f32Round_eq_pack, packBits_mod (roundMag_lt n d)]
  simp; omega

theorem f32Mag_round (neg : Bool) (n d : Nat) : f32Mag (f32Round neg n d) = magOfBits (roundMag n d) :=
  f32Mag_pack (roundMag_lt n d)

/-- Rounding a finite value's own magnitude gives it back. -/
theorem f32Round_self {x : F32} (h : f32IsNaN x = false) {d : Nat} (hd : 0 < d) :
    f32Round (f32Sign x) (f32Mag x * d) d = x := by
  rw [f32IsNaN_eq] at h
  rw [f32Round_eq_pack, f32Mag_eq, roundMag_exact hd (by simpa using h), pack_self]

/-- A rounded value below the infinity is finite. -/
theorem f32IsFinite_round {neg : Bool} {n d : Nat} (hd : 0 < d) (h : n ≤ magOfBits 0x7F7FFFFF * d) :
    f32IsFinite (f32Round neg n d) = true := by
  have := roundMag_le hd h
  rw [f32IsFinite_eq, f32Round_eq_pack, packBits_mod (roundMag_lt n d)]
  simp; omega

/-- A finite magnitude is at most the largest finite one. -/
theorem f32Mag_le_of_finite {x : F32} (h : f32IsFinite x = true) : f32Mag x ≤ magOfBits 0x7F7FFFFF := by
  rw [f32IsFinite_eq] at h
  rw [f32Mag_eq]
  exact magOfBits_strictMono.monotone (by simp at h; omega)

/-- The three classes of patterns. -/
theorem f32_classes (x : F32) :
    (f32IsNaN x = true ∧ f32IsInf x = false ∧ f32IsFinite x = false) ∨
      (f32IsNaN x = false ∧ f32IsInf x = true ∧ f32IsFinite x = false) ∨
      (f32IsNaN x = false ∧ f32IsInf x = false ∧ f32IsFinite x = true) := by
  rw [f32IsNaN_eq, f32IsInf_eq, f32IsFinite_eq]
  simp only [decide_eq_true_eq, decide_eq_false_iff_not]
  omega

theorem not_nan_of_finite {x : F32} (h : f32IsFinite x = true) : f32IsNaN x = false := by
  rcases f32_classes x with h' | h' | h' <;> simp_all

theorem not_inf_of_finite {x : F32} (h : f32IsFinite x = true) : f32IsInf x = false := by
  rcases f32_classes x with h' | h' | h' <;> simp_all

theorem finite_of_not {x : F32} (h : f32IsNaN x = false) (h' : f32IsInf x = false) : f32IsFinite x = true := by
  rcases f32_classes x with h' | h' | h' <;> simp_all

@[simp] theorem f32IsNaN_nan : f32IsNaN f32NaN = true := by decide

/-- An infinity is the infinity of its sign. -/
theorem eq_inf_of_isInf {x : F32} (h : f32IsInf x = true) : x = f32Inf (f32Sign x) := by
  rw [f32IsInf_eq, decide_eq_true_eq] at h
  conv_lhs => rw [← pack_self x, h]
  cases f32Sign x <;> decide

/-! Negation. -/

theorem f32Neg_toNat (x : F32) : (f32Neg x).toNat = (x.toNat + 2 ^ 31) % 2 ^ 32 := by
  have h : (0x80000000#32).toNat = 2 ^ 31 := by decide
  rw [f32Neg, BitVec.toNat_add, h]

theorem f32Neg_mod (x : F32) : (f32Neg x).toNat % 2 ^ 31 = x.toNat % 2 ^ 31 := by
  rw [f32Neg_toNat]; omega

@[simp] theorem f32IsNaN_neg (x : F32) : f32IsNaN (f32Neg x) = f32IsNaN x := by
  rw [f32IsNaN_eq, f32IsNaN_eq, f32Neg_mod]

@[simp] theorem f32IsInf_neg (x : F32) : f32IsInf (f32Neg x) = f32IsInf x := by
  rw [f32IsInf_eq, f32IsInf_eq, f32Neg_mod]

@[simp] theorem f32IsFinite_neg (x : F32) : f32IsFinite (f32Neg x) = f32IsFinite x := by
  rw [f32IsFinite_eq, f32IsFinite_eq, f32Neg_mod]

@[simp] theorem f32Mag_neg (x : F32) : f32Mag (f32Neg x) = f32Mag x := by
  rw [f32Mag_eq, f32Mag_eq, f32Neg_mod]

@[simp] theorem f32Sign_neg (x : F32) : f32Sign (f32Neg x) = !f32Sign x := by
  have := x.isLt
  rw [f32Sign_eq, f32Sign_eq, f32Neg_toNat]
  rw [← decide_not, decide_eq_decide]
  omega

@[simp] theorem f32Val_neg (x : F32) : f32Val (f32Neg x) = -f32Val x := by
  simp only [f32Val, f32Sign_neg, f32Mag_neg]
  cases f32Sign x <;> simp

@[simp] theorem f32ToIntRneSat_nan {x : F32} (h : f32IsNaN x = true) (lo hi : Int) : f32ToIntRneSat x lo hi = 0 := by
  simp [f32ToIntRneSat, h]

theorem f32ToIntRneSat_inf {x : F32} (h : f32IsInf x = true) (lo hi : Int) :
    f32ToIntRneSat x lo hi = if f32Sign x then lo else hi := by
  have hn : f32IsNaN x = false := by simp_all [f32IsInf, f32IsNaN]
  simp [f32ToIntRneSat, h, hn]

theorem f32ToIntRneSat_finite {x : F32} (h : f32IsFinite x = true) (lo hi : Int) :
    f32ToIntRneSat x lo hi = limit (roundDivEven (f32Val x) f32One) lo hi := by
  have hn : f32IsNaN x = false := by simp_all [f32IsFinite, f32IsNaN]
  have hi' : f32IsInf x = false := by simp_all [f32IsFinite, f32IsInf]
  simp [f32ToIntRneSat, hn, hi']

end Sys2Proof.Machine
end

