-- ==== Sys2Proof/Laws/FloatRange.lean ====
section
/-! SUPPORT. Ranges of binary32 results: clamping, conversion of integers, the pitch-step, and the playback position, which
never becomes NaN or minus infinity (44_mixer.md R313). -/

namespace Sys2Proof.Machine

/-- What addition of two finite values is: the rounded exact sum, or a zero. -/
theorem f32Add_finite {a b : F32} (ha : f32IsFinite a = true) (hb : f32IsFinite b = true) :
    f32Add a b =
      if f32Val a + f32Val b = 0 then (if f32Sign a && f32Sign b then 0x80000000#32 else f32Zero)
      else f32Round (decide (f32Val a + f32Val b < 0)) (f32Val a + f32Val b).natAbs 1 := by
  simp only [f32Add, not_nan_of_finite ha, not_nan_of_finite hb, not_inf_of_finite ha, not_inf_of_finite hb,
    Bool.or_false, Bool.false_eq_true, if_false]

/-- The four operations give the canonical NaN or a value that is not NaN (00_scope.md R13). -/
theorem f32Add_nan (a b : F32) : f32Add a b = f32NaN ∨ f32IsNaN (f32Add a b) = false := by
  unfold f32Add
  split
  · exact .inl rfl
  · rename_i h
    simp only [Bool.or_eq_true, not_or, Bool.not_eq_true] at h
    split
    · split
      · exact .inl rfl
      · exact .inr h.1
    · split
      · exact .inr h.2
      · dsimp only
        split
        · split <;> exact .inr (by decide)
        · exact .inr (f32IsNaN_round _ _ _)

theorem f32IsNaN_inf (s : Bool) : f32IsNaN (f32Inf s) = false := by cases s <;> decide

theorem f32Mul_nan (a b : F32) : f32Mul a b = f32NaN ∨ f32IsNaN (f32Mul a b) = false := by
  unfold f32Mul
  dsimp only
  split
  · exact .inl rfl
  · split
    · split
      · exact .inl rfl
      · exact .inr (f32IsNaN_inf _)
    · exact .inr (f32IsNaN_round _ _ _)

theorem f32Div_nan (a b : F32) : f32Div a b = f32NaN ∨ f32IsNaN (f32Div a b) = false := by
  unfold f32Div
  dsimp only
  split
  · exact .inl rfl
  · split
    · split
      · exact .inl rfl
      · exact .inr (f32IsNaN_inf _)
    · split
      · exact .inr (f32IsNaN_round _ _ _)
      · split
        · split
          · exact .inl rfl
          · exact .inr (f32IsNaN_inf _)
        · exact .inr (f32IsNaN_round _ _ _)

/-! Clamping (00_scope.md R15). -/

/-- Clamping is idempotent for ordered bounds. -/
theorem clamp_clamp {lo hi : F32} (hlo : f32IsNaN lo = false) (hhi : f32IsNaN hi = false)
    (h : f32Val lo ≤ f32Val hi) (x : F32) : clamp (clamp x lo hi) lo hi = clamp x lo hi := by
  have h1 : clamp lo lo hi = lo := by simp [clamp, f32Lt, f32Gt, hlo, hhi]; omega
  have h2 : clamp hi lo hi = hi := by simp [clamp, f32Lt, f32Gt, hlo, hhi]; omega
  by_cases hx : f32IsNaN x
  · simp [clamp, hx]; simpa [clamp] using h1
  · by_cases hl : f32Lt x lo
    · have : clamp x lo hi = lo := by simp [clamp, hx, hl]
      rw [this, h1]
    · by_cases hg : f32Gt x hi
      · have : clamp x lo hi = hi := by simp [clamp, hx, hl, hg]
        rw [this, h2]
      · have : clamp x lo hi = x := by simp [clamp, hx, hl, hg]
        rw [this, this]

@[simp] theorem clamp_unit_idem (x : F32) :
    clamp (clamp x f32Zero f32PosOne) f32Zero f32PosOne = clamp x f32Zero f32PosOne :=
  clamp_clamp (by decide) (by decide) (by decide +kernel) x

@[simp] theorem clamp_pan_idem (x : F32) :
    clamp (clamp x f32NegOne f32PosOne) f32NegOne f32PosOne = clamp x f32NegOne f32PosOne :=
  clamp_clamp (by decide) (by decide) (by decide +kernel) x

/-- The gain pair depends on the clamped pan only (42_gain.md R243 law 1). -/
@[simp] theorem gainFn_clamp (x : F32) : gainFn (clamp x f32NegOne f32PosOne) = gainFn x := by
  simp [gainFn]

/-! Conversion of integers (00_scope.md R12). -/

theorem maxFinite_mag : magOfBits 0x7F7FFFFF = (2 ^ 24 - 1) * 2 ^ 253 := by decide +kernel

/-- A 32-bit integer converts to a finite value. -/
theorem f32IsFinite_fromInt {i : Int} (h : i.natAbs ≤ 2 ^ 32) : f32IsFinite (f32FromInt i) = true := by
  refine f32IsFinite_round (by norm_num) ?_
  rw [maxFinite_mag, f32One]
  calc i.natAbs * 2 ^ 149 ≤ 2 ^ 32 * 2 ^ 149 := Nat.mul_le_mul_right _ h
    _ ≤ (2 ^ 24 - 1) * 2 ^ 253 * 1 := by norm_num

theorem f32IsFinite_fromWord (w : Word) : f32IsFinite (f32FromInt w.toInt) = true := by
  refine f32IsFinite_fromInt ?_
  have h1 := BitVec.toInt_lt (x := w)
  have h2 := BitVec.le_toInt w
  norm_num at h1 h2
  omega

/-! Segment bounds (10_state.md R46). -/

theorem isFrameBound_fromInt (k : I32) : IsFrameBound (f32FromInt k.toInt) := ⟨k, rfl⟩

theorem isFrameBound_zero : IsFrameBound f32Zero := ⟨0#32, by decide +kernel⟩

theorem IsFrameBound.finite {x : F32} (h : IsFrameBound x) : f32IsFinite x = true := by
  obtain ⟨k, rfl⟩ := h
  exact f32IsFinite_fromWord k

theorem Voice.Inv.start_finite {S : Session} {v : Voice} (h : Voice.Inv S v) : f32IsFinite v.rstart = true :=
  h.start_of_frame.finite

theorem Voice.Inv.end_finite {S : Session} {v : Voice} (h : Voice.Inv S v) : f32IsFinite v.rend = true :=
  h.end_of_frame.finite

/-- A positive integer converts to at least 1.0. -/
theorem f32FromInt_pos {i : Int} (h : 1 ≤ i) :
    f32Sign (f32FromInt i) = false ∧ f32One ≤ f32Mag (f32FromInt i) := by
  have hn : decide (i < 0) = false := by simp; omega
  refine ⟨by rw [f32FromInt, f32Sign_round, hn], ?_⟩
  rw [f32FromInt, f32Mag_round]
  rw [← magOfBits_one]
  refine magOfBits_strictMono.monotone (le_roundMag (by norm_num) (by norm_num) ?_)
  rw [magOfBits_one]
  have : 1 ≤ i.natAbs := by omega
  nlinarith

/-- Nothing strictly between 0 and 1 is a segment bound. -/
theorem not_isFrameBound_of_lt_one {x : F32} (hs : f32Sign x = false) (h0 : 0 < f32Mag x) (h1 : f32Mag x < f32One) :
    ¬ IsFrameBound x := by
  rintro ⟨k, rfl⟩
  rcases lt_trichotomy k.toInt 0 with h | h | h
  · rw [f32FromInt, f32Sign_round] at hs
    simp at hs; omega
  · rw [h] at h0; revert h0; decide +kernel
  · have := (f32FromInt_pos (i := k.toInt) (by omega)).2; omega

theorem f32One_pos : 0 < f32One := by unfold f32One; positivity

/-- A sample rate is an accepted frequency. -/
theorem frequencyOk_fromInt {w : Word} (h : 1 ≤ w.toInt) : frequencyOk (f32FromInt w.toInt) = true := by
  obtain ⟨hs, hm⟩ := f32FromInt_pos h
  have hf := f32IsFinite_fromWord w
  have hne : f32FromInt w.toInt ≠ f32Inf false := by
    intro he; rw [he] at hf; revert hf; decide
  have hz : f32Val f32Zero = 0 := by decide +kernel
  have hnz : f32IsNaN f32Zero = false := by decide
  have := f32One_pos
  have hv : 0 < f32Val (f32FromInt w.toInt) := by rw [f32Val, hs, if_neg (by simp)]; omega
  simp [frequencyOk, f32Gt, not_nan_of_finite hf, hne, hz, hnz, hv]

/-- An accepted frequency is finite, positive and not a zero. -/
theorem frequencyOk_spec {x : F32} (h : frequencyOk x = true) :
    f32IsFinite x = true ∧ f32Sign x = false ∧ 0 < f32Mag x := by
  simp only [frequencyOk, f32Gt, Bool.and_eq_true, Bool.not_eq_true', decide_eq_true_eq, decide_eq_false_iff_not] at h
  obtain ⟨⟨hn, ⟨-, -⟩, hv⟩, hi⟩ := h
  have hz : f32Val f32Zero = 0 := by decide +kernel
  rw [hz, f32Val] at hv
  have hs : f32Sign x = false := by
    by_contra hc
    simp only [Bool.not_eq_false] at hc
    simp only [hc, if_true] at hv
    omega
  refine ⟨finite_of_not hn ?_, hs, ?_⟩
  · by_contra hc
    simp only [Bool.not_eq_false] at hc
    exact hi (hs ▸ eq_inf_of_isInf hc)
  · simp only [hs] at hv
    simpa using hv

/-- A value divided by itself (10_state.md R41). -/
theorem f32Div_self {x : F32} (hf : f32IsFinite x = true) (hm : 0 < f32Mag x) : f32Div x x = f32PosOne := by
  simp only [f32Div, not_nan_of_finite hf, not_inf_of_finite hf, Bool.or_false, Bool.false_eq_true, if_false,
    if_neg (Nat.pos_iff_ne_zero.mp hm), bne_self_eq_false]
  rw [f32Round_eq_pack, ← magOfBits_one, Nat.mul_comm, roundMag_exact hm (by norm_num)]
  rfl

/-- The pitch-step is not NaN and has a positive sign (44_mixer.md R313). -/
theorem pitch_nonneg {hz sr : F32} (h : frequencyOk hz = true) (hf : f32IsFinite sr = true)
    (hs : f32Sign sr = false) (hm : 0 < f32Mag sr) :
    f32IsNaN (f32Div hz sr) = false ∧ f32Sign (f32Div hz sr) = false := by
  obtain ⟨hzf, hzs, -⟩ := frequencyOk_spec h
  simp only [f32Div, not_nan_of_finite hf, not_nan_of_finite hzf, not_inf_of_finite hf, not_inf_of_finite hzf,
    Bool.or_false, Bool.false_eq_true, if_false, if_neg (Nat.pos_iff_ne_zero.mp hm), hs, hzs]
  simp

/-! Positions. -/

/-- A position is finite or `+inf`. -/
theorem positionOk_iff {x : F32} : positionOk x = true ↔ f32IsFinite x = true ∨ x = f32Inf false := by
  simp only [positionOk, Bool.and_eq_true, Bool.not_eq_true', decide_eq_false_iff_not]
  constructor
  · rintro ⟨hn, hi⟩
    by_cases hx : f32IsInf x = true
    · right
      rw [eq_inf_of_isInf hx] at hi ⊢
      cases hs : f32Sign x
      · rfl
      · rw [hs] at hi; exact absurd rfl hi
    · exact .inl (finite_of_not hn (by simpa using hx))
  · rintro (h | rfl)
    · refine ⟨not_nan_of_finite h, ?_⟩
      rintro rfl
      revert h; decide
    · decide

/-- A value that is not NaN and has a positive sign is a position. -/
theorem positionOk_of_nonneg {x : F32} (hn : f32IsNaN x = false) (hs : f32Sign x = false) : positionOk x = true := by
  simp only [positionOk, hn, Bool.not_false, Bool.true_and, Bool.not_eq_true', decide_eq_false_iff_not]
  rintro rfl
  revert hs; decide

theorem f32Val_nonneg {x : F32} (hs : f32Sign x = false) : 0 ≤ f32Val x := by simp [f32Val, hs]

theorem f32Val_ge_neg_mag (x : F32) : -(f32Mag x : Int) ≤ f32Val x := by
  simp only [f32Val]; split <;> omega

/-- A position plus a non-negative value is a position (44_mixer.md R309, R313). -/
theorem positionOk_add {x y : F32} (hx : positionOk x = true) (hn : f32IsNaN y = false) (hs : f32Sign y = false) :
    positionOk (f32Add x y) = true := by
  rcases positionOk_iff.mp hx with hx | rfl
  · by_cases hy : f32IsInf y = true
    · have e : f32Add x y = y := by
        simp [f32Add, not_nan_of_finite hx, hn, not_inf_of_finite hx, hy]
      rw [e]
      exact positionOk_of_nonneg hn hs
    · have hy := finite_of_not hn (by simpa using hy)
      rw [f32Add_finite hx hy]
      split
      · simp [hs]; decide
      · rename_i hne
        by_cases hneg : f32Val x + f32Val y < 0
        · refine positionOk_iff.mpr (.inl (f32IsFinite_round (by norm_num) ?_))
          have h1 := f32Val_nonneg hs
          have h2 := f32Val_ge_neg_mag x
          have h3 := f32Mag_le_of_finite hx
          omega
        · exact positionOk_of_nonneg (by simp) (by simp; omega)
  · have e : f32Add (f32Inf false) y = f32Inf false := by
      have h1 : f32IsNaN (f32Inf false) = false := by decide
      have h2 : f32IsInf (f32Inf false) = true := by decide
      have h3 : f32Sign (f32Inf false) = false := by decide
      simp [f32Add, h1, h2, h3, hn, hs]
    rw [e]; decide

/-- What is past the end of a segment is a non-negative distance (44_mixer.md R304, R313). -/
theorem f32Sub_of_gt {x y : F32} (hx : positionOk x = true) (hy : f32IsFinite y = true) (h : f32Gt x y = true) :
    f32IsNaN (f32Sub x y) = false ∧ f32Sign (f32Sub x y) = false := by
  rcases positionOk_iff.mp hx with hx | rfl
  · have hy' : f32IsFinite (f32Neg y) = true := by simpa using hy
    simp only [f32Gt, Bool.and_eq_true, decide_eq_true_eq] at h
    have hpos : 0 < f32Val x + f32Val (f32Neg y) := by rw [f32Val_neg]; omega
    rw [f32Sub, f32Add_finite hx hy', if_neg (by omega)]
    simp; omega
  · have e : f32Sub (f32Inf false) y = f32Inf false := by
      have h1 : f32IsNaN (f32Inf false) = false := by decide
      have h2 : f32IsInf (f32Inf false) = true := by decide
      simp [f32Sub, f32Add, h1, h2, not_nan_of_finite hy, not_inf_of_finite hy]
    rw [e]; decide

end Sys2Proof.Machine
end

