-- ==== Sys2Proof/Laws/State.lean ====
section
/-! SUPPORT. One lemma per field per update of the state, each true by rfl. -/

namespace Sys2Proof.Machine

@[simp] theorem State.fail_params (s : State) (c : Cause) : (s.fail c).params = s.params := rfl
@[simp] theorem State.fail_session (s : State) (c : Cause) : (s.fail c).session = s.session := rfl
@[simp] theorem State.fail_cmd (s : State) (c : Cause) : (s.fail c).cmd = s.cmd := rfl
@[simp] theorem State.fail_args (s : State) (c : Cause) : (s.fail c).args = s.args := rfl
@[simp] theorem State.fail_result (s : State) (c : Cause) : (s.fail c).result = 0#32 := rfl
@[simp] theorem State.fail_status (s : State) (c : Cause) : (s.fail c).status = statusFailed s.status c := rfl
@[simp] theorem State.fail_latched (s : State) (c : Cause) : (s.fail c).latched = s.latched := rfl
@[simp] theorem State.fail_remaining (s : State) (c : Cause) : (s.fail c).remaining = s.remaining := rfl
@[simp] theorem State.fail_delays (s : State) (c : Cause) : (s.fail c).delays = s.delays := rfl
@[simp] theorem State.fail_mem (s : State) (c : Cause) : (s.fail c).mem = s.mem := rfl
@[simp] theorem State.fail_host (s : State) (c : Cause) : (s.fail c).host = s.host := rfl
@[simp] theorem State.fail_readData (s : State) (c : Cause) : (s.fail c).readData = s.readData := rfl
@[simp] theorem State.fail_fresh (s : State) (c : Cause) : (s.fail c).fresh = s.fresh := rfl

@[simp] theorem State.succeed_params (s : State) (e : Effect) : (s.succeed e).params = s.params := rfl
@[simp] theorem State.succeed_session (s : State) (e : Effect) : (s.succeed e).session = e.session := rfl
@[simp] theorem State.succeed_cmd (s : State) (e : Effect) : (s.succeed e).cmd = s.cmd := rfl
@[simp] theorem State.succeed_args (s : State) (e : Effect) : (s.succeed e).args = s.args := rfl
@[simp] theorem State.succeed_result (s : State) (e : Effect) : (s.succeed e).result = e.result := rfl
@[simp] theorem State.succeed_status (s : State) (e : Effect) : (s.succeed e).status = statusSucceeded s.status e.session.init := rfl
@[simp] theorem State.succeed_latched (s : State) (e : Effect) : (s.succeed e).latched = s.latched := rfl
@[simp] theorem State.succeed_remaining (s : State) (e : Effect) : (s.succeed e).remaining = s.remaining := rfl
@[simp] theorem State.succeed_delays (s : State) (e : Effect) : (s.succeed e).delays = s.delays := rfl
@[simp] theorem State.succeed_mem (s : State) (e : Effect) : (s.succeed e).mem = e.mem := rfl
@[simp] theorem State.succeed_host (s : State) (e : Effect) : (s.succeed e).host = s.host := rfl
@[simp] theorem State.succeed_readData (s : State) (e : Effect) : (s.succeed e).readData = s.readData := rfl
@[simp] theorem State.succeed_fresh (s : State) (e : Effect) : (s.succeed e).fresh = s.fresh := rfl

@[simp] theorem State.accept_params (s : State) (w : Word) : (s.accept w).params = s.params := rfl
@[simp] theorem State.accept_session (s : State) (w : Word) : (s.accept w).session = s.session := rfl
@[simp] theorem State.accept_cmd (s : State) (w : Word) : (s.accept w).cmd = w := rfl
@[simp] theorem State.accept_args (s : State) (w : Word) : (s.accept w).args = s.args := rfl
@[simp] theorem State.accept_result (s : State) (w : Word) : (s.accept w).result = s.result := rfl
@[simp] theorem State.accept_status (s : State) (w : Word) : (s.accept w).status = statusAccepted s.status := rfl
@[simp] theorem State.accept_latched (s : State) (w : Word) : (s.accept w).latched = s.args := rfl
@[simp] theorem State.accept_remaining (s : State) (w : Word) : (s.accept w).remaining = s.delays.headD 0 := rfl
@[simp] theorem State.accept_delays (s : State) (w : Word) : (s.accept w).delays = s.delays.tail := rfl
@[simp] theorem State.accept_mem (s : State) (w : Word) : (s.accept w).mem = s.mem := rfl
@[simp] theorem State.accept_host (s : State) (w : Word) : (s.accept w).host = s.host := rfl
@[simp] theorem State.accept_readData (s : State) (w : Word) : (s.accept w).readData = s.readData := rfl
@[simp] theorem State.accept_fresh (s : State) (w : Word) : (s.accept w).fresh = s.fresh := rfl

@[simp] theorem State.launch_params (s : State) (w : Word) : (s.launch w).params = s.params := rfl
@[simp] theorem State.launch_session (s : State) (w : Word) : (s.launch w).session = s.session := rfl
@[simp] theorem State.launch_cmd (s : State) (w : Word) : (s.launch w).cmd = w := rfl
@[simp] theorem State.launch_args (s : State) (w : Word) : (s.launch w).args = s.args := rfl
@[simp] theorem State.launch_result (s : State) (w : Word) : (s.launch w).result = s.result := rfl
@[simp] theorem State.launch_status (s : State) (w : Word) : (s.launch w).status = statusAccepted s.status := rfl
@[simp] theorem State.launch_latched (s : State) (w : Word) : (s.launch w).latched = s.args := rfl
@[simp] theorem State.launch_remaining (s : State) (w : Word) : (s.launch w).remaining = 0 := rfl
@[simp] theorem State.launch_delays (s : State) (w : Word) : (s.launch w).delays = s.delays := rfl
@[simp] theorem State.launch_mem (s : State) (w : Word) : (s.launch w).mem = s.mem := rfl
@[simp] theorem State.launch_host (s : State) (w : Word) : (s.launch w).host = s.host := rfl
@[simp] theorem State.launch_readData (s : State) (w : Word) : (s.launch w).readData = s.readData := rfl
@[simp] theorem State.launch_fresh (s : State) (w : Word) : (s.launch w).fresh = s.fresh := rfl

@[simp] theorem statusFailed_busy (st : Status) (c : Cause) : (statusFailed st c).busy = false := rfl
@[simp] theorem statusFailed_err (st : Status) (c : Cause) : (statusFailed st c).err = true := rfl
@[simp] theorem statusFailed_errstk (st : Status) (c : Cause) : (statusFailed st c).errstk = true := rfl
@[simp] theorem statusFailed_ovr (st : Status) (c : Cause) : (statusFailed st c).ovr = st.ovr := rfl
@[simp] theorem statusFailed_init (st : Status) (c : Cause) : (statusFailed st c).init = st.init := rfl
@[simp] theorem statusFailed_cause (st : Status) (c : Cause) : (statusFailed st c).cause = c := rfl

@[simp] theorem statusSucceeded_busy (st : Status) (b : Bool) : (statusSucceeded st b).busy = false := rfl
@[simp] theorem statusSucceeded_err (st : Status) (b : Bool) : (statusSucceeded st b).err = false := rfl
@[simp] theorem statusSucceeded_errstk (st : Status) (b : Bool) : (statusSucceeded st b).errstk = st.errstk := rfl
@[simp] theorem statusSucceeded_ovr (st : Status) (b : Bool) : (statusSucceeded st b).ovr = st.ovr := rfl
@[simp] theorem statusSucceeded_init (st : Status) (b : Bool) : (statusSucceeded st b).init = b := rfl
@[simp] theorem statusSucceeded_cause (st : Status) (b : Bool) : (statusSucceeded st b).cause = .none := rfl

@[simp] theorem statusAccepted_busy (st : Status) : (statusAccepted st).busy = true := rfl
@[simp] theorem statusAccepted_err (st : Status) : (statusAccepted st).err = st.err := rfl
@[simp] theorem statusAccepted_errstk (st : Status) : (statusAccepted st).errstk = st.errstk := rfl
@[simp] theorem statusAccepted_ovr (st : Status) : (statusAccepted st).ovr = st.ovr := rfl
@[simp] theorem statusAccepted_init (st : Status) : (statusAccepted st).init = st.init := rfl
@[simp] theorem statusAccepted_cause (st : Status) : (statusAccepted st).cause = st.cause := rfl

@[simp] theorem statusOverrun_busy (st : Status) : (statusOverrun st).busy = st.busy := rfl
@[simp] theorem statusOverrun_err (st : Status) : (statusOverrun st).err = st.err := rfl
@[simp] theorem statusOverrun_errstk (st : Status) : (statusOverrun st).errstk = st.errstk := rfl
@[simp] theorem statusOverrun_ovr (st : Status) : (statusOverrun st).ovr = true := rfl
@[simp] theorem statusOverrun_init (st : Status) : (statusOverrun st).init = st.init := rfl
@[simp] theorem statusOverrun_cause (st : Status) : (statusOverrun st).cause = st.cause := rfl

@[simp] theorem statusWrite_busy (st : Status) (w : Word) : (statusWrite st w).busy = st.busy := rfl
@[simp] theorem statusWrite_err (st : Status) (w : Word) : (statusWrite st w).err = st.err := rfl
@[simp] theorem statusWrite_errstk (st : Status) (w : Word) : (statusWrite st w).errstk = (st.errstk && !w.getLsbD 2) := rfl
@[simp] theorem statusWrite_ovr (st : Status) (w : Word) : (statusWrite st w).ovr = (st.ovr && !w.getLsbD 3) := rfl
@[simp] theorem statusWrite_init (st : Status) (w : Word) : (statusWrite st w).init = st.init := rfl
@[simp] theorem statusWrite_cause (st : Status) (w : Word) : (statusWrite st w).cause = st.cause := rfl

@[simp] theorem afterReset_params (s : State) (m : Memory) (n : Nat) : (afterReset s m n).params = s.params := rfl
@[simp] theorem afterReset_session (s : State) (m : Memory) (n : Nat) : (afterReset s m n).session = .empty := rfl
@[simp] theorem afterReset_cmd (s : State) (m : Memory) (n : Nat) : (afterReset s m n).cmd = 0#32 := rfl
@[simp] theorem afterReset_args (s : State) (m : Memory) (n : Nat) : (afterReset s m n).args = .zero := rfl
@[simp] theorem afterReset_result (s : State) (m : Memory) (n : Nat) : (afterReset s m n).result = 0#32 := rfl
@[simp] theorem afterReset_status (s : State) (m : Memory) (n : Nat) : (afterReset s m n).status = .zero := rfl
@[simp] theorem afterReset_latched (s : State) (m : Memory) (n : Nat) : (afterReset s m n).latched = .zero := rfl
@[simp] theorem afterReset_remaining (s : State) (m : Memory) (n : Nat) : (afterReset s m n).remaining = 0 := rfl
@[simp] theorem afterReset_delays (s : State) (m : Memory) (n : Nat) : (afterReset s m n).delays = s.delays := rfl
@[simp] theorem afterReset_mem (s : State) (m : Memory) (n : Nat) : (afterReset s m n).mem = m := rfl
@[simp] theorem afterReset_host (s : State) (m : Memory) (n : Nat) : (afterReset s m n).host = s.host := rfl
@[simp] theorem afterReset_readData (s : State) (m : Memory) (n : Nat) : (afterReset s m n).readData = s.readData := rfl
@[simp] theorem afterReset_fresh (s : State) (m : Memory) (n : Nat) : (afterReset s m n).fresh = n := rfl

@[simp] theorem State.resetWith_params (p : Params) : (State.resetWith p).params = p := rfl
@[simp] theorem State.resetWith_session (p : Params) : (State.resetWith p).session = .empty := rfl
@[simp] theorem State.resetWith_cmd (p : Params) : (State.resetWith p).cmd = 0#32 := rfl
@[simp] theorem State.resetWith_args (p : Params) : (State.resetWith p).args = .zero := rfl
@[simp] theorem State.resetWith_result (p : Params) : (State.resetWith p).result = 0#32 := rfl
@[simp] theorem State.resetWith_status (p : Params) : (State.resetWith p).status = .zero := rfl
@[simp] theorem State.resetWith_latched (p : Params) : (State.resetWith p).latched = .zero := rfl
@[simp] theorem State.resetWith_remaining (p : Params) : (State.resetWith p).remaining = 0 := rfl
@[simp] theorem State.resetWith_delays (p : Params) : (State.resetWith p).delays = [] := rfl
@[simp] theorem State.resetWith_mem (p : Params) : (State.resetWith p).mem = [] := rfl
@[simp] theorem State.resetWith_host (p : Params) : (State.resetWith p).host = [] := rfl
@[simp] theorem State.resetWith_readData (p : Params) : (State.resetWith p).readData = 0 := rfl
@[simp] theorem State.resetWith_fresh (p : Params) : (State.resetWith p).fresh = 0 := rfl

end Sys2Proof.Machine
end

