-- ==== Sys2Proof/Laws/Ops.lean ====
section
/-! SUPPORT. What the shared operations of Machine/Ops.lean can do, once each: the opening checks, completion, and the
one inversion of exec: a command is refused or completes. -/

namespace Sys2Proof.Machine

@[simp] theorem State.complete_error (s : State) (c : Cause) : s.complete (.error c) = s.fail c := rfl

@[simp] theorem State.complete_ok (s : State) (e : Effect) : s.complete (.ok e) = s.succeed e := rfl

theorem completes_def (s : State) (r : Except Cause Effect) : completes s r = .next (s.complete r) := rfl

theorem requireInit_of_init {s : State} (h : s.session.init = true) (k : Except Cause Effect) :
    requireInit s k = k := by simp [requireInit, h]

theorem requireInit_of_not_init {s : State} (h : s.session.init = false) (k : Except Cause Effect) :
    requireInit s k = .error .state := by simp [requireInit, h]

/-- An opening check that passes leaves its continuation. -/
theorem requireInit_ok {s : State} {k : Except Cause Effect} {e : Effect} (h : requireInit s k = .ok e) :
    s.session.init = true ∧ k = .ok e := by
  unfold requireInit at h
  split at h
  · exact ⟨‹_›, h⟩
  · cases h

theorem lookupI_eq_some {α : Type} {l : List α} {i : Int} {x : α} :
    lookupI l i = some x ↔ 0 ≤ i ∧ l[i.toNat]? = some x := by
  unfold lookupI
  split <;> simp <;> omega

theorem lookupI_eq_none {α : Type} {l : List α} {i : Int} :
    lookupI l i = none ↔ i < 0 ∨ (l.length : Int) ≤ i := by
  unfold lookupI
  split <;> simp <;> omega

/-- `withVoice` that succeeds ran its continuation on an existing voice of a session. -/
theorem withVoice_ok {s : State} {k : Nat → Voice → Except Cause Effect} {e : Effect}
    (h : withVoice s k = .ok e) :
    s.session.init = true ∧ ∃ i v, 0 ≤ opI32 s.latched.arg0 ∧ i = (opI32 s.latched.arg0).toNat ∧
      s.session.voices[i]? = some v ∧ k i v = .ok e := by
  obtain ⟨hi, h⟩ := requireInit_ok h
  refine ⟨hi, ?_⟩
  split at h
  · cases h
  · rename_i v hv
    obtain ⟨h0, hv⟩ := lookupI_eq_some.mp hv
    exact ⟨_, v, h0, rfl, hv, h⟩

theorem withVoice_of_some {s : State} {k : Nat → Voice → Except Cause Effect} {v : Voice}
    (hi : s.session.init = true) (hv : lookupI s.session.voices (opI32 s.latched.arg0) = some v) :
    withVoice s k = k (opI32 s.latched.arg0).toNat v := by
  simp [withVoice, requireInit_of_init hi, hv]

theorem withVoice_of_none {s : State} {k : Nat → Voice → Except Cause Effect}
    (hi : s.session.init = true) (hv : lookupI s.session.voices (opI32 s.latched.arg0) = none) :
    withVoice s k = .error .range := by
  simp [withVoice, requireInit_of_init hi, hv]

theorem withVoice_of_not_init {s : State} {k : Nat → Voice → Except Cause Effect}
    (hi : s.session.init = false) : withVoice s k = .error .state := requireInit_of_not_init hi _

/-- `withFrame` that succeeds ran its continuation on an existing frame of an existing slot. -/
theorem withFrame_ok {s : State} {k : Nat → Nat → Sound → F32 → Except Cause Effect} {e : Effect}
    (h : withFrame s k = .ok e) :
    s.session.init = true ∧ ∃ n i snd x, n = (opI32 s.latched.arg0).toNat ∧
      i = (opI32 s.latched.arg1).toNat ∧ s.session.slots[n]? = some snd ∧ snd[i]? = some x ∧
      k n i snd x = .ok e := by
  obtain ⟨hi, h⟩ := requireInit_ok h
  refine ⟨hi, ?_⟩
  split at h
  · cases h
  · rename_i snd hs
    split at h
    · cases h
    · rename_i x hx
      exact ⟨_, _, snd, x, rfl, rfl, (lookupI_eq_some.mp hs).2, (lookupI_eq_some.mp hx).2, h⟩

theorem withFrame_of_some {s : State} {k : Nat → Nat → Sound → F32 → Except Cause Effect} {snd : Sound} {x : F32}
    (hi : s.session.init = true) (hs : lookupI s.session.slots (opI32 s.latched.arg0) = some snd)
    (hx : lookupI snd (opI32 s.latched.arg1) = some x) :
    withFrame s k = k (opI32 s.latched.arg0).toNat (opI32 s.latched.arg1).toNat snd x := by
  simp [withFrame, requireInit_of_init hi, hs, hx]

/-- exec is refused, or completes the command one way or the other. -/
theorem exec_cases (i : Instr) (s : State) :
    (∃ r, exec i s = .refused r) ∨ ∃ r, exec i s = .next (s.complete r) := by
  cases i
  case load =>
    simp only [exec, execLoad, completes]
    split
    · exact .inr ⟨_, rfl⟩
    · split
      · exact .inl ⟨_, rfl⟩
      · exact .inr ⟨_, rfl⟩
  case update =>
    simp only [exec, execUpdate, completes]
    split
    · exact .inr ⟨_, rfl⟩
    · split
      · exact .inl ⟨_, rfl⟩
      · exact .inr ⟨_, rfl⟩
  all_goals exact .inr ⟨_, rfl⟩

/-- A next state of exec is a completion. -/
theorem exec_next {i : Instr} {s t : State} (h : exec i s = .next t) : ∃ r, t = s.complete r := by
  rcases exec_cases i s with ⟨r, hr⟩ | ⟨r, hr⟩ <;> rw [hr] at h <;> cases h
  exact ⟨r, rfl⟩

/-- A completion failed, or succeeded with an effect. -/
theorem State.complete_cases (s : State) (r : Except Cause Effect) :
    (∃ c, s.complete r = s.fail c) ∨ ∃ e, s.complete r = s.succeed e := by
  cases r
  · exact .inl ⟨_, rfl⟩
  · exact .inr ⟨_, rfl⟩

end Sys2Proof.Machine
end

