-- ==== Sys2Proof/Laws/Memory.lean ====
section
/-! SUPPORT. Host memory: the canonical form and its preservation, read after write, and what a write leaves alone. -/

namespace Sys2Proof.Machine

/-- The canonical form, entry by entry. -/
theorem Memory.wf_cons {a : Nat} {b : Byte} {m : Memory} :
    Memory.wf ((a, b) :: m) = true ↔
      b ≠ Memory.unlisted ∧ (∀ c ∈ m, a < c.1) ∧ Memory.wf m = true := by
  induction m generalizing a b with
  | nil => simp [Memory.wf]
  | cons c m ih =>
    obtain ⟨a', b'⟩ := c
    simp only [Memory.wf, Bool.and_eq_true, decide_eq_true_eq, List.mem_cons, forall_eq_or_imp]
    constructor
    · rintro ⟨⟨hb, hlt⟩, hw⟩
      exact ⟨hb, ⟨hlt, fun c hc => hlt.trans ((ih.mp hw).2.1 c hc)⟩, hw⟩
    · rintro ⟨hb, ⟨hlt, -⟩, hw⟩
      exact ⟨⟨hb, hlt⟩, hw⟩

@[simp] theorem Memory.wf_nil : Memory.wf [] = true := rfl

@[simp] theorem Memory.read8_nil (k : Nat) : Memory.read8 [] k = Memory.unlisted := rfl

/-- An address below every listed one reads as the unlisted byte. -/
theorem Memory.read8_of_lt {m : Memory} {k : Nat} (h : ∀ c ∈ m, k < c.1) :
    Memory.read8 m k = Memory.unlisted := by
  induction m with
  | nil => rfl
  | cons c m ih =>
    obtain ⟨a, b⟩ := c
    have := h (a, b) (by simp)
    rw [Memory.read8, if_neg (by omega)]
    exact ih fun c hc => h c (by simp [hc])

/-- The entries of a write: the written one, and old ones. -/
theorem Memory.mem_write8 {m : Memory} {k : Nat} {v : Byte} {c : Host.Cell}
    (h : c ∈ Memory.write8 m k v) : c = (k, v) ∨ c ∈ m := by
  induction m with
  | nil => simp only [Memory.write8] at h; split at h <;> simp_all
  | cons d m ih =>
    obtain ⟨a, b⟩ := d
    simp only [Memory.write8] at h
    split at h
    · split at h <;> simp_all
    · split at h
      · split at h <;> simp_all
        tauto
      · rcases List.mem_cons.mp h with h | h
        · simp [h]
        · rcases ih h with h | h <;> simp [h]

/-- A write keeps the canonical form. -/
theorem Memory.write8_wf {m : Memory} (h : Memory.wf m = true) (k : Nat) (v : Byte) :
    Memory.wf (Memory.write8 m k v) = true := by
  induction m with
  | nil => simp only [Memory.write8]; split <;> simp_all [Memory.wf]
  | cons d m ih =>
    obtain ⟨a, b⟩ := d
    obtain ⟨hb, hlt, hw⟩ := Memory.wf_cons.mp h
    simp only [Memory.write8]
    split
    · split
      · exact h
      · refine Memory.wf_cons.mpr ⟨‹_›, fun c hc => ?_, h⟩
        rcases List.mem_cons.mp hc with rfl | hc
        · assumption
        · have := hlt c hc; omega
    · split
      · split
        · exact hw
        · subst_vars
          exact Memory.wf_cons.mpr ⟨‹_›, hlt, hw⟩
      · refine Memory.wf_cons.mpr ⟨hb, fun c hc => ?_, ih hw⟩
        rcases Memory.mem_write8 hc with rfl | hc
        · simp only; omega
        · exact hlt c hc

/-- A byte read after a byte write. -/
theorem Memory.read8_write8 {m : Memory} (h : Memory.wf m = true) (k x : Nat) (v : Byte) :
    Memory.read8 (Memory.write8 m k v) x = if x = k then v else Memory.read8 m x := by
  induction m with
  | nil =>
    simp only [Memory.write8]
    split <;> simp_all [Memory.read8]
  | cons d m ih =>
    obtain ⟨a, b⟩ := d
    obtain ⟨hb, hlt, hw⟩ := Memory.wf_cons.mp h
    simp only [Memory.write8]
    split
    · rename_i hka
      have hk : Memory.read8 ((a, b) :: m) k = Memory.unlisted := by
        refine Memory.read8_of_lt fun c hc => ?_
        rcases List.mem_cons.mp hc with rfl | hc
        · exact hka
        · exact hka.trans (hlt c hc)
      split
      · rename_i hv
        split
        · rename_i hx; rw [hx, hk, hv]
        · rfl
      · rw [Memory.read8]
    · split
      · rename_i hka
        subst hka
        split
        · rename_i hv
          by_cases hx : x = k
          · rw [if_pos hx, hx, hv, Memory.read8_of_lt hlt]
          · simp [Memory.read8, hx]
        · by_cases hx : x = k <;> simp [Memory.read8, hx]
      · simp only [Memory.read8]
        by_cases hx : x = a
        · subst hx; rw [if_pos rfl, if_neg (by omega), if_pos rfl]
        · simp [hx, ih hw]

theorem Memory.writeBytes_wf {m : Memory} (h : Memory.wf m = true) (a v n : Nat) :
    Memory.wf (Memory.writeBytes m a v n) = true := by
  induction n with
  | zero => exact h
  | succ n ih => exact Memory.write8_wf ih _ _

/-- Every write keeps the canonical form. -/
theorem Memory.write_wf {m : Memory} (h : Memory.wf m = true) (a : Nat) (w : Width) (v : Word) :
    Memory.wf (Memory.write m a w v) = true := Memory.writeBytes_wf h _ _ _

theorem Memory.read8_writeBytes {m : Memory} (h : Memory.wf m = true) (a v n x : Nat) :
    Memory.read8 (Memory.writeBytes m a v n) x =
      if a ≤ x ∧ x < a + n then BitVec.ofNat 8 (v >>> (8 * (x - a))) else Memory.read8 m x := by
  induction n with
  | zero => rw [Memory.writeBytes, if_neg (by omega)]
  | succ n ih =>
    rw [Memory.writeBytes, Memory.read8_write8 (Memory.writeBytes_wf h _ _ _), ih]
    by_cases hx : x = a + n
    · subst hx; simp
    · rw [if_neg hx]
      congr 1
      simp only [eq_iff_iff]
      omega

/-- A byte read after a write: the written byte inside, the old byte outside. -/
theorem Memory.read8_write {m : Memory} (h : Memory.wf m = true) (a : Nat) (w : Width) (v : Word) (x : Nat) :
    Memory.read8 (Memory.write m a w v) x =
      if a ≤ x ∧ x < a + w.bytes then v.extractLsb' (8 * (x - a)) 8 else Memory.read8 m x :=
  Memory.read8_writeBytes h _ _ _ _

/-- A value is made of its bytes. -/
theorem bytesValue_congr {n : Nat} {f g : Nat → Byte} (h : ∀ i, i < n → f i = g i) :
    bytesValue f n = bytesValue g n := by
  induction n with
  | zero => rfl
  | succ n ih => rw [bytesValue, bytesValue, h n (by omega), ih fun i hi => h i (by omega)]

/-- The value of `n` bytes fits in `8 * n` bits. -/
theorem bytesValue_lt (f : Nat → Byte) (n : Nat) : bytesValue f n < 2 ^ (8 * n) := by
  induction n with
  | zero => simp [bytesValue]
  | succ n ih =>
    have h : (f n).toNat * 2 ^ (8 * n) ≤ 255 * 2 ^ (8 * n) := Nat.mul_le_mul_right _ (by omega)
    have e : 2 ^ (8 * (n + 1)) = 256 * 2 ^ (8 * n) := by
      rw [Nat.mul_succ, pow_add, Nat.mul_comm]; norm_num
    rw [bytesValue, e]
    omega

/-- Each byte stands in the value at its place. -/
theorem bytesValue_byte (f : Nat → Byte) {n k : Nat} (h : k < n) :
    bytesValue f n >>> (8 * k) % 256 = (f k).toNat := by
  induction n with
  | zero => omega
  | succ n ih =>
    rw [bytesValue, Nat.shiftRight_eq_div_pow]
    rcases Nat.lt_succ_iff_lt_or_eq.mp h with hk | rfl
    · have e : 2 ^ (8 * n) = 2 ^ (8 * (n - k - 1)) * 256 * 2 ^ (8 * k) := by
        rw [show (256 : Nat) = 2 ^ 8 from rfl, ← pow_add, ← pow_add]; congr 1; omega
      rw [e, ← Nat.mul_assoc, Nat.add_mul_div_right _ _ (by positivity), ← Nat.mul_assoc,
        Nat.add_mul_mod_self_right, ← Nat.shiftRight_eq_div_pow, ih hk]
    · rw [Nat.add_mul_div_right _ _ (by positivity), Nat.div_eq_of_lt (bytesValue_lt f k), Nat.zero_add,
        Nat.mod_eq_of_lt (f k).isLt]

/-- The value of the bytes of a number is its low part. -/
theorem bytesValue_of_nat (v n : Nat) :
    bytesValue (fun i => BitVec.ofNat 8 (v >>> (8 * i))) n = v % 2 ^ (8 * n) := by
  induction n with
  | zero => simp [bytesValue, Nat.mod_one]
  | succ n ih =>
    rw [bytesValue, ih, Nat.mul_succ, pow_add, Nat.mod_mul, BitVec.toNat_ofNat, Nat.shiftRight_eq_div_pow,
      Nat.mul_comm (_ % _)]

/-- A read as the value of its bytes; no width exceeds a word. -/
theorem Memory.read_toNat (m : Memory) (a : Nat) (w : Width) :
    (Memory.read m a w).toNat = bytesValue (fun i => Memory.read8 m (a + i)) w.bytes := by
  rw [Memory.read, BitVec.toNat_ofNat, Nat.mod_eq_of_lt]
  exact (bytesValue_lt _ _).trans_le (Nat.pow_le_pow_right (by omega) (by cases w <;> simp [Width.bytes]))

/-- A value read back after it was written: its low `8 * n` bits. -/
theorem Memory.bytesValue_writeBytes {m : Memory} (h : Memory.wf m = true) (a v n : Nat) :
    bytesValue (fun i => Memory.read8 (Memory.writeBytes m a v n) (a + i)) n = v % 2 ^ (8 * n) := by
  rw [← bytesValue_of_nat]
  refine bytesValue_congr fun i hi => ?_
  rw [Memory.read8_writeBytes h, if_pos (by omega), Nat.add_sub_cancel_left]

/-- A word read back after it was written. -/
theorem Memory.read_write_same {m : Memory} (h : Memory.wf m = true) (a : Nat) (v : Word) :
    Memory.read (Memory.write m a .w32 v) a .w32 = v := by
  apply BitVec.eq_of_toNat_eq
  rw [Memory.read_toNat, Memory.write, Memory.bytesValue_writeBytes h]
  exact Nat.mod_eq_of_lt v.isLt

/-- Reads agree where the bytes agree. -/
theorem Memory.read_congr {m m' : Memory} {a : Nat} {w : Width}
    (h : ∀ x, a ≤ x → x < a + w.bytes → Memory.read8 m x = Memory.read8 m' x) :
    Memory.read m a w = Memory.read m' a w :=
  congrArg (BitVec.ofNat 32) (bytesValue_congr fun i hi => h (a + i) (by omega) (by omega))

/-- A read that shares no byte with a write is unchanged. -/
theorem Memory.read_write_other {m : Memory} (h : Memory.wf m = true) {a b : Nat} {w u : Width} (v : Word)
    (hd : b + u.bytes ≤ a ∨ a + w.bytes ≤ b) :
    Memory.read (Memory.write m a w v) b u = Memory.read m b u :=
  Memory.read_congr fun x h1 h2 => by rw [Memory.read8_write h, if_neg (by omega)]

/-- Nothing is listed at or past `n`. -/
def Memory.Below (n : Nat) (m : Memory) : Prop := ∀ c ∈ m, c.1 < n

theorem Memory.writeBytes_below {m : Memory} {n : Nat} (h : m.Below n) (a v : Nat) {k : Nat}
    (hk : a + k ≤ n) : (Memory.writeBytes m a v k).Below n := by
  induction k with
  | zero => exact h
  | succ k ih =>
    intro c hc
    rcases Memory.mem_write8 hc with rfl | hc
    · simp only; omega
    · exact ih (by omega) c hc

/-- A write inside a bound keeps memory inside it. -/
theorem Memory.write_below {m : Memory} {n : Nat} (h : m.Below n) {a : Nat} {w : Width} (v : Word)
    (hk : a + w.bytes ≤ n) : (Memory.write m a w v).Below n := Memory.writeBytes_below h a _ hk

end Sys2Proof.Machine
end

