-- ==== Sys2Proof/Laws/HostPort.lean ====
section
/-! SUPPORT. What a host access and the reset input can do, once each (10_state.md R55 to R63, 20_memory.md R97,
70_reset_and_hazards.md R380, R381). -/

namespace Sys2Proof.Machine

/-- A host access that goes on reached host memory: it missed the window and every device, and lies inside. -/
theorem onHostMemory_next {s t : State} {a n : Nat} {k : Host.Outcome State Fault Refusal}
    (h : onHostMemory s a n k = .next t) :
    rangesMeet a n s.params.ctrlBase Config.windowBytes = false ∧
      (∀ d ∈ s.params.devices, rangesMeet a n d.1 d.2 = false) ∧ a + n ≤ s.params.hostMemBytes ∧ k = .next t := by
  unfold onHostMemory at h
  split at h
  · cases h
  · split at h
    · cases h
    · rename_i hd
      split at h
      · cases h
      · exact ⟨by simp_all, by simpa using hd, by omega, h⟩

/-- A host read changes nothing but what the host has read and the counter of free values. -/
theorem hostRead_next {s t : State} {a n : Nat} (h : hostRead s a n = .next t) :
    ∃ d f, t = { s with readData := d, fresh := f } := by
  unfold hostRead at h
  split at h
  · cases h; exact ⟨_, _, rfl⟩
  · cases (onHostMemory_next h).2.2.2; exact ⟨_, _, rfl⟩

/-- A host write is a register access, or writes its bytes inside host memory and outside the region in flight. -/
theorem hostWrite_next {s t : State} {a n data : Nat} (h : hostWrite s a n data = .next t) :
    t = windowWrite s (a - s.params.ctrlBase) n data ∨
      (a + n ≤ s.params.hostMemBytes ∧ touchesInFlight s a n = false ∧
        t = { s with mem := Memory.writeBytes s.mem a data n }) := by
  unfold hostWrite at h
  split at h
  · cases h; exact .inl rfl
  · obtain ⟨-, -, hb, hk⟩ := onHostMemory_next h
    split at hk
    · cases hk
    · cases hk; exact .inr ⟨hb, by simp_all, rfl⟩

/-- A reset leaves the reset state; it changes host memory only where it abandons an `UPDATE`. -/
theorem assertReset_next {s t : State} (h : assertReset s = .next t) :
    inFlightRefusal s = none ∧
      ((inFlightUpdate s = none ∧ t = afterReset s s.mem s.fresh) ∨
        ∃ p, inFlightUpdate s = some p ∧
          t = afterReset s (abandonWords s.fresh p.buf (2 * p.frames) 0 s.mem) (s.fresh + 2 * p.frames)) := by
  unfold assertReset at h
  split at h
  · cases h
  · refine ⟨‹_›, ?_⟩
    split at h <;> cases h
    · exact .inl ⟨‹_›, rfl⟩
    · exact .inr ⟨_, ‹_›, rfl⟩

/-- A reset is refused exactly for the region of the command it abandons. -/
theorem assertReset_refused {s : State} {r : Refusal} :
    assertReset s = .refused r ↔ inFlightRefusal s = some r := by
  unfold assertReset
  split
  · simp_all
  · split <;> simp_all

end Sys2Proof.Machine
end

