-- ==== Sys2Proof/Laws/Mixer.lean ====
section
/-! SUPPORT. What `UPDATE`'s loops can do (44_mixer.md): the fields of a voice they keep, the position they keep in range,
the memory they leave alone, and the words the global pass leaves. -/

namespace Sys2Proof.Machine

/-- What `UPDATE` never changes in a voice; it may only unbind it (R305). -/
structure Voice.Kept (v v' : Voice) : Prop where
  freq : v'.freq = v.freq
  pitch : v'.pitch = v.pitch
  vol : v'.vol = v.vol
  pan : v'.pan = v.pan
  gl : v'.gl = v.gl
  gr : v'.gr = v.gr
  rstart : v'.rstart = v.rstart
  rend : v'.rend = v.rend
  mode : v'.mode = v.mode
  sound : v'.sound = v.sound ∨ v'.sound = none

theorem Voice.Kept.refl (v : Voice) : v.Kept v := ⟨rfl, rfl, rfl, rfl, rfl, rfl, rfl, rfl, rfl, .inl rfl⟩

theorem Voice.Kept.trans {a b c : Voice} (h : a.Kept b) (h' : b.Kept c) : a.Kept c where
  freq := h'.freq.trans h.freq
  pitch := h'.pitch.trans h.pitch
  vol := h'.vol.trans h.vol
  pan := h'.pan.trans h.pan
  gl := h'.gl.trans h.gl
  gr := h'.gr.trans h.gr
  rstart := h'.rstart.trans h.rstart
  rend := h'.rend.trans h.rend
  mode := h'.mode.trans h.mode
  sound := by
    rcases h'.sound with e | e
    · rw [e]; exact h.sound
    · exact .inr e

/-- The end check either ends the voice, leaves it, or wraps a loop past its end. -/
theorem frameStart_cases (v : Voice) :
    (frameStart v = none ∧ f32Gt v.pos v.rend = true ∧ v.mode = .single) ∨
      (frameStart v = some v ∧ f32Gt v.pos v.rend = false) ∨
      (frameStart v = some { v with pos := f32Add v.rstart (f32Sub v.pos v.rend) } ∧
        f32Gt v.pos v.rend = true ∧ v.mode = .loop) := by
  unfold frameStart
  split
  · split <;> simp_all
  · simp_all

theorem frameStart_kept {v v' : Voice} (h : frameStart v = some v') : v.Kept v' := by
  rcases frameStart_cases v with ⟨e, -⟩ | ⟨e, -⟩ | ⟨e, -⟩ <;> rw [e] at h <;> cases h <;>
    exact ⟨rfl, rfl, rfl, rfl, rfl, rfl, rfl, rfl, rfl, .inl rfl⟩

theorem fetch_kept (snd : Sound) (v : Voice) : v.Kept (fetch snd v) := by
  unfold fetch
  dsimp only
  split
  · exact .refl v
  · exact ⟨rfl, rfl, rfl, rfl, rfl, rfl, rfl, rfl, rfl, .inl rfl⟩

@[simp] theorem fetch_pos (snd : Sound) (v : Voice) : (fetch snd v).pos = v.pos := by
  unfold fetch; dsimp only; split <;> rfl

/-- After the fetch the cached floor is the floor of the position (R306). -/
@[simp] theorem fetch_ipos (snd : Sound) (v : Voice) : (fetch snd v).ipos = f32FloorSat v.pos := by
  unfold fetch; dsimp only; split
  · simp [*]
  · rfl

theorem advance_kept (v : Voice) : v.Kept (advance v) := ⟨rfl, rfl, rfl, rfl, rfl, rfl, rfl, rfl, rfl, .inl rfl⟩

/-- A frame that is not terminated, and one that is. -/
theorem mixVoice_succ (snd : Sound) (buf n i : Nat) (v : Voice) (m : Memory) :
    mixVoice snd buf (n + 1) i v m =
      match frameStart v with
      | none => ({ v with sound := none }, m)
      | some v1 =>
        mixVoice snd buf n (i + 1) (advance (fetch snd v1)) (accumulate (fetch snd v1) (buf + 8 * i) m) := rfl

theorem mixVoice_kept (snd : Sound) (buf n i : Nat) (v : Voice) (m : Memory) :
    v.Kept (mixVoice snd buf n i v m).1 := by
  induction n generalizing i v m with
  | zero => exact .refl v
  | succ n ih =>
    rw [mixVoice_succ]
    split
    · exact ⟨rfl, rfl, rfl, rfl, rfl, rfl, rfl, rfl, rfl, .inr rfl⟩
    · rename_i v1 h
      exact (frameStart_kept h).trans ((fetch_kept snd v1).trans ((advance_kept _).trans (ih _ _ _)))

/-- What a voice goes through does not depend on the buffer. -/
theorem mixVoice_voice_indep (snd : Sound) (buf buf' n i i' : Nat) (v : Voice) (m m' : Memory) :
    (mixVoice snd buf n i v m).1 = (mixVoice snd buf' n i' v m').1 := by
  induction n generalizing i i' v m m' with
  | zero => rfl
  | succ n ih =>
    rw [mixVoice_succ, mixVoice_succ]
    split
    · rfl
    · exact ih _ _ _ _ _

/-- The loop wrap and the advance keep a position a position (R313). -/
theorem mixVoice_position {snd : Sound} {buf n i : Nat} {v : Voice} {m : Memory} (hp : positionOk v.pos = true)
    (hrs : f32IsFinite v.rstart = true) (hre : f32IsFinite v.rend = true)
    (hn : f32IsNaN v.pitch = false) (hs : f32Sign v.pitch = false) :
    positionOk (mixVoice snd buf n i v m).1.pos = true := by
  induction n generalizing i v m with
  | zero => exact hp
  | succ n ih =>
    rw [mixVoice_succ]
    split
    · exact hp
    · rename_i v1 h
      have k := (frameStart_kept h).trans ((fetch_kept snd v1).trans (advance_kept _))
      have hp1 : positionOk v1.pos = true := by
        rcases frameStart_cases v with ⟨e, -⟩ | ⟨e, -⟩ | ⟨e, hg, -⟩ <;> rw [e] at h <;> cases h
        · exact hp
        · obtain ⟨h1, h2⟩ := f32Sub_of_gt hp hre hg
          exact positionOk_add (positionOk_iff.mpr (.inl hrs)) h1 h2
      refine ih ?_ (by rw [k.rstart]; exact hrs) (by rw [k.rend]; exact hre) (by rw [k.pitch]; exact hn)
        (by rw [k.pitch]; exact hs)
      have hv1 : (fetch snd v1).pitch = v.pitch := ((frameStart_kept h).trans (fetch_kept snd v1)).pitch
      simp only [advance, fetch_pos, hv1]
      exact positionOk_add hp1 hn hs

/-! Memory. -/

theorem addLane_wf {m : Memory} (h : Memory.wf m = true) (a : Nat) (x : F32) : Memory.wf (addLane m a x) = true :=
  Memory.write_wf h _ _ _

theorem accumulate_wf {m : Memory} (h : Memory.wf m = true) (v : Voice) (a : Nat) :
    Memory.wf (accumulate v a m) = true := addLane_wf (addLane_wf h _ _) _ _

/-- A frame is written in its eight bytes only (R308). -/
theorem accumulate_read8 {m : Memory} (h : Memory.wf m = true) (v : Voice) {a x : Nat} (hx : x < a ∨ a + 8 ≤ x) :
    Memory.read8 (accumulate v a m) x = Memory.read8 m x := by
  simp only [accumulate, addLane]
  rw [Memory.read8_write (Memory.write_wf h _ _ _), Memory.read8_write h, if_neg, if_neg] <;>
    simp only [Width.bytes] <;> omega

theorem accumulate_below {m : Memory} {n : Nat} (h : m.Below n) (v : Voice) {a : Nat} (ha : a + 8 ≤ n) :
    (accumulate v a m).Below n :=
  Memory.write_below (Memory.write_below h _ (by simp only [Width.bytes]; omega)) _ (by simp only [Width.bytes]; omega)

theorem mixVoice_wf {m : Memory} (h : Memory.wf m = true) (snd : Sound) (buf n i : Nat) (v : Voice) :
    Memory.wf (mixVoice snd buf n i v m).2 = true := by
  induction n generalizing i v m with
  | zero => exact h
  | succ n ih =>
    rw [mixVoice_succ]
    split
    · exact h
    · exact ih (accumulate_wf h _ _) _ _

/-- A voice writes only the frames it is given. -/
theorem mixVoice_read8 {m : Memory} (h : Memory.wf m = true) (snd : Sound) {buf n i : Nat} (v : Voice) {x : Nat}
    (hx : x < buf + 8 * i ∨ buf + 8 * (i + n) ≤ x) :
    Memory.read8 (mixVoice snd buf n i v m).2 x = Memory.read8 m x := by
  induction n generalizing i v m with
  | zero => rfl
  | succ n ih =>
    rw [mixVoice_succ]
    split
    · rfl
    · rw [ih (accumulate_wf h _ _) _ (by omega), accumulate_read8 h _ (by omega)]

theorem mixVoice_below {m : Memory} {b : Nat} (h : m.Below b) (snd : Sound) {buf n i : Nat} (v : Voice)
    (hb : buf + 8 * (i + n) ≤ b) : (mixVoice snd buf n i v m).2.Below b := by
  induction n generalizing i v m with
  | zero => exact h
  | succ n ih =>
    rw [mixVoice_succ]
    split
    · exact h
    · exact ih (accumulate_below h _ (by omega)) _ (by omega)

/-- One voice's turn of the voice loop. -/
def mixTurn (slots : List Sound) (buf n : Nat) (v : Voice) (m : Memory) : Voice × Memory :=
  match activeSound slots v with
  | none => (v, m)
  | some snd => mixVoice snd buf n 0 v m

theorem mixVoices_cons (slots : List Sound) (buf n : Nat) (v : Voice) (vs : List Voice) (m : Memory) :
    mixVoices slots buf n (v :: vs) m =
      ⟨(mixTurn slots buf n v m).1 :: (mixVoices slots buf n vs (mixTurn slots buf n v m).2).voices,
        (mixVoices slots buf n vs (mixTurn slots buf n v m).2).mem,
        (mixVoices slots buf n vs (mixTurn slots buf n v m).2).active +
          (if (activeSound slots v).isSome then 1 else 0)⟩ := by
  rw [mixVoices, mixTurn]
  split <;> simp_all

theorem mixTurn_kept (slots : List Sound) (buf n : Nat) (v : Voice) (m : Memory) :
    v.Kept (mixTurn slots buf n v m).1 := by
  unfold mixTurn
  split
  · exact .refl v
  · exact mixVoice_kept _ _ _ _ _ _

theorem mixTurn_wf {m : Memory} (h : Memory.wf m = true) (slots : List Sound) (buf n : Nat) (v : Voice) :
    Memory.wf (mixTurn slots buf n v m).2 = true := by
  unfold mixTurn
  split
  · exact h
  · exact mixVoice_wf h _ _ _ _ _

theorem mixTurn_read8 {m : Memory} (h : Memory.wf m = true) (slots : List Sound) {buf n : Nat} (v : Voice) {x : Nat}
    (hx : x < buf ∨ buf + 8 * n ≤ x) :
    Memory.read8 (mixTurn slots buf n v m).2 x = Memory.read8 m x := by
  unfold mixTurn
  split
  · rfl
  · exact mixVoice_read8 h _ _ (by omega)

theorem mixTurn_below {m : Memory} {b : Nat} (h : m.Below b) (slots : List Sound) {buf n : Nat} (v : Voice)
    (hb : buf + 8 * n ≤ b) : (mixTurn slots buf n v m).2.Below b := by
  unfold mixTurn
  split
  · exact h
  · exact mixVoice_below h _ _ (by omega)

@[simp] theorem mixVoices_length (slots : List Sound) (buf n : Nat) (vs : List Voice) (m : Memory) :
    (mixVoices slots buf n vs m).voices.length = vs.length := by
  induction vs generalizing m with
  | nil => rfl
  | cons v vs ih => rw [mixVoices_cons]; simp [ih]

theorem mixVoices_wf {m : Memory} (h : Memory.wf m = true) (slots : List Sound) (buf n : Nat) (vs : List Voice) :
    Memory.wf (mixVoices slots buf n vs m).mem = true := by
  induction vs generalizing m with
  | nil => exact h
  | cons v vs ih => rw [mixVoices_cons]; exact ih (mixTurn_wf h _ _ _ _)

theorem mixVoices_read8 {m : Memory} (h : Memory.wf m = true) (slots : List Sound) {buf n : Nat} (vs : List Voice)
    {x : Nat} (hx : x < buf ∨ buf + 8 * n ≤ x) :
    Memory.read8 (mixVoices slots buf n vs m).mem x = Memory.read8 m x := by
  induction vs generalizing m with
  | nil => rfl
  | cons v vs ih => rw [mixVoices_cons]; simp only; rw [ih (mixTurn_wf h _ _ _ _), mixTurn_read8 h _ _ hx]

theorem mixVoices_below {m : Memory} {b : Nat} (h : m.Below b) (slots : List Sound) {buf n : Nat} (vs : List Voice)
    (hb : buf + 8 * n ≤ b) : (mixVoices slots buf n vs m).mem.Below b := by
  induction vs generalizing m with
  | nil => exact h
  | cons v vs ih => rw [mixVoices_cons]; exact ih (mixTurn_below h _ _ hb)

/-- A property of single voices that a voice's turn keeps holds of all voices afterwards. -/
theorem mixVoices_forall {P : Voice → Prop} {slots : List Sound} {buf n : Nat}
    (hP : ∀ v m, P v → P (mixTurn slots buf n v m).1) {vs : List Voice} {m : Memory} (h : ∀ v ∈ vs, P v) :
    ∀ v ∈ (mixVoices slots buf n vs m).voices, P v := by
  induction vs generalizing m with
  | nil => intro v hv; cases hv
  | cons v vs ih =>
    rw [mixVoices_cons]
    intro w hw
    rcases List.mem_cons.mp hw with rfl | hw
    · exact hP _ _ (h v (by simp))
    · exact ih (fun u hu => h u (by simp [hu])) w hw

/-- The count never exceeds the number of voices (10_state.md R34). -/
theorem mixVoices_active_le (slots : List Sound) (buf n : Nat) (vs : List Voice) (m : Memory) :
    (mixVoices slots buf n vs m).active ≤ vs.length := by
  induction vs generalizing m with
  | nil => exact Nat.le_refl 0
  | cons v vs ih =>
    rw [mixVoices_cons]
    have := ih (mixTurn slots buf n v m).2
    simp only [List.length_cons]
    split <;> omega

theorem globalPass_wf {m : Memory} (h : Memory.wf m = true) (g : F32) (buf n k : Nat) :
    Memory.wf (globalPass g buf n k m) = true := by
  induction n generalizing k m with
  | zero => exact h
  | succ n ih => exact ih (Memory.write_wf h _ _ _) _

/-- The global pass writes only its words. -/
theorem globalPass_read8 {m : Memory} (h : Memory.wf m = true) (g : F32) {buf n k x : Nat}
    (hx : x < buf + 4 * k ∨ buf + 4 * (k + n) ≤ x) :
    Memory.read8 (globalPass g buf n k m) x = Memory.read8 m x := by
  induction n generalizing k m with
  | zero => rfl
  | succ n ih =>
    rw [globalPass, ih (Memory.write_wf h _ _ _) (by omega), Memory.read8_write h, if_neg]
    simp only [Width.bytes]; omega

theorem globalPass_below {m : Memory} {b : Nat} (h : m.Below b) (g : F32) {buf n k : Nat}
    (hb : buf + 4 * (k + n) ≤ b) : (globalPass g buf n k m).Below b := by
  induction n generalizing k m with
  | zero => exact h
  | succ n ih => exact ih (Memory.write_below h _ (by simp only [Width.bytes]; omega)) (by omega)

theorem abandonWords_wf {m : Memory} (h : Memory.wf m = true) (f buf n k : Nat) :
    Memory.wf (abandonWords f buf n k m) = true := by
  induction n generalizing k m with
  | zero => exact h
  | succ n ih => exact ih (Memory.write_wf h _ _ _) _

/-- An abandoned `UPDATE` disturbs only its buffer (70_reset_and_hazards.md R381). -/
theorem abandonWords_read8 {m : Memory} (h : Memory.wf m = true) {f buf n k x : Nat}
    (hx : x < buf + 4 * k ∨ buf + 4 * (k + n) ≤ x) :
    Memory.read8 (abandonWords f buf n k m) x = Memory.read8 m x := by
  induction n generalizing k m with
  | zero => rfl
  | succ n ih =>
    rw [abandonWords, ih (Memory.write_wf h _ _ _) (by omega), Memory.read8_write h, if_neg]
    simp only [Width.bytes]; omega

theorem abandonWords_below {m : Memory} {b : Nat} (h : m.Below b) {f buf n k : Nat}
    (hb : buf + 4 * (k + n) ≤ b) : (abandonWords f buf n k m).Below b := by
  induction n generalizing k m with
  | zero => exact h
  | succ n ih => exact ih (Memory.write_below h _ (by simp only [Width.bytes]; omega)) (by omega)

/-- The plan of an `UPDATE` that passes its checks. -/
theorem updatePlan_ok {s : State} {p : UpdatePlan} (h : updatePlan s = .ok p) :
    s.session.init = true ∧ p.buf ≠ 0 ∧ 1 ≤ p.frames ∧ p.buf % 4 = 0 ∧
      p.buf + 8 * p.frames ≤ s.params.hostMemBytes ∧ p.buf = opU32 s.latched.arg0 ∧
      (p.frames : Int) = opI32 s.latched.arg1 := by
  simp only [updatePlan] at h
  split at h
  · cases h
  split at h
  · cases h
  split at h
  · cases h
  split at h
  · cases h
  split at h
  · cases h
  cases h
  simp_all
  omega

/-- The plan of a `LOAD` that passes its checks. -/
theorem loadPlan_ok {s : State} {p : LoadPlan} (h : loadPlan s = .ok p) :
    s.session.init = true ∧ p.slot < s.params.maxSounds ∧ 1 ≤ p.channels ∧
      p.src + p.byteCount ≤ s.params.hostMemBytes ∧
      totalFrames s.session.slots - slotFrames s.session.slots p.slot +
        p.byteCount / (p.width.bytes * p.channels) ≤ s.params.sampleMemFrames ∧
      (p.slot : Int) = opI32 s.latched.arg0 ∧ p.src = opU32 s.latched.arg1 ∧ p.src ≠ 0 ∧
      (p.byteCount : Int) = opI32 s.latched.arg2 ∧ sampleWidth (opI32 s.latched.arg3) = some p.width ∧
      (p.channels : Int) = opI32 s.latched.arg4 := by
  simp only [loadPlan] at h
  split at h
  · cases h
  split at h
  · cases h
  split at h
  · cases h
  split at h
  · cases h
  split at h
  · cases h
  split at h
  · cases h
  split at h
  · cases h
  split at h
  · cases h
  split at h
  · cases h
  cases h
  simp_all
  omega

end Sys2Proof.Machine
end

