-- ==== Sys2Proof/Laws/PerInstr.lean ====
section
/-! SUPPORT. The family CommandRow: what each row of 30_encoding.md R127 has as syntax. -/

namespace Sys2Proof.Laws.CommandRow

/-- The word has no reserved bit set and is not zero (R120, R128), the operands fit the six argument registers
(R124, R127), and the word disassembles to the mnemonic (R134). -/
def Statement (i : Instr) : Prop :=
  (encode i).extractLsb' 8 24 = 0#24 ∧ encode i ≠ 0#32 ∧ i.operands.length ≤ 6 ∧
    disassemble (encode i) = mnemonic i

theorem init : Statement .init := by unfold Statement; decide

theorem fini : Statement .fini := by unfold Statement; decide

theorem isinit : Statement .isinit := by unfold Statement; decide

theorem getsr : Statement .getsr := by unfold Statement; decide

theorem getnsnd : Statement .getnsnd := by unfold Statement; decide

theorem getnvoc : Statement .getnvoc := by unfold Statement; decide

theorem setnvoc : Statement .setnvoc := by unfold Statement; decide

theorem getact : Statement .getact := by unfold Statement; decide

theorem getgvol : Statement .getgvol := by unfold Statement; decide

theorem setgvol : Statement .setgvol := by unfold Statement; decide

theorem load : Statement .load := by unfold Statement; decide

theorem peekf : Statement .peekf := by unfold Statement; decide

theorem peeki16 : Statement .peeki16 := by unfold Statement; decide

theorem peeki8 : Statement .peeki8 := by unfold Statement; decide

theorem pokef : Statement .pokef := by unfold Statement; decide

theorem pokei16 : Statement .pokei16 := by unfold Statement; decide

theorem pokei8 : Statement .pokei8 := by unfold Statement; decide

theorem getvvol : Statement .getvvol := by unfold Statement; decide

theorem setvvol : Statement .setvvol := by unfold Statement; decide

theorem getvbal : Statement .getvbal := by unfold Statement; decide

theorem setvbal : Statement .setvbal := by unfold Statement; decide

theorem getvfrq : Statement .getvfrq := by unfold Statement; decide

theorem setvfrq : Statement .setvfrq := by unfold Statement; decide

theorem stop : Statement .stop := by unfold Statement; decide

theorem play : Statement .play := by unfold Statement; decide

theorem update : Statement .update := by unfold Statement; decide

end Sys2Proof.Laws.CommandRow
end

