-- ==== Sys2Proof/Tests/Slice0.lean ====
section
/-! SUPPORT. Tests of the model against 95_test_vectors.md and the tables of spec/ (each names its source), and a witness for
every statement that has hypotheses. -/

set_option Elab.async false

namespace Sys2Proof.Tests

open Sys2Proof.Machine Sys2Proof.Claims

/-! ## Helpers -/

/-- The outcome is a next state of which `p` holds. -/
def runs (o : Host.Outcome State Fault Refusal) (p : State → Bool) : Bool :=
  match o with
  | .next t => p t
  | _ => false

theorem runs_spec {o : Host.Outcome State Fault Refusal} {p : State → Bool} (h : runs o p = true) :
    ∃ t, o = .next t ∧ p t = true := by
  unfold runs at h
  split at h
  · exact ⟨_, rfl, h⟩
  · cases h

/-- Arguments from `ARG0` on, the rest 0. -/
def argsOf (a : List Word) : Args :=
  ⟨a.getD 0 0#32, a.getD 1 0#32, a.getD 2 0#32, a.getD 3 0#32, a.getD 4 0#32, a.getD 5 0#32⟩

/-- The words of a 4-byte-aligned list written from an address up. -/
def putWords (m : Memory) (a : Nat) : List Word → Memory
  | [] => m
  | w :: ws => putWords (Memory.write m a .w32 w) (a + 4) ws

/-- The frames 0.25, -0.25, 0.5, 1.0 of 95_test_vectors.md section 2.5. -/
def quad : Sound := [0x3E800000#32, 0xBE800000#32, 0x3F000000#32, 0x3F800000#32]

/-- A session at 48000 with slot 0 holding `quad`, one voice panned left, and nothing in progress. -/
def ses : State :=
  { State.reset with
    session :=
      { startedSession 48000#32 with
        slots := [quad], voices := [balanced (defaultVoice 48000#32) f32NegOne] }
    status := { Status.zero with init := true } }

/-- `ses` with a command's arguments latched. -/
def withArgs (a : List Word) : State := { ses with latched := argsOf a }

/-- `reset` with a command's arguments latched. -/
def outsideArgs (a : List Word) : State := { State.reset with latched := argsOf a }

/-- A command of `ses` succeeds with a result. -/
def answers (i : Instr) (a : List Word) (r : Word) : Bool :=
  runs (exec i (withArgs a)) fun t => !t.status.err && decide (t.result = r)

/-- A command of `s` fails with a cause. -/
def failsIn (s : State) (i : Instr) (c : Cause) : Bool :=
  runs (exec i s) fun t => t.status.err && decide (t.status.cause = c)

/-- A command of `ses` succeeds and leaves a session of which `p` holds. -/
def leaves (i : Instr) (a : List Word) (p : Session → Bool) : Bool :=
  runs (exec i (withArgs a)) fun t => !t.status.err && p t.session

/-- Voice 0 satisfies `p`. -/
def voice0 (p : Voice → Bool) (S : Session) : Bool :=
  match S.voices with
  | v :: _ => p v
  | [] => false

/-! ## Well-formedness: a term that each check refuses -/

theorem test_params_wf : Config.vectorParams.wf := by decide

theorem test_params_base_aligned : ¬ Params.wf { Config.vectorParams with ctrlBase := 0x10004 } := by decide

/-- R5: any multiple of 64, also past the 32-bit master space. -/
theorem test_params_base_unbounded : Params.wf { Config.vectorParams with ctrlBase := 2 ^ 32 } := by decide

theorem test_params_memory_positive : ¬ Params.wf { Config.vectorParams with hostMemBytes := 0 } := by decide

theorem test_params_memory_bounded : ¬ Params.wf { Config.vectorParams with hostMemBytes := 2 ^ 32 + 1 } := by
  decide

theorem test_params_voices : ¬ Params.wf { Config.vectorParams with maxVoices := 0 } := by decide

theorem test_params_sounds : ¬ Params.wf { Config.vectorParams with maxSounds := 0 } := by decide

/-- R131: an integer literal fits its width; R130: as many operands as the row has, of their kinds. -/
theorem test_lines_refused :
    Line.wf (.command .init [.int (2 ^ 32)]) = false ∧
    Line.wf (.command .init [.int (-(2 ^ 31) - 1)]) = false ∧
    Line.wf (.command .init []) = false ∧
    Line.wf (.command .init [.int 1, .int 2]) = false ∧
    Line.wf (.command .init [.dec false 1 0]) = false ∧
    Line.wf (.command .update [.int (2 ^ 32), .int 1]) = false ∧
    Line.wf (.command .setgvol [.int 1]) = false ∧
    Line.wf (.command .pokei16 [.int 0, .int 0, .int 65536]) = false ∧
    Line.wf (.command .pokei8 [.int 0, .int 0, .int 256]) = false ∧
    Line.wf (.hostW8 0 256) = false ∧ Line.wf (.hostW16 0 (-32769)) = false ∧
    Line.wf (.expect 0#32 false 16) = false := by decide

theorem test_lines_accepted :
    Line.wf (.command .init [.int 48000]) = true ∧
    Line.wf (.command .update [.int (2 ^ 32 - 1), .int (-(2 ^ 31))]) = true ∧
    Line.wf (.command .setvbal [.int 0, .dec true 9 0]) = true ∧
    Line.wf (.command .setgvol [.pattern 0x7FC00000#32]) = true ∧
    Line.wf (.command .pokei16 [.int 0, .int 0, .int (-32768)]) = true ∧
    Line.wf (.hostW8 0 255) = true ∧ Line.wf (.expect 0#32 false 15) = true := by decide

/-! ## Encoding: words written out from the opcode column of 30_encoding.md R127 -/

theorem test_decode_session :
    decode 0b00000000000000000000000000000001#32 = .ok .init ∧
    decode 0b00000000000000000000000000000010#32 = .ok .fini ∧
    decode 0b00000000000000000000000000000011#32 = .ok .isinit ∧
    decode 0b00000000000000000000000000000100#32 = .ok .getsr ∧
    decode 0b00000000000000000000000000000101#32 = .ok .getnsnd ∧
    decode 0b00000000000000000000000000000110#32 = .ok .getnvoc ∧
    decode 0b00000000000000000000000000000111#32 = .ok .setnvoc ∧
    decode 0b00000000000000000000000000001000#32 = .ok .getact ∧
    decode 0b00000000000000000000000000001001#32 = .ok .getgvol ∧
    decode 0b00000000000000000000000000001010#32 = .ok .setgvol := by decide

theorem test_decode_sound :
    decode 0b00000000000000000000000000010000#32 = .ok .load ∧
    decode 0b00000000000000000000000000010001#32 = .ok .peekf ∧
    decode 0b00000000000000000000000000010010#32 = .ok .peeki16 ∧
    decode 0b00000000000000000000000000010011#32 = .ok .peeki8 ∧
    decode 0b00000000000000000000000000010100#32 = .ok .pokef ∧
    decode 0b00000000000000000000000000010101#32 = .ok .pokei16 ∧
    decode 0b00000000000000000000000000010110#32 = .ok .pokei8 := by decide

theorem test_decode_voice :
    decode 0b00000000000000000000000000100000#32 = .ok .getvvol ∧
    decode 0b00000000000000000000000000100001#32 = .ok .setvvol ∧
    decode 0b00000000000000000000000000100010#32 = .ok .getvbal ∧
    decode 0b00000000000000000000000000100011#32 = .ok .setvbal ∧
    decode 0b00000000000000000000000000100100#32 = .ok .getvfrq ∧
    decode 0b00000000000000000000000000100101#32 = .ok .setvfrq ∧
    decode 0b00000000000000000000000000100110#32 = .ok .stop ∧
    decode 0b00000000000000000000000000100111#32 = .ok .play ∧
    decode 0b00000000000000000000000000110000#32 = .ok .update := by decide

/-- R128, at both ends of each range of unassigned opcodes, and a reserved bit. -/
theorem test_decode_illegal :
    [0x00#32, 0x0B#32, 0x0F#32, 0x17#32, 0x1F#32, 0x28#32, 0x2F#32, 0x31#32, 0xFF#32].all
      (fun w => decide (decode w = .error .unassignedOpcode)) = true ∧
    decode 0x00000101#32 = .error .reservedBits ∧ decode 0x80000030#32 = .error .reservedBits := by decide

/-- The opcode rows carry each opcode once. -/
theorem test_opcodes_distinct : (opcodeRows.map OpcodeRow.opc).Nodup := by decide

/-- R134. -/
theorem test_disassemble :
    disassemble 0x00000023#32 = "SETVBAL" ∧ disassemble 0x000001AF#32 = "RAW 0x000001AF" := by decide

/-- R131, R132: literals; 95_test_vectors.md L1.2 (-9.0f), P4 (0.1f rounds to 0x3DCCCCCD). -/
theorem test_literals :
    literalWord (.dec true 9 0) = 0xC1100000#32 ∧ literalWord (.dec false 1 1) = 0x3DCCCCCD#32 ∧
    literalWord (.int (-5)) = 0xFFFFFFFB#32 ∧ literalWord (.dec true 0 1) = 0x80000000#32 := by decide +kernel

/-- R132: ARG0 then CMD then WAIT. -/
theorem test_expand :
    expandLine Config.vectorParams (.command .init [.int 48000]) =
      [.write 0x00010004 4 0x0000BB80, .write 0x00010000 4 0x00000001, .wait] := by decide

/-- R133, R10: HOST.ZERO writes the `n` bytes from `a` up, and the address sum does not wrap. -/
theorem test_expand_zero :
    expandLine Config.vectorParams (.hostZero 0xFFFFFFFF 2) =
      [.write 0xFFFFFFFF 1 0, .write 0x100000000 1 0] := by decide

/-! ## Gain: the table of 42_gain.md R242 and 95_test_vectors.md section 2.3 -/

theorem test_gain_table :
    gainFn 0xC1100000#32 = (0x3F800000#32, 0x00000000#32) ∧
    gainFn 0x7FC00000#32 = (0x3F800000#32, 0x00000000#32) ∧
    gainFn 0xBF000000#32 = (0x3F6C835E#32, 0x3EC3EF15#32) ∧
    gainFn 0xBE800000#32 = (0x3F54DB31#32, 0x3F0E39DA#32) ∧
    gainFn 0x00000000#32 = (0x3F3504F3#32, 0x3F3504F3#32) ∧
    gainFn 0x80000000#32 = (0x3F3504F3#32, 0x3F3504F3#32) ∧
    gainFn 0x3E800000#32 = (0x3F0E39DA#32, 0x3F54DB31#32) ∧
    gainFn 0x3F000000#32 = (0x3EC3EF15#32, 0x3F6C835E#32) ∧
    gainFn 0x3F400000#32 = (0x3E47C5C2#32, 0x3F7B14BE#32) ∧
    gainFn 0x40A00000#32 = (0x00000000#32, 0x3F800000#32) ∧
    gainFn 0x3F7FFFFF#32 = (0x33490FDB#32, 0x3F800000#32) := by decide +kernel

/-! ## Session commands: 95_test_vectors.md section 2.1 -/

/-- S3, S4, S6. -/
theorem test_init_fails :
    failsIn (outsideArgs [0#32]) .init .param = true ∧ failsIn (outsideArgs [0xFFFFFFFB#32]) .init .param = true ∧
    failsIn (withArgs [48000#32]) .init .state = true := by decide +kernel

/-- S8: the rate is kept, the fresh voice's frequency is rounded. -/
theorem test_init_largest_rate :
    runs (exec .init (outsideArgs [0x7FFFFFFF#32])) (fun t =>
      decide (t.result = 1#32) && decide (t.session.sr = 0x7FFFFFFF#32) &&
        voice0 (fun v => decide (v.freq = 0x4F000000#32)) t.session) = true := by decide +kernel

/-- S15, E4. -/
theorem test_fini :
    runs (exec .fini (withArgs [])) (fun t => decide (statusWord t.status = 0#32)) = true ∧
    runs (exec .fini (outsideArgs [])) (fun t => decide (statusWord t.status = 0x106#32)) = true := by
  decide +kernel

/-- S1, S2. -/
theorem test_isinit_getsr_outside :
    runs (exec .isinit State.reset) (fun t => decide (t.result = 0#32) && decide (statusWord t.status = 0#32)) = true ∧
    runs (exec .getsr State.reset) (fun t => decide (statusWord t.status = 0x106#32)) = true := by decide +kernel

/-- S10, with one slot. -/
theorem test_session_queries :
    answers .isinit [] 1#32 = true ∧ answers .getsr [] 0xBB80#32 = true ∧ answers .getnsnd [] 1#32 = true ∧
    answers .getnvoc [] 1#32 = true ∧ answers .getact [] 0#32 = true ∧
    answers .getgvol [] 0x3F800000#32 = true := by decide +kernel

/-- S11. -/
theorem test_setnvoc_fails :
    failsIn (withArgs [0#32]) .setnvoc .param = true ∧ failsIn (withArgs [0xFFFFFFFF#32]) .setnvoc .param = true ∧
    failsIn (withArgs [9#32]) .setnvoc .capacity = true := by decide +kernel

/-- S12, S13: the pool is replaced, pan included. -/
theorem test_setnvoc_replaces :
    leaves .setnvoc [8#32] (fun S => decide (S.voices.length = 8) && voice0 (fun v => decide (v.pan = 0#32)) S) = true := by
  decide +kernel

/-- S14. -/
theorem test_setgvol :
    [(0x40000000#32, 0x3F800000#32), (0xBF000000#32, 0x00000000#32), (0x7FC00000#32, 0x00000000#32),
        (0x80000000#32, 0x80000000#32), (0x3E800000#32, 0x3E800000#32), (0x7F800000#32, 0x3F800000#32),
        (0x00000001#32, 0x00000001#32)].all (fun p =>
      leaves .setgvol [p.1] (fun S => decide (S.gvol = p.2))) = true := by decide +kernel

/-! ## SoundBank commands: section 2.2 -/

/-- `ses` with host bytes `00 80 00 80 64 00 C8 00 05 00` at 0x1000 (B1). -/
def pcm (a : List Word) : State :=
  { withArgs a with mem := putWords [] 0x1000 [0x80008000#32, 0x00C80064#32, 0x00000005#32] }

/-- B1, B9: two 16-bit channels are summed and trailing bytes ignored; 8-bit samples are signed. -/
theorem test_load_frames :
    runs (exec .load (pcm [0#32, 0x1000#32, 10#32, 2#32, 2#32]))
      (fun t => decide (t.session.slots = [[0xC0000000#32, 0x3C160000#32]])) = true ∧
    runs (exec .load (pcm [2#32, 0x1000#32, 2#32, 1#32, 1#32]))
      (fun t => decide (t.session.slots = [quad, [], [0x00000000#32, 0xBF800000#32]])) = true := by decide +kernel

/-- B16, B17, B18, B20. -/
theorem test_load_fails :
    failsIn (pcm [0#32, 0x1000#32, 10#32, 2#32, 0#32]) .load .param = true ∧
    failsIn (pcm [0#32, 0x1000#32, 6#32, 3#32, 1#32]) .load .param = true ∧
    failsIn (pcm [0#32, 0#32, 2#32, 1#32, 1#32]) .load .param = true ∧
    failsIn (pcm [0#32, 0xFFFF#32, 2#32, 1#32, 1#32]) .load .range = true ∧
    failsIn (pcm [16#32, 0x1000#32, 2#32, 1#32, 1#32]) .load .capacity = true ∧
    failsIn (pcm [0xFFFFFFFF#32, 0x1000#32, 2#32, 1#32, 1#32]) .load .range = true ∧
    failsIn (pcm [20#32, 0x1000#32, 6#32, 3#32, 1#32]) .load .capacity = true := by decide +kernel

/-- `ses` with frame 0 of slot 0 replaced. -/
def frame0 (x : F32) (a : List Word) : State :=
  { withArgs a with session := { ses.session with slots := [[x]] } }

/-- B12, B15: the pattern comes back whole; indexes outside. -/
theorem test_peekf :
    runs (exec .peekf (frame0 0x7FA00001#32 [])) (fun t => decide (t.result = 0x7FA00001#32)) = true ∧
    failsIn (withArgs [0#32, 0xFFFFFFFF#32]) .peekf .range = true ∧
    failsIn (withArgs [0#32, 4#32]) .peekf .range = true ∧
    failsIn (withArgs [1#32, 0#32]) .peekf .range = true := by decide +kernel

/-- B10. -/
theorem test_peeki16 :
    [(0x37800000#32, 0#32), (0x38400000#32, 2#32), (0x3F800000#32, 0x7FFF#32), (0xFF800000#32, 0xFFFF8000#32),
        (0x7FC00000#32, 0#32), (0x80000000#32, 0#32), (0xBF000000#32, 0xFFFFC000#32)].all (fun p =>
      runs (exec .peeki16 (frame0 p.1 [])) (fun t => decide (t.result = p.2))) = true := by decide +kernel

/-- B11. -/
theorem test_peeki8 :
    [(0x3F800000#32, 0x7F#32), (0x7F800000#32, 0x7F#32), (0xBF000000#32, 0xFFFFFFC0#32), (0x3CA00000#32, 2#32)].all (fun p =>
      runs (exec .peeki8 (frame0 p.1 [])) (fun t => decide (t.result = p.2))) = true := by decide +kernel

/-- B12, B13, B14: what the three pokes store. -/
theorem test_pokes :
    leaves .pokef [0#32, 0#32, 0x7FA00001#32] (fun S => decide (S.slots = [quad.set 0 0x7FA00001#32])) = true ∧
    leaves .pokei16 [0#32, 1#32, 0x00018000#32] (fun S => decide (S.slots = [quad.set 1 0xBF800000#32])) = true ∧
    leaves .pokei16 [0#32, 3#32, 0x00007FFF#32] (fun S => decide (S.slots = [quad.set 3 0x3F7FFE00#32])) = true ∧
    leaves .pokei8 [0#32, 2#32, 0x000000FF#32] (fun S => decide (S.slots = [quad.set 2 0xBC000000#32])) = true ∧
    leaves .pokei8 [0#32, 2#32, 0xFFFFFF80#32] (fun S => decide (S.slots = [quad.set 2 0xBF800000#32])) = true := by
  decide +kernel

/-! ## Voice commands: section 2.4 -/

/-- V1, V2, V4 (pitch of a frequency), V3. -/
theorem test_setvfrq :
    [(0x46BB8000#32, 0x3F000000#32), (0x473B8000#32, 0x3F800000#32), (0x472C4400#32, 0x3F6B3333#32),
        (0x47BB8000#32, 0x40000000#32), (0x7F7FFFFF#32, 0x77AEC33D#32), (0x00000001#32, 0x00000000#32)].all (fun p =>
      leaves .setvfrq [0#32, p.1] (voice0 fun v => decide (v.pitch = p.2) && decide (v.freq = p.1))) = true ∧
    [0xBF800000#32, 0x80000000#32, 0x00000000#32, 0x7F800000#32, 0x7FC00000#32].all (fun f =>
      failsIn (withArgs [0#32, f]) .setvfrq .param) = true := by decide +kernel

/-- V5. -/
theorem test_setvvol :
    [(0x40000000#32, 0x3F800000#32), (0xBF000000#32, 0x00000000#32), (0x7FC00000#32, 0x00000000#32),
        (0x80000000#32, 0x80000000#32), (0x7F800000#32, 0x3F800000#32)].all (fun p =>
      leaves .setvvol [0#32, p.1] (voice0 fun v => decide (v.vol = p.2))) = true := by decide +kernel

/-- V6, L1.2. -/
theorem test_setvbal :
    leaves .setvbal [0#32, 0xBF000000#32]
      (voice0 fun v => decide (v.pan = 0xBF000000#32 ∧ v.gl = 0x3F6C835E#32 ∧ v.gr = 0x3EC3EF15#32)) = true ∧
    leaves .setvbal [0#32, 0xC1100000#32]
      (voice0 fun v => decide (v.pan = 0xBF800000#32 ∧ v.gl = 0x3F800000#32 ∧ v.gr = 0x00000000#32)) = true := by
  decide +kernel

/-- V7, and the three answers. -/
theorem test_voice_queries :
    answers .getvvol [0#32] 0x3F800000#32 = true ∧ answers .getvbal [0#32] 0xBF800000#32 = true ∧
    answers .getvfrq [0#32] 0x473B8000#32 = true ∧ failsIn (withArgs [1#32]) .getvvol .range = true ∧
    failsIn (withArgs [0xFFFFFFFF#32]) .getvvol .range = true := by decide +kernel

/-- V10, V11: a start before the sound, and the mode operand. -/
theorem test_play :
    leaves .play [0#32, 0#32, 0xFFFFFFFE#32, 0#32, 0#32, 3#32]
      (voice0 fun v => decide (v.pos = 0xC0000000#32 ∧ v.ipos = 0xFFFFFFFE#32 ∧ v.cur = 0#32 ∧ v.prev = 0#32 ∧
        v.rend = 0x40400000#32 ∧ v.mode = .single ∧ v.sound = some 0)) = true ∧
    leaves .play [0#32, 0#32, 2#32, 1#32, 0#32, 3#32]
      (voice0 fun v => decide (v.mode = .loop ∧ v.cur = 0x3F000000#32 ∧ v.prev = 0x3F000000#32)) = true ∧
    leaves .play [0#32, 0#32, 0#32, 7#32, 0#32, 3#32] (voice0 fun v => decide (v.mode = .single)) = true := by
  decide +kernel

/-- V9, E11: the voice check comes before the sound check. -/
theorem test_play_fails :
    failsIn (withArgs [0#32, 1#32]) .play .range = true ∧ failsIn (withArgs [5#32, 0xFFFFFFFF#32]) .play .range = true := by
  decide +kernel

/-- V8, R266: STOP resets the volume and keeps pan, gains, frequency and cache. -/
theorem test_stop :
    runs (exec .stop { withArgs [0#32] with session := { ses.session with voices :=
      [{ (defaultVoice 48000#32) with
          sound := some 0, vol := 0x3E800000#32, pan := 0x3F000000#32, pos := 0x3F800000#32, cur := 0x3F800000#32 }] } })
      (fun t => voice0 (fun v => decide (v.vol = 0x3F800000#32 ∧ v.pan = 0x3F000000#32 ∧ v.sound = none ∧
        v.pos = 0#32 ∧ v.cur = 0x3F800000#32)) t.session) = true := by decide +kernel

/-! ## UPDATE: section 2.5 -/

/-- A voice of `ses` playing slot 0 from `st`, ending at `re`, with a mode and a pitch. -/
def playing (st re : Int) (md : PlayMode) (pitch : F32) : Voice :=
  { (balanced (defaultVoice 48000#32) f32NegOne) with
    sound := some 0, mode := md, pos := f32FromInt st, ipos := BitVec.ofInt 32 st, rend := f32FromInt re
    cur := prefetch quad st, prev := prefetch quad st, pitch := pitch }

/-- `UPDATE 0x2000, n` on a voice, with words in the buffer. -/
def mixing (v : Voice) (n : Nat) (words : List Word) : State :=
  { withArgs [0x2000#32, BitVec.ofNat 32 n] with
    session := { ses.session with voices := [v] }, mem := putWords [] 0x2000 words }

/-- M8: pitch 1.5, the fetch skips a frame, the blend takes the fraction. -/
theorem test_update_fetch_and_blend :
    runs (exec .update (mixing (playing 0 3 .single 0x3FC00000#32) 4 [])) (fun t =>
      decide (Memory.read t.mem 0x2000 .w32 = 0x3E800000#32 ∧ Memory.read t.mem 0x2008 .w32 = 0x00000000#32 ∧
        Memory.read t.mem 0x2010 .w32 = 0xBE800000#32 ∧ Memory.read t.mem 0x2018 .w32 = 0#32 ∧
        t.session.active = 1) &&
      voice0 (fun v => decide (v.pos = 0x40900000#32 ∧ v.ipos = 3#32 ∧ v.cur = 0x3F800000#32 ∧
        v.prev = 0xBE800000#32 ∧ v.sound = none)) t.session) = true := by decide +kernel

/-- M2 (global pass on what the buffer held) and M17 (a loop of length 1). -/
theorem test_update_pass_and_loop :
    runs (exec .update { mixing (defaultVoice 48000#32) 1 [0x40400000#32, 0x7FA00001#32] with
        session := { ses.session with gvol := 0x3F000000#32 } })
      (fun t => decide (Memory.read t.mem 0x2000 .w32 = 0x3FC00000#32 ∧
        Memory.read t.mem 0x2004 .w32 = 0x7FC00000#32 ∧ t.session.active = 0)) = true ∧
    runs (exec .update (mixing (playing 0 1 .loop 0x3F800000#32) 6 []))
      (fun t => (List.range 6).all fun k => decide (Memory.read t.mem (0x2000 + 8 * k) .w32 = 0x3E800000#32)) = true := by
  decide +kernel

/-- M20. -/
theorem test_update_fails :
    failsIn (withArgs [0x2002#32, 1#32]) .update .param = true ∧ failsIn (withArgs [0x2000#32, 0#32]) .update .param = true ∧
    failsIn (withArgs [0#32, 1#32]) .update .param = true ∧ failsIn (withArgs [0xFFF8#32, 2#32]) .update .range = true := by
  decide +kernel

/-! ## Interface: section 2.6 -/

/-- `ses` whose host makes one action. -/
def acting (h : HostAction) : State := { ses with host := [h] }

/-- `acting` with INIT in progress. -/
def busyActing (h : HostAction) : State :=
  { acting h with cmd := 1#32, status := { ses.status with busy := true }, remaining := 1 }

/-- E1, E2, E3: an illegal word fails with ENCODING, also outside a session. -/
theorem test_illegal_words :
    runs (step (ses.launch 0xFF#32)) (fun t => decide (statusWord t.status = 0x416#32)) = true ∧
    runs (step (ses.launch 0x101#32)) (fun t => decide (t.status.cause = .encoding)) = true ∧
    runs (step (State.reset.launch 0#32)) (fun t => decide (t.status.cause = .encoding)) = true := by decide +kernel

/-- E5: CLRSTAT after a failure and an overrun. -/
theorem test_clrstat :
    runs (step { acting (.write 0x00010020 4 0x0000000C) with
        status := ⟨false, true, true, true, true, .param⟩ })
      (fun t => decide (statusWord t.status = 0x312#32)) = true := by decide +kernel

/-- E6, E7: a write to CMD or ARG0 while BUSY = 1 is dropped and sets OVR. -/
theorem test_overrun :
    runs (step (busyActing (.write 0x00010000 4 2)))
      (fun t => t.status.ovr && decide (t.cmd = 1#32)) = true ∧
    runs (step (busyActing (.write 0x00010004 4 7)))
      (fun t => t.status.ovr && decide (t.args = ses.args)) = true := by decide +kernel

/-- E8, E9, and a 64-bit access (R56). -/
theorem test_window_reads :
    runs (step (acting (.read 0x00010020 2))) (fun t => decide (t.readData = 0)) = true ∧
    runs (step (acting (.read 0x00010020 4))) (fun t => decide (t.readData = 0x10)) = true ∧
    runs (step (acting (.read 0x00010028 4))) (fun t => decide (t.readData = 0)) = true ∧
    runs (step (acting (.read 0x00010020 8))) (fun t => decide (t.readData = 0)) = true := by decide +kernel

/-- R57: an accepted command latches the arguments and sets BUSY. -/
theorem test_accept :
    runs (step { acting (.write 0x00010000 4 0x27) with args := argsOf [5#32] })
      (fun t => t.status.busy && decide (t.cmd = 0x27#32) && decide (t.latched = argsOf [5#32])) = true := by
  decide +kernel

/-- R18, R85: a 16-bit host write, low byte first. -/
theorem test_host_memory :
    runs (step (acting (.write 0x00001000 2 0xFFFF1234)))
      (fun t => decide (t.mem = [(0x1000, 0x34#8), (0x1001, 0x12#8)])) = true ∧
    runs (step { acting (.read 0x00001001 4) with mem := putWords [] 0x1000 [0x44332211#32, 0x88776655#32] })
      (fun t => decide (t.readData = 0x55443322)) = true ∧
    runs (step { acting (.read 0x00001000 8) with mem := putWords [] 0x1000 [0x44332211#32, 0x88776655#32] })
      (fun t => decide (t.readData = 0x8877665544332211)) = true := by decide +kernel

/-- R380: the reset input ends the session. -/
theorem test_reset_input :
    runs (step (busyActing .reset)) (fun t => decide (t.session = .empty) && decide (statusWord t.status = 0#32)) = true := by
  decide +kernel

/-- The decoder and the step on the host's numbering of the table's words. -/
theorem test_table_word :
    decodeTableWord 32 0x27 = some .play ∧ decodeTableWord 8 0x27 = some .play ∧ decodeTableWord 32 0x0B = none ∧
    runs (step (State.reset.withFetchWord 32 0x03)) (fun t => decide (t.result = 0#32) && !t.status.err) = true := by
  decide +kernel

/-! ## Witnesses: for each statement with hypotheses, concrete values that meet them, clause by clause at boundary values -/

/-- A command that is over at `s`, as a state busy with it. -/
def busyWith (s : State) (w : Word) : State := { s with cmd := w, status := { s.status with busy := true } }

theorem witness_IllegalWordsFailWithEncoding :
    [0x0B#32, 0x31#32, 0x101#32].all (fun w => (ses.launch w).status.busy && decide ((ses.launch w).remaining = 0) &&
      !(decode (ses.launch w).cmd).isOk) = true := by decide +kernel

theorem witness_StepRunsTheDecodedCommand :
    ((ses.launch 0x27#32).status.busy = true ∧ (ses.launch 0x27#32).remaining = 0 ∧
      decode (ses.launch 0x27#32).cmd = .ok .play) ∧
    ((busyActing .wait).status.busy = true ∧ (busyActing .wait).remaining = 0 + 1) ∧ ses.status.busy = false := by
  decide +kernel

theorem witness_InitStartsASession :
    ses.session.init = true ∧
    ((outsideArgs [0#32]).session.init = false ∧ a0 (outsideArgs [0#32]) < 1) ∧
    ((outsideArgs [1#32]).session.init = false ∧ 1 ≤ a0 (outsideArgs [1#32])) := by
  unfold a0; decide +kernel

theorem witness_session_in_and_out : State.reset.session.init = false ∧ ses.session.init = true := by decide +kernel

theorem witness_FiniDestroysTheSession : State.reset.session.init = false ∧ ses.session.init = true :=
  witness_session_in_and_out

theorem witness_SessionQueriesAnswer : ses.session.init = true ∧ State.reset.session.init = false :=
  witness_session_in_and_out.symm

theorem witness_SessionCountsAnswer : ses.session.init = true ∧ State.reset.session.init = false :=
  witness_session_in_and_out.symm

theorem witness_SetGlobalVolumeClamps : State.reset.session.init = false ∧ ses.session.init = true :=
  witness_session_in_and_out

theorem witness_SetVoiceCountReplacesThePool :
    State.reset.session.init = false ∧ (ses.session.init = true ∧ a0 (withArgs [0#32]) < 1) ∧
    (1 ≤ a0 (withArgs [9#32]) ∧ (ses.params.maxVoices : Int) < a0 (withArgs [9#32])) ∧
    (1 ≤ a0 (withArgs [1#32]) ∧ a0 (withArgs [1#32]) ≤ ses.params.maxVoices) ∧
    (1 ≤ a0 (withArgs [8#32]) ∧ a0 (withArgs [8#32]) ≤ ses.params.maxVoices) := by
  unfold a0; decide +kernel

/-- `pcm` with room for `frames` frames. -/
def roomFor (frames : Nat) (a : List Word) : State :=
  { pcm a with params := { Config.vectorParams with sampleMemFrames := frames } }

/-- The slot, width, channel, length and source checks of LOAD at both sides. -/
theorem witness_LoadReplacesASlot_operands :
    a0 (pcm [0xFFFFFFFF#32]) < 0 ∧
    (0 ≤ a0 (pcm [16#32]) ∧ ((pcm []).params.maxSounds : Int) ≤ a0 (pcm [16#32])) ∧
    (a0 (pcm [15#32]) < (pcm []).params.maxSounds ∧ a3 (pcm [15#32, 1#32, 0#32, 3#32]) ≠ 1 ∧
      a3 (pcm [15#32, 1#32, 0#32, 3#32]) ≠ 2 ∧ a3 (pcm [15#32, 1#32, 0#32, 3#32]) ≠ 4) ∧
    (a3 (pcm [0#32, 1#32, 0#32, 4#32, 0#32]) = Width.w32.bytes ∧ a4 (pcm [0#32, 1#32, 0#32, 4#32, 0#32]) < 1) ∧
    (a3 (pcm [0#32, 1#32, 0xFFFFFFFF#32, 2#32, 1#32]) = Width.w16.bytes ∧
      1 ≤ a4 (pcm [0#32, 1#32, 0xFFFFFFFF#32, 2#32, 1#32]) ∧ a2 (pcm [0#32, 1#32, 0xFFFFFFFF#32, 2#32, 1#32]) < 0) ∧
    (a3 (pcm [0#32, 0#32, 0#32, 1#32, 1#32]) = Width.w8.bytes ∧ 0 ≤ a2 (pcm [0#32, 0#32, 0#32, 1#32, 1#32]) ∧
      (pcm [0#32, 0#32, 0#32, 1#32, 1#32]).latched.arg1.toNat = 0) := by
  unfold a0 a2 a3 a4; decide +kernel

/-- The region and capacity checks of LOAD at both sides, for a new slot and for one that exists. -/
theorem witness_LoadReplacesASlot_memory :
    (pcm []).params.hostMemBytes < (pcm [0#32, 0xFFFF#32, 2#32]).latched.arg1.toNat +
      (a2 (pcm [0#32, 0xFFFF#32, 2#32])).toNat ∧
    (pcm [0#32, 0xFFFE#32, 2#32]).latched.arg1.toNat + (a2 (pcm [0#32, 0xFFFE#32, 2#32])).toNat ≤
      (pcm []).params.hostMemBytes ∧
    (let s := roomFor 4 [1#32, 0x1000#32, 1#32, 1#32, 1#32];
      s.params.sampleMemFrames < totalFrames s.session.slots - 0 + 1 / (Width.w8.bytes * 1)) ∧
    (let s := roomFor 4 [0#32, 0x1000#32, 4#32, 1#32, 1#32];
      (a0 s).toNat < s.session.slots.length ∧
      totalFrames s.session.slots - (s.session.slots.getD 0 []).length + 4 / (Width.w8.bytes * 1) ≤
        s.params.sampleMemFrames ∧ regionRefusal s.params s.latched.arg1.toNat (a2 s).toNat = none) ∧
    regionRefusal { Config.vectorParams with ctrlBase := 0x1000 } 0x1000 1 = some .windowRegion ∧
    regionRefusal { Config.vectorParams with devices := [(0x3000, 4)] } 0x3003 1 = some .deviceRegion := by
  unfold a0 a2; decide +kernel

/-- R200: the lowest and a negative sample of 8 and 16 bits, and a pattern passed through. -/
theorem test_decode_sample :
    decodeSample [(0x1000, 0x80#8)] 0x1000 .w8 = 0xBF800000#32 ∧
    decodeSample [(0x1000, 0xC0#8), (0x1001, 0xFF#8)] 0x1000 .w16 = 0xBB000000#32 ∧
    decodeSample [(0x1000, 0x01#8), (0x1002, 0xA0#8), (0x1003, 0x7F#8)] 0x1000 .w32 = 0x7FA00001#32 := by
  decide +kernel

theorem witness_DecodedFramesSumTheirChannels : 1 ≤ 2 ∧ 1 < 10 / (Width.w16.bytes * 2) := by decide

/-- The last frame of the last slot, and the indexes just outside. -/
theorem witness_PeeksAnswerTheFrame :
    hasFrame (withArgs [0#32, 3#32]) quad 0x3F800000#32 ∧ State.reset.session.init = false ∧
    outside (a0 (withArgs [0xFFFFFFFF#32])) ses.session.slots.length ∧
    outside (a0 (withArgs [1#32])) ses.session.slots.length ∧
    (0 ≤ a0 (withArgs [0#32, 4#32]) ∧ ses.session.slots[(a0 (withArgs [0#32, 4#32])).toNat]? = some quad ∧
      outside (a1 (withArgs [0#32, 4#32])) quad.length) ∧
    outside (a1 (withArgs [0#32, 0xFFFFFFFF#32])) quad.length := by
  unfold hasFrame outside a0 a1; decide +kernel

theorem witness_PokesWriteOneFrame :
    hasFrame (withArgs [0#32, 0#32]) quad 0x3E800000#32 ∧ hasFrame (withArgs [0#32, 3#32]) quad 0x3F800000#32 ∧
    outside (a0 (withArgs [1#32])) ses.session.slots.length ∧
    outside (a1 (withArgs [0#32, 4#32])) quad.length := by
  unfold hasFrame outside a0 a1; decide +kernel

/-- `ses` with two slots and two voices. -/
def pair (a : List Word) : State :=
  { withArgs a with
    session := { ses.session with slots := [quad, quad], voices := freshVoices 2 48000#32 } }

theorem witness_SoundCommandsLeaveVoicesAlone :
    (isSoundCommand .pokef = true ∧ ∃ t, exec .pokef (pair [0#32, 0#32]) = .next t ∧ t.status.err = false) ∧
    (((1 : Nat) : Int) ≠ a0 (pair [0#32, 0#32]) ∧ 1 < (pair []).session.slots.length) := by
  refine ⟨⟨rfl, ?_⟩, by unfold a0; decide +kernel⟩
  obtain ⟨t, h, h'⟩ := runs_spec (o := exec .pokef (pair [0#32, 0#32])) (p := fun t => !t.status.err) (by decide +kernel)
  exact ⟨t, h, by simpa using h'⟩

theorem witness_VoiceCommandsLeaveTheRestAlone :
    (isVoiceCommand .stop = true ∧ ∃ t, exec .stop (pair [0#32]) = .next t ∧ t.status.err = false) ∧
    ((1 : Nat) : Int) ≠ a0 (pair [0#32]) := by
  refine ⟨⟨rfl, ?_⟩, by unfold a0; decide +kernel⟩
  obtain ⟨t, h, h'⟩ := runs_spec (o := exec .stop (pair [0#32])) (p := fun t => !t.status.err) (by decide +kernel)
  exact ⟨t, h, by simpa using h'⟩

/-- Voice 1 of two, and the indexes just outside: the hypotheses of every voice command. -/
theorem witness_voice :
    (∃ v, hasVoice (pair [1#32]) v) ∧ State.reset.session.init = false ∧
    outside (a0 (pair [2#32])) (pair []).session.voices.length ∧
    outside (a0 (pair [0xFFFFFFFF#32])) (pair []).session.voices.length := by
  refine ⟨⟨defaultVoice 48000#32, ?_⟩, ?_⟩
  · unfold hasVoice a0; decide +kernel
  · unfold outside a0; decide +kernel

theorem witness_VoiceQueriesAnswer :
    (∃ v, hasVoice (pair [1#32]) v) ∧ State.reset.session.init = false ∧
    outside (a0 (pair [2#32])) (pair []).session.voices.length ∧
    outside (a0 (pair [0xFFFFFFFF#32])) (pair []).session.voices.length := witness_voice

theorem witness_SetVoiceVolumeClamps :
    (∃ v, hasVoice (pair [1#32]) v) ∧ outside (a0 (pair [2#32])) (pair []).session.voices.length :=
  ⟨witness_voice.1, witness_voice.2.2.1⟩

theorem witness_SetVoiceBalanceStoresGains :
    (∃ v p, hasVoice (pair [1#32]) v ∧ p = clamp (pair [1#32]).latched.arg1 0xBF800000#32 0x3F800000#32) ∧
    outside (a0 (pair [2#32])) (pair []).session.voices.length :=
  ⟨witness_voice.1.imp fun _ h => ⟨_, h, rfl⟩, witness_voice.2.2.1⟩

theorem witness_StopResetsTheVoice :
    (∃ v, hasVoice (pair [1#32]) v) ∧ outside (a0 (pair [2#32])) (pair []).session.voices.length :=
  ⟨witness_voice.1, witness_voice.2.2.1⟩

/-- The smallest positive frequency is accepted; zero, infinity and NaN are not. -/
theorem witness_SetVoiceFrequencyStoresPitch :
    (∃ v, hasVoice (pair [1#32]) v) ∧
    (f32IsNaN 0x00000001#32 = false ∧ f32Gt 0x00000001#32 0x00000000#32 = true ∧ 0x00000001#32 ≠ 0x7F800000#32) ∧
    f32IsNaN 0x7FC00000#32 = true ∧ f32Gt 0x00000000#32 0x00000000#32 = false ∧
    outside (a0 (pair [2#32])) (pair []).session.voices.length :=
  ⟨witness_voice.1, by decide +kernel, by decide +kernel, by decide +kernel, witness_voice.2.2.1⟩

/-- The last slot, and starts at, before and after the sound. -/
theorem witness_PlayBindsTheVoice :
    (∃ v, hasVoice (pair [1#32, 1#32, 3#32]) v) ∧ 0 ≤ a1 (pair [1#32, 1#32, 3#32]) ∧
    (pair []).session.slots[(a1 (pair [1#32, 1#32, 3#32])).toNat]? = some quad ∧
    (0 ≤ a2 (pair [1#32, 1#32, 3#32]) ∧ a2 (pair [1#32, 1#32, 3#32]) < quad.length) ∧
    ¬ a2 (pair [1#32, 1#32, 4#32]) < quad.length ∧ a2 (pair [1#32, 1#32, 0xFFFFFFFF#32]) < 0 ∧
    outside (a1 (pair [1#32, 2#32])) (pair []).session.slots.length ∧
    outside (a1 (pair [1#32, 0xFFFFFFFF#32])) (pair []).session.slots.length := by
  refine ⟨⟨defaultVoice 48000#32, ?_⟩, ?_⟩
  · unfold hasVoice a0; decide +kernel
  · unfold outside a1 a2; decide +kernel

theorem witness_GainTableIsTheReference : f32IsNaN 0x7FC00000#32 = true ∧ f32IsNaN 0xFFFFFFFF#32 = true := by decide

theorem witness_GainIsAFunctionOfTheClampedPan : f32IsNaN 0xBF000000#32 = false := by decide

theorem witness_GainIsAccurateAndPowerPreserving :
    ∃ θ : ℝ, θ = (realOf (clamp 0x3F000000#32 0xBF800000#32 0x3F800000#32) + 1) * Real.pi / 4 := ⟨_, rfl⟩

/-- The checks of UPDATE at both sides. -/
theorem witness_UpdateRunsThePseudocode :
    State.reset.session.init = false ∧ ses.session.init = true ∧ (withArgs [0#32, 1#32]).latched.arg0.toNat = 0 ∧
    ((withArgs [4#32, 0#32]).latched.arg0.toNat ≠ 0 ∧ a1 (withArgs [4#32, 0#32]) < 1) ∧
    (1 ≤ a1 (withArgs [0x2002#32, 1#32]) ∧ (withArgs [0x2002#32, 1#32]).latched.arg0.toNat % 4 ≠ 0) ∧
    ((withArgs [0xFFF8#32, 2#32]).latched.arg0.toNat % 4 = 0 ∧ ses.params.hostMemBytes <
      (withArgs [0xFFF8#32, 2#32]).latched.arg0.toNat + 8 * (a1 (withArgs [0xFFF8#32, 2#32])).toNat) ∧
    ((withArgs [0xFFF8#32, 1#32]).latched.arg0.toNat + 8 * (a1 (withArgs [0xFFF8#32, 1#32])).toNat ≤
      ses.params.hostMemBytes ∧ regionRefusal ses.params 0xFFF8 8 = none) ∧
    regionRefusal { Config.vectorParams with ctrlBase := 0xFFC0 } 0xFFF8 8 = some .windowRegion := by
  unfold a1; decide +kernel

theorem witness_EndCheckEndsOrWraps :
    (f32Gt (playing 4 3 .single f32PosOne).pos (playing 4 3 .single f32PosOne).rend = true ∧
      (playing 4 3 .single f32PosOne).mode = .single) ∧
    (f32Gt (playing 4 3 .loop f32PosOne).pos (playing 4 3 .loop f32PosOne).rend = true ∧
      (playing 4 3 .loop f32PosOne).mode = .loop) ∧
    f32Gt (playing 3 3 .single f32PosOne).pos (playing 3 3 .single f32PosOne).rend = false := by decide +kernel

/-- `playing` one frame on, so that the floor has changed. -/
def moved (st : Int) : Voice := advance (playing st 9 .single f32PosOne)

theorem witness_FrameFetchesBlendsAndAdds :
    Memory.wf (putWords [] 0x2000 [1#32]) = true ∧
    f32FloorSat (playing 3 9 .single f32PosOne).pos = (playing 3 9 .single f32PosOne).ipos ∧
    (f32FloorSat (moved 2).pos ≠ (moved 2).ipos ∧ 0 ≤ (f32FloorSat (moved 2).pos).toInt ∧
      (f32FloorSat (moved 2).pos).toInt < quad.length) ∧
    (f32FloorSat (moved (-1)).pos ≠ (moved (-1)).ipos ∧ 0 ≤ (f32FloorSat (moved (-1)).pos).toInt) ∧
    (f32FloorSat (moved 3).pos ≠ (moved 3).ipos ∧ outside (f32FloorSat (moved 3).pos).toInt quad.length) := by
  unfold outside; decide +kernel

/-- A run of UPDATE with one voice playing. -/
theorem update_runs : ∃ t, exec .update (mixing (playing 0 3 .single f32PosOne) 4 []) = .next t ∧
    t.status.err = false ∧ t.session.active = 1 := by
  obtain ⟨t, h, h'⟩ := runs_spec (o := exec .update (mixing (playing 0 3 .single f32PosOne) 4 []))
    (p := fun t => !t.status.err && decide (t.session.active = 1)) (by decide +kernel)
  exact ⟨t, h, by simpa using h'⟩

/-- With a playing and an idle voice, and with the idle one left out. -/
theorem witness_UpdateCountsBoundNonEmptyVoices :
    let s := { mixing (playing 0 3 .single f32PosOne) 1 [] with
      session := { ses.session with voices := [playing 0 3 .single f32PosOne, defaultVoice 48000#32] } };
    (∃ t, exec .update s = .next t ∧ t.status.err = false) ∧
    (s.session.voices[1]? = some (defaultVoice 48000#32) ∧ mixed s.session (defaultVoice 48000#32) = false) ∧
    ∃ t', exec .update { s with
      session := { s.session with voices := s.session.voices.filter (mixed s.session) } } = .next t' := by
  intro s
  refine ⟨?_, by decide +kernel, ?_⟩
  · obtain ⟨t, h, h'⟩ := runs_spec (o := exec .update s) (p := fun t => !t.status.err) (by decide +kernel)
    exact ⟨t, h, by simpa using h'⟩
  · exact (runs_spec (p := fun _ => true) (by decide +kernel)).imp fun _ h => h.1

theorem witness_GlobalPassScalesEveryWord :
    ∃ s t, Memory.wf s.mem = true ∧ exec .update s = .next t ∧ t.status.err = false ∧ 7 < 2 * (a1 s).toNat ∧
      0x1FFF < s.latched.arg0.toNat ∧ s.latched.arg0.toNat + 8 * (a1 s).toNat ≤ 0x2020 :=
  ⟨_, update_runs.imp fun _ h => ⟨by decide +kernel, h.1, h.2.1, by unfold a1; decide +kernel⟩⟩

/-- A region over the first byte of the window, and one over the last byte of a device. -/
theorem witness_ForbiddenRegionsAreRefused :
    exec .load { pcm [0#32, 0x0FFF#32, 2#32, 2#32, 1#32] with params := { Config.vectorParams with ctrlBase := 0x1000 } } =
      .refused .windowRegion ∧
    exec .update { withArgs [0x2000#32, 1#32] with params := { Config.vectorParams with devices := [(0x1000, 0x1001)] } } =
      .refused .deviceRegion ∧
    (∃ s g, s.host = .reset :: [] ∧ inFlight s = some g ∧ forbidden s.params g.base g.len .deviceRegion ∧
      hostStep s = .refused .deviceRegion) := by
  refine ⟨rfl, rfl, { busyWith (pcm [0#32, 0x1000#32, 10#32, 2#32, 2#32]) 0x10#32 with
    host := [.reset], params := { Config.vectorParams with devices := [(0x1009, 1)] } }, ⟨0x1000, 10⟩, rfl,
    by decide +kernel, ?_, rfl⟩
  exact ⟨by decide, .inr ⟨by decide, rfl, (0x1009, 1), by decide, by decide⟩⟩

theorem witness_UpdateFrame :
    ∃ s t, exec .update s = .next t ∧ Memory.wf s.mem = true :=
  ⟨_, update_runs.imp fun _ h => ⟨h.1, by decide +kernel⟩⟩

/-- The buffers differ in a right lane and agree in the left ones. -/
theorem witness_LanesDoNotMix :
    ∃ s t t' m', Memory.wf s.mem = true ∧ Memory.wf m' = true ∧ m' ≠ s.mem ∧
      (∀ i, i < (a1 s).toNat → Memory.read s.mem (s.latched.arg0.toNat + 8 * i + 0) .w32 =
        Memory.read m' (s.latched.arg0.toNat + 8 * i + 0) .w32) ∧
      exec .update s = .next t ∧ exec .update { s with mem := m' } = .next t' := by
  obtain ⟨t, h, -⟩ := runs_spec (o := exec .update (mixing (playing 0 3 .single f32PosOne) 2 [1#32]))
    (p := fun t => !t.status.err) (by decide +kernel)
  obtain ⟨t', h', -⟩ := runs_spec (o := exec .update
      { mixing (playing 0 3 .single f32PosOne) 2 [1#32] with mem := putWords [] 0x2000 [1#32, 2#32] })
    (p := fun t => !t.status.err) (by decide +kernel)
  exact ⟨_, t, t', _, by decide +kernel, by decide +kernel, by decide +kernel, by unfold a1; decide +kernel, h, h'⟩

/-- The buffers differ in the left lanes and agree in the right ones. -/
theorem witness_LanesDoNotMix_right :
    ∃ s t t' m', Memory.wf s.mem = true ∧ Memory.wf m' = true ∧ m' ≠ s.mem ∧
      (∀ i, i < (a1 s).toNat → Memory.read s.mem (s.latched.arg0.toNat + 8 * i + 4) .w32 =
        Memory.read m' (s.latched.arg0.toNat + 8 * i + 4) .w32) ∧
      exec .update s = .next t ∧ exec .update { s with mem := m' } = .next t' ∧ t.status.err = false := by
  obtain ⟨t, h, he⟩ := runs_spec (o := exec .update (mixing (playing 0 3 .single f32PosOne) 2 [1#32, 7#32]))
    (p := fun t => !t.status.err) (by decide +kernel)
  obtain ⟨t', h', -⟩ := runs_spec (o := exec .update
      { mixing (playing 0 3 .single f32PosOne) 2 [1#32, 7#32] with mem := putWords [] 0x2000 [2#32, 7#32] })
    (p := fun t => !t.status.err) (by decide +kernel)
  exact ⟨_, t, t', _, by decide +kernel, by decide +kernel, by decide +kernel, by unfold a1; decide +kernel, h, h',
    by simpa using he⟩

/-- A voice just started at frame 0 of four that plays five frames, one past the last, and a value that the blend gives
back. -/
theorem witness_UnityPitchPlaysOneFrameLate :
    (let v := playing 0 4 .single f32PosOne;
      Memory.wf [] = true ∧ 1 ≤ 5 ∧ 0 + 5 ≤ quad.length + 1 ∧ 0 + 5 ≤ 2 ^ 24 ∧ v.pitch = 0x3F800000#32 ∧
      v.pos = f32FromInt (0 : Nat) ∧ v.ipos = BitVec.ofNat 32 0 ∧ quad[0]? = some v.cur ∧ v.prev = v.cur ∧
      ∀ i, i < 5 → f32Gt (f32FromInt ((0 + i : Nat) : Int)) v.rend = false) ∧
    (f32IsFinite 0x3F000000#32 = true ∧ f32IsFinite (f32Sub 0xBF800000#32 0x3F000000#32) = true ∧
      0x3F000000#32 ≠ 0x80000000#32) := by decide +kernel

theorem witness_OddAccessesDoNothing :
    (0x20 < 64 ∧ 2 ≠ 4 ∧ 8 ≠ 4) ∧ 0x22 % 4 ≠ 0 ∧ (0x24 ≤ 0x24 ∧ 0x24 ≤ 0x3C ∧ 0x3C < 64) ∧
    (acting (.read 0x00010024 4)).host = .read (ses.params.ctrlBase + 0x24) 4 :: [] ∧
    (acting (.write 0x00010020 8 4)).host = .write (ses.params.ctrlBase + 0x20) 8 4 :: [] := by decide +kernel

theorem witness_WindowReadsFollowTheMap :
    0x3F < 64 ∧ (acting (.read 0x0001003F 1)).host = .read (ses.params.ctrlBase + 0x3F) 1 :: [] ∧
    (acting (.read 0x00010020 4)).host = .read (ses.params.ctrlBase + 0x20) 4 :: [] := by decide +kernel

/-- One offset at each end of each clause. -/
theorem witness_WindowWritesFollowTheMap :
    [0x00, 0x04, 0x18, 0x1C, 0x20, 0x24, 0x3C, 0x3F].all (fun off =>
      decide (off < 64 ∧ (acting (.write (0x10000 + off) 4 5)).host = .write (ses.params.ctrlBase + off) 4 5 :: [])) = true ∧
    (5#32 : Word) = BitVec.ofNat 32 5 ∧ (busyActing .wait).status.busy = true ∧ ses.status.busy = false ∧
    0x3F % 4 ≠ 0 := by decide +kernel

/-- A state with LOAD of 0x1000 .. 0x1009 in progress and one host action. -/
def loading (h : HostAction) : State :=
  { busyWith (pcm [0#32, 0x1000#32, 10#32, 2#32, 2#32]) 0x10#32 with host := [h], remaining := 1 }

/-- The last byte of the region, and the bytes next to it on both sides. -/
theorem witness_InFlightWritesFault :
    (loading (.write 0x1009 1 1)).host = .write 0x1009 1 1 :: [] ∧
    reachesMemory (loading .wait) 0x1009 1 ∧ reachesMemory (loading .wait) 0x100A 1 ∧
    reachesMemory (loading .wait) 0x0FFC 4 ∧ inFlight (loading .wait) = some ⟨0x1000, 10⟩ ∧
    (0x1009 < 0x1000 + 10 ∧ 0x1000 < 0x1009 + 1) ∧ 0x1000 + 10 ≤ 0x100A ∧ 0x0FFC + 4 ≤ 0x1000 := by
  unfold reachesMemory; decide +kernel

theorem witness_HostReadsSeeMemory :
    (loading (.read 0x100A 2)).host = .read 0x100A 2 :: [] ∧ reachesMemory (loading .wait) 0x100A 2 ∧
    reachesMemory (loading .wait) 0x1009 1 ∧ inFlight (loading .wait) = some ⟨0x1000, 10⟩ ∧ inFlight ses = none := by
  unfold reachesMemory; decide +kernel

theorem not_fails {i : Instr} {s : State} (h : runs (exec i s) (fun t => !t.status.err) = true) (c : Cause) :
    ¬ failsWith i s c := by
  intro hf
  rw [failsWith] at hf
  rw [hf] at h
  cases h

theorem witness_InFlightRegionIsTheCommands :
    (ses.status.busy = false ∧ decode (busyWith ses 1#32).cmd = .ok .init ∧
      decode (busyWith ses 0x0B#32).cmd = .error .unassignedOpcode) ∧
    (decode (busyWith (pcm [0#32]) 0x10#32).cmd = .ok .load ∧
      failsIn (busyWith (pcm [0#32]) 0x10#32) .load .param = true) ∧
    ((loading .wait).status.busy = true ∧ decode (loading .wait).cmd = .ok .load ∧
      ∀ c, ¬ failsWith .load (loading .wait) c) ∧
    ((busyWith (mixing (defaultVoice 48000#32) 1 []) 0x30#32).status.busy = true ∧
      decode (busyWith (mixing (defaultVoice 48000#32) 1 []) 0x30#32).cmd = .ok .update ∧
      ∀ c, ¬ failsWith .update (busyWith (mixing (defaultVoice 48000#32) 1 []) 0x30#32) c) :=
  ⟨by decide +kernel, by decide +kernel, ⟨rfl, by decide +kernel, not_fails (by decide +kernel)⟩,
    ⟨rfl, by decide +kernel, not_fails (by decide +kernel)⟩⟩

/-- A region apart from the window and from every device is one a command may be given. -/
theorem allowed_of {s : State} {g : Region} (hg : inFlight s = some g)
    (hw : s.params.ctrlBase + 64 ≤ g.base ∨ g.base + g.len ≤ s.params.ctrlBase)
    (hd : ∀ d ∈ s.params.devices, d.1 + d.2 ≤ g.base ∨ g.base + g.len ≤ d.1) : regionAllowed s := by
  intro g' r h
  rw [hg] at h
  cases h
  rintro ⟨-, ⟨h1, h2, -⟩ | ⟨-, -, d, hm, -, h1, h2⟩⟩
  · omega
  · have := hd d hm; omega

/-- `s` with the window at 0x2040, inside host memory, and devices at 0x1FFF and 0x100A. -/
def crowded (s : State) : State :=
  { s with params := { Config.vectorParams with ctrlBase := 0x2040, devices := [(0x1FFF, 1), (0x100A, 2)] } }

/-- The reset input with nothing in flight, and during an UPDATE that fills the room between a device and the window. -/
theorem witness_ResetClearsTheBlock :
    ((acting .reset).host = .reset :: [] ∧ inFlightUpdate (acting .reset) = none ∧ regionAllowed (acting .reset)) ∧
    (let s := crowded { busyWith (mixing (defaultVoice 48000#32) 8 []) 0x30#32 with host := [.reset] };
      inFlightUpdate s = some ⟨0x2000, 8⟩ ∧ regionAllowed s ∧ Memory.wf s.mem = true) := by
  refine ⟨⟨rfl, rfl, fun g r h => by cases h⟩, by decide +kernel, ?_, rfl⟩
  exact allowed_of (g := ⟨0x2000, 64⟩) (by decide +kernel) (by decide +kernel) (by decide +kernel)

/-- A LOAD of 0x1000 .. 0x1009 with a device at 0x100A, and the window inside host memory. -/
theorem witness_WaitAlwaysEnds :
    let s := crowded (loading .wait);
    s.status.busy = true ∧ s.host = .wait :: [] ∧ regionAllowed s ∧ s.params.ctrlBase < s.params.hostMemBytes := by
  refine ⟨rfl, rfl, ?_, by decide⟩
  exact allowed_of (g := ⟨0x1000, 10⟩) (by decide +kernel) (by decide +kernel) (by decide +kernel)

/-- PLAY, the longest operand list, and FINI, the shortest. -/
theorem witness_ExpandedCommandIsAccepted :
    ses.status.busy = false ∧ (List.replicate 6 (Literal.int 0)).length = Instr.play.operands.length ∧
    ([] : List Literal).length = Instr.fini.operands.length ∧
    ({ ses with host := expandLine ses.params (.command .fini []) } : State).host =
      expandLine ses.params (.command .fini []) ++ [] := by decide +kernel

/-- A failure and a success. -/
theorem witness_CompletionFollowsR352 :
    (∃ t, exec .init ses = .next t ∧ t.status.err = true) ∧ (∃ t, exec .getsr ses = .next t ∧ t.status.err = false) := by
  refine ⟨runs_spec (p := fun t => t.status.err) (by decide +kernel), ?_⟩
  obtain ⟨t, h, h'⟩ := runs_spec (o := exec .getsr ses) (p := fun t => !t.status.err) (by decide +kernel)
  exact ⟨t, h, by simpa using h'⟩

theorem witness_StateCauseOutsideTheBracket :
    (State.reset.session.init = false ∧ Instr.update ≠ .init ∧ Instr.update ≠ .isinit) ∧ ses.session.init = true ∧
    ∃ t, exec .isinit ses = .next t :=
  ⟨by decide, by decide +kernel, (runs_spec (p := fun _ => true) (by decide +kernel)).imp fun _ h => h.1⟩

theorem witness_CausesAreThoseOfTheTable : ∃ t, exec .init ses = .next t :=
  witness_CompletionFollowsR352.1.imp fun _ h => h.1

/-- An UPDATE that counts a voice, and a reset of a counting session. -/
theorem witness_ActiveCountHasFourWriters :
    (∃ s t, step s = .next t ∧ t.session.active ≠ s.session.active ∧ s.status.busy = true) ∧
    ∃ s t, step s = .next t ∧ t.session.active ≠ s.session.active ∧ s.host = [.reset] ∧ s.status.busy = false := by
  constructor
  · obtain ⟨t, h, h'⟩ := runs_spec
      (o := step (busyWith (mixing (playing 0 3 .single f32PosOne) 1 []) 0x30#32))
      (p := fun t => decide (t.session.active = 1)) (by decide +kernel)
    refine ⟨_, t, h, ?_, rfl⟩
    rw [of_decide_eq_true h']; decide +kernel
  · obtain ⟨t, h, h'⟩ := runs_spec
      (o := step { acting .reset with session := { ses.session with active := 1 } })
      (p := fun t => decide (t.session.active = 0)) (by decide +kernel)
    refine ⟨_, t, h, ?_, rfl, rfl⟩
    rw [of_decide_eq_true h']; decide

/-- A SETNVOC that changes the size of the pool. -/
theorem witness_SessionBoundsHoldAcrossSteps :
    ∃ s t, step s = .next t ∧ s.session.init = true ∧ t.session.init = true ∧
      t.session.voices.length ≠ s.session.voices.length := by
  obtain ⟨t, h, h'⟩ := runs_spec (o := step (busyWith (withArgs [8#32]) 0x07#32))
    (p := fun t => t.session.init && decide (t.session.voices.length = 8)) (by decide +kernel)
  rw [Bool.and_eq_true, decide_eq_true_eq] at h'
  refine ⟨_, t, h, by decide +kernel, h'.1, ?_⟩
  rw [h'.2]; decide +kernel

theorem witness_InvariantsHoldAfterReset :
    Params.wf { Config.vectorParams with ctrlBase := 2 ^ 32, hostMemBytes := 2 ^ 32, sampleMemFrames := 0 } := by
  decide

/-- A session whose voice is bound, panned and moved. -/
def invState : State :=
  { ses with session := { ses.session with voices := [playing 2 3 .loop f32PosOne] } }

theorem invState_inv : invState.Inv where
  params_wf := by decide
  session_ok :=
    { empty_outside := by decide +kernel
      rate_positive := by decide +kernel
      volume_in_range := by decide +kernel
      active_bounded := by decide +kernel
      slots_bounded := by decide +kernel
      frames_bounded := by decide +kernel
      voice_exists := by decide +kernel
      voices_bounded := by decide +kernel
      voices_ok := by
        intro v hv
        simp only [invState, List.mem_singleton] at hv
        subst hv
        exact
          { bound_slot_exists := by
              intro k hk
              cases hk
              decide +kernel
            volume_in_range := by decide +kernel
            pan_in_range := by decide +kernel
            gains_of_pan := by decide +kernel
            frequency_ok := by decide +kernel
            pitch_of_frequency := by decide +kernel
            position_ok := by decide +kernel
            start_of_frame := ⟨0#32, by decide +kernel⟩
            end_of_frame := ⟨3#32, by decide +kernel⟩ } }
  mem_wf := rfl
  mem_inside := by decide +kernel
  init_mirrored := by decide +kernel
  err_iff_cause := by decide +kernel
  failure_returns_zero := by decide +kernel
  latched_while_busy := by decide +kernel
  idle_without_time := by decide +kernel

/-- R400: a session state within the invariants is a launch; one whose voice ends at frame 0.5 (R46) is not. -/
theorem test_session_launch :
    SessionLaunch invState ∧
    ¬ SessionLaunch { invState with session := { ses.session with voices :=
      [{ playing 2 3 .loop f32PosOne with rend := 0x3F000000#32 }] } } := by
  refine ⟨⟨invState_inv, rfl, rfl, rfl, rfl, rfl⟩, fun h => ?_⟩
  exact not_isFrameBound_of_lt_one (by decide) (by decide +kernel) (by decide +kernel)
    (h.1.session_ok.voices_ok _ (List.mem_singleton.mpr rfl)).end_of_frame

theorem witness_EveryStepKeepsTheInvariants : ∃ s t : State, s.Inv ∧ s.session.init = true ∧ step s = .next t :=
  ⟨invState, _, invState_inv, by decide +kernel, rfl⟩

/-- A finite and an infinite result. -/
theorem witness_RoundingIsToNearestEven :
    (0 < 3 ∧ f32IsFinite (f32Round false 1 3) = true ∧ f32IsFinite 0x00000001#32 = true) ∧
    f32IsInf (f32Round true (2 ^ 300) 1) = true := by decide +kernel

/-- Finite operands with a nonzero, a positive zero and a negative zero sum and a zero divisor; infinite ones against a finite, a zero
and either infinity; an integer at the bound of exactness. -/
theorem witness_OperationsRoundTheExactResult :
    (f32IsFinite 0x3F800000#32 = true ∧ f32IsFinite 0x80000000#32 = true ∧ f32IsFinite 0x00000001#32 = true ∧
      f32Val 0x3F800000#32 + f32Val 0xBF800000#32 = 0 ∧ f32Val 0x3F800000#32 + f32Val 0x00000001#32 ≠ 0 ∧
      f32Mag 0x80000000#32 = 0 ∧ f32Mag 0x00000001#32 ≠ 0) ∧
    (f32IsInf 0x7F800000#32 = true ∧ f32IsInf 0xFF800000#32 = true ∧ f32IsNaN 0xFF800000#32 = false ∧
      f32IsNaN 0x00000000#32 = false ∧ f32Val 0x00000000#32 = 0) ∧ (-(2 ^ 24) : Int).natAbs ≤ 2 ^ 24 := by decide +kernel

/-- R12, R13 and log entry 19: zero sums, the invalid operations and division by zero. -/
theorem test_float_corners :
    f32Add 0x3F800000#32 0xBF800000#32 = 0x00000000#32 ∧ f32Add 0x80000000#32 0x80000000#32 = 0x80000000#32 ∧
    f32Sub 0x7F800000#32 0x7F800000#32 = 0x7FC00000#32 ∧ f32Mul 0x80000000#32 0x7F800000#32 = 0x7FC00000#32 ∧
    f32Div 0xBF800000#32 0x00000000#32 = 0xFF800000#32 ∧ f32Div 0x00000000#32 0x80000000#32 = 0x7FC00000#32 ∧
    f32Div 0xBF800000#32 0x7F800000#32 = 0x80000000#32 := by decide +kernel

theorem witness_ArithmeticNaNIsCanonical :
    f32Sub ∈ [f32Add, f32Sub, f32Mul, f32Div] ∧ f32IsNaN (f32Sub 0x7F800000#32 0x7F800000#32) = true ∧
    f32IsNaN 0x7FA00001#32 = true := ⟨by simp, by decide +kernel, by decide⟩

/-- Below, above, inside, and NaN. -/
theorem witness_ClampStaysInItsInterval :
    (f32IsNaN f32NegOne = false ∧ f32IsNaN f32PosOne = false ∧ f32Val f32NegOne ≤ f32Val f32PosOne) ∧
    f32IsNaN 0x7FC00000#32 = true ∧ f32Lt 0xBF800001#32 f32NegOne = true ∧ f32Gt 0x3F800001#32 f32PosOne = true ∧
    (f32IsNaN f32PosOne = false ∧ f32Lt f32PosOne f32NegOne = false ∧ f32Gt f32PosOne f32PosOne = false) := by
  decide +kernel

/-- NaN, 2^31, the value just below -2^31, -2^31 itself and the value just below 2^31. -/
theorem witness_FloorSaturates :
    f32IsNaN 0x7FC00000#32 = true ∧ (f32IsNaN 0x4F000000#32 = false ∧ 2 ^ 31 * 2 ^ 149 ≤ f32Val 0x4F000000#32) ∧
    f32Val 0xCF000001#32 < -(2 ^ 31) * 2 ^ 149 ∧
    (-(2 ^ 31) * 2 ^ 149 ≤ f32Val 0xCF000000#32 ∧ f32Val 0xCF000000#32 < 2 ^ 31 * 2 ^ 149) ∧
    (-(2 ^ 31) * 2 ^ 149 ≤ f32Val 0x4EFFFFFF#32 ∧ f32Val 0x4EFFFFFF#32 < 2 ^ 31 * 2 ^ 149) := by decide +kernel

/-- R17: an infinity gives the bound on its side, also where a bound lies past every binary32 value. -/
theorem test_integer_rounding_infinity :
    f32ToIntRneSat 0x7F800000#32 0 (2 ^ 200) = 2 ^ 200 ∧ f32ToIntRneSat 0xFF800000#32 (-(2 ^ 200)) 0 = -(2 ^ 200) := by
  decide +kernel

/-- NaN, a tie, the largest finite value; the infinities need no more than the order of the bounds. -/
theorem witness_IntegerRoundingSaturates :
    (-128 : Int) ≤ 127 ∧ f32IsNaN 0x7FC00000#32 = true ∧ f32IsFinite 0x3F000000#32 = true ∧
    f32IsFinite 0x7F7FFFFF#32 = true := by decide

theorem witness_MemoryIsLittleEndian :
    (Memory.wf (Memory.writeBytes [] 0x1000 0x0807060504030201 8) = true ∧ 7 < 8) ∧
    Memory.wf (putWords [] 0x1000 [0x04030201#32]) = true ∧ 3 < Width.w32.bytes ∧ 0x0FFF < 0x1000 ∧
    0x1000 + Width.w32.bytes ≤ 0x1004 := by decide +kernel

end Sys2Proof.Tests
end

section
/-! PROOFS. The arithmetic and memory statements of 00_scope.md: rounding, the operations on F32, clamping, the two
conversions to integers, and host memory by bytes. -/

namespace Sys2Proof.Machine

/-! ## Rounding (R12): where `roundMag` changes from one pattern to the next -/

/-- The pattern `p` just below the quotient, and the choice between it and the next one, said with magnitudes only. -/
theorem roundMag_between (n d : Nat) (hd : 0 < d) :
    ∃ p, magOfBits p * d ≤ n ∧ n < magOfBits (p + 1) * d ∧
      roundMag n d =
        min (if (magOfBits p + magOfBits (p + 1)) * d < 2 * n ∨
            ((magOfBits p + magOfBits (p + 1)) * d = 2 * n ∧ p % 2 = 1)
          then p + 1 else p) 0x7F800000 := by
  obtain ⟨k, m, h1, h2, h3, h4, h5⟩ := roundMag_cases n d hd
  have hp : magOfBits (k * 2 ^ 23 + m) = m * 2 ^ k := magOfBits_pack h1 h2.le
  have hp' : magOfBits (k * 2 ^ 23 + m + 1) = (m + 1) * 2 ^ k := by
    rw [Nat.add_assoc, magOfBits_pack (by omega) (by omega)]
  have hsum : (m * 2 ^ k + (m + 1) * 2 ^ k) * d = 2 * (m * 2 ^ k * d) + d * 2 ^ k := by ring
  refine ⟨k * 2 ^ 23 + m, by rwa [hp], by rwa [hp'], ?_⟩
  rw [h5, hp, hp', hsum]
  congr 1
  split <;> split <;> omega

theorem magOfBits_mul_le {x y : Nat} (d : Nat) (h : x ≤ y) : magOfBits x * d ≤ magOfBits y * d :=
  Nat.mul_le_mul_right d (magOfBits_strictMono.monotone h)

theorem magOfBits_mul_lt_succ (x : Nat) {d : Nat} (hd : 0 < d) : magOfBits x * d < magOfBits (x + 1) * d :=
  Nat.mul_lt_mul_of_pos_right (magOfBits_lt_succ x) hd

/-- Rounding stays at or below `b` exactly up to the midpoint above `b`, which goes to the even one of its
neighbours. -/
theorem roundMag_le_iff {n d b : Nat} (hd : 0 < d) (hb : b < 0x7F800000) :
    roundMag n d ≤ b ↔ 2 * n < (magOfBits b + magOfBits (b + 1)) * d ∨
      (2 * n = (magOfBits b + magOfBits (b + 1)) * d ∧ b % 2 = 0) := by
  obtain ⟨p, hlo, hhi, hr⟩ := roundMag_between n d hd
  rw [hr, min_le_iff, or_iff_left (by omega), Nat.add_mul, Nat.add_mul]
  have hstep := magOfBits_mul_lt_succ b hd
  rcases lt_trichotomy b p with h | rfl | h
  · have := magOfBits_mul_le d (show b + 1 ≤ p from h)
    split <;> omega
  · split <;> omega
  · have := magOfBits_mul_le d (show p + 1 ≤ b from h)
    split <;> omega

/-- Rounding overflows exactly from the midpoint above the largest finite magnitude on. -/
theorem roundMag_eq_inf_iff {n d : Nat} (hd : 0 < d) :
    roundMag n d = 0x7F800000 ↔ (2 ^ 25 - 1) * 2 ^ 253 * d ≤ 2 * n := by
  have hmid : magOfBits 0x7F7FFFFF + magOfBits (0x7F7FFFFF + 1) = (2 ^ 25 - 1) * 2 ^ 253 := by
    rw [maxFinite_mag, magOfBits_inf, show 277 = 24 + 253 from rfl, pow_add]; norm_num
  have hle := roundMag_le_inf n d
  have hiff := roundMag_le_iff (n := n) hd (b := 0x7F7FFFFF) (by norm_num)
  rw [hmid] at hiff
  omega

/-- No pattern is nearer to `n / d` than its rounding, and a tie with another pattern goes to the even one. -/
theorem roundMag_nearest {n d : Nat} (hd : 0 < d) (h : roundMag n d < 0x7F800000) (y : Nat) :
    ((magOfBits (roundMag n d) * d : Nat) - n : Int).natAbs ≤ ((magOfBits y * d : Nat) - n : Int).natAbs ∧
    (((magOfBits (roundMag n d) * d : Nat) - n : Int).natAbs = ((magOfBits y * d : Nat) - n : Int).natAbs →
      y ≠ roundMag n d → roundMag n d % 2 = 0) := by
  set R := roundMag n d
  rcases lt_trichotomy y R with hy | rfl | hy
  · obtain ⟨b, hb⟩ : ∃ b, R = b + 1 := ⟨R - 1, by omega⟩
    have hmid := (roundMag_le_iff (n := n) hd (b := b) (by omega)).not.mp (by omega)
    have hlt := magOfBits_mul_lt_succ b hd
    have hyb := magOfBits_mul_le d (show y ≤ b by omega)
    rw [Nat.add_mul] at hmid
    rw [hb]
    omega
  · simp
  · have hmid := (roundMag_le_iff (n := n) hd h).mp le_rfl
    have hlt := magOfBits_mul_lt_succ R hd
    have hyR := magOfBits_mul_le d (show R + 1 ≤ y from hy)
    rw [Nat.add_mul] at hmid
    omega

/-- Bits 30:0 of a rounded value. -/
theorem f32Round_mod (neg : Bool) (n d : Nat) : (f32Round neg n d).toNat % 2 ^ 31 = roundMag n d := by
  rw [f32Round_eq_pack, packBits_mod (roundMag_lt n d)]

/-- The last bit says whether bits 30:0 are odd. -/
theorem f32_lastBit (x : F32) : x.getLsbD 0 = decide (x.toNat % 2 ^ 31 % 2 = 1) := by
  rw [BitVec.getLsbD, Nat.testBit_zero, decide_eq_decide]
  omega

theorem f32IsInf_round_iff (neg : Bool) {n d : Nat} (hd : 0 < d) :
    f32IsInf (f32Round neg n d) = true ↔ (2 ^ 25 - 1) * 2 ^ 253 * d ≤ 2 * n := by
  rw [f32IsInf_eq, f32Round_mod, decide_eq_true_eq, roundMag_eq_inf_iff hd]

/-! ## NaN operands (R13) -/

theorem f32Add_of_nan {a b : F32} (h : f32IsNaN a = true ∨ f32IsNaN b = true) : f32Add a b = f32NaN := by
  rw [f32Add, if_pos (by simpa using h)]

theorem f32Sub_of_nan {a b : F32} (h : f32IsNaN a = true ∨ f32IsNaN b = true) : f32Sub a b = f32NaN :=
  f32Add_of_nan (by rwa [f32IsNaN_neg])

theorem f32Mul_of_nan {a b : F32} (h : f32IsNaN a = true ∨ f32IsNaN b = true) : f32Mul a b = f32NaN :=
  if_pos (by simpa using h)

theorem f32Div_of_nan {a b : F32} (h : f32IsNaN a = true ∨ f32IsNaN b = true) : f32Div a b = f32NaN :=
  if_pos (by simpa using h)

/-! ## Addition and multiplication in either order -/

theorem f32Add_comm (a b : F32) : f32Add a b = f32Add b a := by
  by_cases hn : f32IsNaN a = true ∨ f32IsNaN b = true
  · rw [f32Add_of_nan hn, f32Add_of_nan hn.symm]
  obtain ⟨ha, hb⟩ : f32IsNaN a = false ∧ f32IsNaN b = false := by simpa using hn
  cases hia : f32IsInf a <;> cases hib : f32IsInf b
  case false.false =>
    have hfa := finite_of_not ha hia
    have hfb := finite_of_not hb hib
    rw [f32Add_finite hfa hfb, f32Add_finite hfb hfa, Int.add_comm, Bool.and_comm]
  case false.true => simp [f32Add, ha, hb, hia, hib]
  case true.false => simp [f32Add, ha, hb, hia, hib]
  case true.true =>
    by_cases hs : f32Sign a = f32Sign b
    · rw [eq_inf_of_isInf hia, eq_inf_of_isInf hib, hs]
    · simp [f32Add, ha, hb, hia, hib, hs, Ne.symm hs]

theorem f32Mul_comm (a b : F32) : f32Mul a b = f32Mul b a := by
  simp only [f32Mul, Bool.or_comm (f32IsNaN a), Bool.or_comm (f32IsInf a), or_comm (a := f32Mag a = 0),
    bne_comm (a := f32Sign a), Nat.mul_comm (f32Mag a)]

/-! ## Zeros and infinities -/

theorem f32Mag_eq_zero_iff {x : F32} : f32Mag x = 0 ↔ x = packBits (f32Sign x) 0 := by
  constructor
  · intro h
    rw [f32Mag_eq, ← magOfBits_zero, magOfBits_strictMono.injective.eq_iff] at h
    conv_lhs => rw [← pack_self x, h]
  · intro h
    rw [h, f32Mag_pack (by norm_num), magOfBits_zero]

theorem f32Val_eq_zero_iff {x : F32} : f32Val x = 0 ↔ f32Mag x = 0 := by
  unfold f32Val
  split <;> omega

/-- Both summands of a zero sum with two minus signs are `-0.0`. -/
theorem both_negative_iff_of_zero_sum {a b : F32} (h : f32Val a + f32Val b = 0) :
    (f32Sign a && f32Sign b) = true ↔ a = 0x80000000#32 ∧ b = 0x80000000#32 := by
  constructor
  · intro hs
    obtain ⟨hsa, hsb⟩ : f32Sign a = true ∧ f32Sign b = true := by simpa using hs
    simp only [f32Val, hsa, hsb, if_true] at h
    have ha := f32Mag_eq_zero_iff.mp (show f32Mag a = 0 by omega)
    have hb := f32Mag_eq_zero_iff.mp (show f32Mag b = 0 by omega)
    rw [ha, hb, hsa, hsb]
    decide
  · rintro ⟨rfl, rfl⟩
    decide

theorem f32Neg_eq_negZero_iff {x : F32} : f32Neg x = 0x80000000#32 ↔ x = 0#32 := by
  rw [f32Neg]
  bv_omega

@[simp] theorem f32Sign_inf (s : Bool) : f32Sign (f32Inf s) = s := by cases s <;> decide

@[simp] theorem f32IsInf_inf (s : Bool) : f32IsInf (f32Inf s) = true := by cases s <;> decide

theorem f32Inf_injective : Function.Injective f32Inf := fun s t h => by
  rw [← f32Sign_inf s, h, f32Sign_inf]

theorem f32Neg_inf (s : Bool) : f32Neg (f32Inf s) = f32Inf (!s) := by cases s <;> decide

theorem f32Mag_inf (s : Bool) : f32Mag (f32Inf s) = 2 ^ 277 := by cases s <;> decide +kernel

/-- Every finite value lies strictly between the infinities. -/
theorem f32Val_finite_between {x : F32} (h : f32IsFinite x = true) :
    f32Val (f32Inf true) < f32Val x ∧ f32Val x < f32Val (f32Inf false) := by
  have hlt : f32Mag x < 2 ^ 277 :=
    (f32Mag_le_of_finite h).trans_lt (magOfBits_inf ▸ magOfBits_strictMono (by norm_num))
  simp only [f32Val, f32Sign_inf, f32Mag_inf, if_true, Bool.false_eq_true, if_false]
  split <;> omega

/-! ## The operations on finite operands (R12) -/

theorem f32Sub_finite {a b : F32} (ha : f32IsFinite a = true) (hb : f32IsFinite b = true) :
    f32Sub a b =
      if f32Val a - f32Val b = 0 then (if a = 0x80000000#32 ∧ b = 0#32 then 0x80000000#32 else 0#32)
      else f32Round (decide (f32Val a - f32Val b < 0)) (f32Val a - f32Val b).natAbs 1 := by
  rw [f32Sub, f32Add_finite ha (by simpa using hb), f32Val_neg, ← Int.sub_eq_add_neg]
  split
  · rename_i h
    simp only [both_negative_iff_of_zero_sum (a := a) (b := f32Neg b) (by rw [f32Val_neg]; omega),
      f32Neg_eq_negZero_iff]
    rfl
  · rfl

theorem f32Mul_finite {a b : F32} (ha : f32IsFinite a = true) (hb : f32IsFinite b = true) :
    f32Mul a b = f32Round (f32Sign a != f32Sign b) (f32Mag a * f32Mag b) f32One := by
  simp [f32Mul, not_nan_of_finite ha, not_nan_of_finite hb, not_inf_of_finite ha, not_inf_of_finite hb]

theorem f32Div_finite {a b : F32} (ha : f32IsFinite a = true) (hb : f32IsFinite b = true) :
    f32Div a b =
      if f32Mag b ≠ 0 then f32Round (f32Sign a != f32Sign b) (f32Mag a * f32One) (f32Mag b)
      else if f32Mag a = 0 then f32NaN else f32Inf (f32Sign a != f32Sign b) := by
  simp [f32Div, not_nan_of_finite ha, not_nan_of_finite hb, not_inf_of_finite ha, not_inf_of_finite hb]

/-! ## The operations with an infinite operand (R13; signs: log entry 19) -/

theorem not_nan_of_inf {x : F32} (h : f32IsInf x = true) : f32IsNaN x = false := by
  rw [eq_inf_of_isInf h, f32IsNaN_inf]

/-- An infinity absorbs a summand, except the infinity of the other sign. -/
theorem f32Add_inf {a b : F32} (ha : f32IsInf a = true) (hb : f32IsNaN b = false) :
    f32Add a b = if f32IsInf b = true ∧ b ≠ a then f32NaN else a := by
  have hne (hib : f32IsInf b = true) : b ≠ a ↔ f32Sign a ≠ f32Sign b := by
    rw [eq_inf_of_isInf ha, eq_inf_of_isInf hib, f32Inf_injective.ne_iff, f32Sign_inf, f32Sign_inf, ne_comm]
  by_cases hib : f32IsInf b = true
  · simp [f32Add, not_nan_of_inf ha, hb, ha, hib, hne hib]
  · simp [f32Add, not_nan_of_inf ha, hb, ha, hib]

theorem f32Sub_inf {a b : F32} (ha : f32IsInf a = true) (hb : f32IsNaN b = false) :
    f32Sub a b = if b = a then f32NaN else a := by
  have hiff : f32IsInf b = true ∧ f32Neg b ≠ a ↔ b = a := by
    constructor
    · rintro ⟨hib, hne⟩
      rw [eq_inf_of_isInf ha, eq_inf_of_isInf hib, f32Neg_inf, f32Inf_injective.ne_iff] at hne
      rw [eq_inf_of_isInf ha, eq_inf_of_isInf hib, f32Inf_injective.eq_iff]
      simpa using hne
    · rintro rfl
      refine ⟨ha, ?_⟩
      rw [eq_inf_of_isInf ha, f32Neg_inf, f32Inf_injective.ne_iff]
      simp
  rw [f32Sub, f32Add_inf ha (by simpa using hb), f32IsInf_neg]
  simp only [hiff]

/-- A finite value less an infinity is the other infinity. -/
theorem f32Sub_finite_inf {a b : F32} (ha : f32IsInf a = true) (hb : f32IsFinite b = true) :
    f32Sub b a = f32Inf (!f32Sign a) := by
  rw [f32Sub, f32Add_comm, f32Add_inf (by simpa using ha) (not_nan_of_finite hb),
    if_neg (by simp [not_inf_of_finite hb])]
  conv_lhs => rw [eq_inf_of_isInf ha, f32Neg_inf]

theorem f32Mul_inf {a b : F32} (ha : f32IsInf a = true) (hb : f32IsNaN b = false) :
    f32Mul a b = if f32Val b = 0 then f32NaN else f32Inf (f32Sign a != f32Sign b) := by
  have hma : f32Mag a ≠ 0 := by
    rw [eq_inf_of_isInf ha, f32Mag_inf]
    positivity
  simp [f32Mul, not_nan_of_inf ha, hb, ha, hma, f32Val_eq_zero_iff]

theorem f32Div_inf_finite {a b : F32} (ha : f32IsInf a = true) (hb : f32IsFinite b = true) :
    f32Div a b = f32Inf (f32Sign a != f32Sign b) := by
  simp [f32Div, not_nan_of_inf ha, not_nan_of_finite hb, ha, not_inf_of_finite hb]

theorem f32Div_finite_inf {a b : F32} (ha : f32IsInf a = true) (hb : f32IsFinite b = true) :
    f32Div b a = packBits (f32Sign b != f32Sign a) 0 := by
  have h0 : roundMag 0 1 = 0 := by decide
  simp [f32Div, not_nan_of_inf ha, not_nan_of_finite hb, ha, not_inf_of_finite hb, f32Round_eq_pack, h0]

theorem f32Div_inf_inf {a b : F32} (ha : f32IsInf a = true) (hb : f32IsInf b = true) : f32Div a b = f32NaN := by
  simp [f32Div, not_nan_of_inf ha, not_nan_of_inf hb, ha, hb]

/-! ## Integers (R12): 24 bits are enough for an exact conversion -/

/-- `m * 2^e` with `m` at most `2^24` has a pattern, at most the one of `2^(e + 24)`. -/
theorem exists_magOfBits_eq (e : Nat) {m : Nat} (h : m ≤ 2 ^ 24) :
    ∃ r, r ≤ (e + 2) * 2 ^ 23 ∧ magOfBits r = m * 2 ^ e := by
  induction e generalizing m with
  | zero => exact ⟨m, by omega, by rw [← magOfBits_pack (.inl rfl) h, Nat.zero_mul, Nat.zero_add]⟩
  | succ e ih =>
    rcases Nat.lt_or_ge m (2 ^ 23) with hm | hm
    · obtain ⟨r, hr, hmag⟩ := ih (m := 2 * m) (by omega)
      exact ⟨r, hr.trans (Nat.mul_le_mul_right _ (by omega)), by rw [hmag]; ring⟩
    · exact ⟨(e + 1) * 2 ^ 23 + m, by omega, magOfBits_pack (.inr hm) h⟩

/-- A magnitude that has a pattern is converted without rounding. -/
theorem f32Val_round_exact (neg : Bool) {r : Nat} (h : r ≤ 0x7F800000) :
    f32Val (f32Round neg (magOfBits r) 1) = if neg then -(magOfBits r : Int) else magOfBits r := by
  have hr : roundMag (magOfBits r) 1 = r := by
    simpa using roundMag_exact (d := 1) one_pos h
  rw [f32Val, f32Sign_round, f32Mag_round, hr]

theorem f32Val_fromInt {i : Int} (h : i.natAbs ≤ 2 ^ 24) : f32Val (f32FromInt i) = i * 2 ^ 149 := by
  obtain ⟨r, hr, hmag⟩ := exists_magOfBits_eq 149 h
  rw [f32FromInt, f32One, ← hmag, f32Val_round_exact _ (by omega), hmag]
  by_cases hi : i < 0
  · rw [if_pos (by simpa using hi)]
    omega
  · rw [if_neg (by simpa using hi)]
    omega

/-! ## Comparisons (R14) -/

theorem f32Gt_iff {a b : F32} :
    f32Gt a b = true ↔ f32IsNaN a = false ∧ f32IsNaN b = false ∧ f32Val b < f32Val a := by
  simp [f32Gt, and_assoc]

theorem f32Lt_iff {a b : F32} :
    f32Lt a b = true ↔ f32IsNaN a = false ∧ f32IsNaN b = false ∧ f32Val a < f32Val b := by
  simp [f32Lt, and_assoc]

/-! ## Clamping (R15): one equation per branch -/

theorem clamp_of_nan {x : F32} (h : f32IsNaN x = true) (lo hi : F32) : clamp x lo hi = lo := by
  rw [clamp, if_pos h]

theorem clamp_of_lt {x lo : F32} (h : f32Lt x lo = true) (hi : F32) : clamp x lo hi = lo := by
  rw [clamp, if_pos h, ite_self]

theorem clamp_of_gt {x lo hi : F32} (hle : f32Val lo ≤ f32Val hi) (h : f32Gt x hi = true) : clamp x lo hi = hi := by
  obtain ⟨hx, -, hgt⟩ := f32Gt_iff.mp h
  have hlt : ¬ f32Lt x lo = true := fun hl => by
    obtain ⟨-, -, hl⟩ := f32Lt_iff.mp hl
    omega
  rw [clamp, if_neg (by simp [hx]), if_neg hlt, if_pos h]

theorem clamp_of_inside {x lo hi : F32} (hx : f32IsNaN x = false) (hl : f32Lt x lo = false)
    (hg : f32Gt x hi = false) : clamp x lo hi = x := by
  simp [clamp, hx, hl, hg]

/-- A result of clamping is a bound, or the value itself, which then lies between them. -/
theorem clamp_cases {lo hi : F32} (hlo : f32IsNaN lo = false) (hhi : f32IsNaN hi = false)
    (hle : f32Val lo ≤ f32Val hi) (x : F32) :
    clamp x lo hi = lo ∨ clamp x lo hi = hi ∨
      (clamp x lo hi = x ∧ f32IsNaN x = false ∧ f32Val lo ≤ f32Val x ∧ f32Val x ≤ f32Val hi) := by
  by_cases hx : f32IsNaN x = true
  · exact .inl (clamp_of_nan hx lo hi)
  rw [Bool.not_eq_true] at hx
  cases hl : f32Lt x lo
  case true => exact .inl (clamp_of_lt hl hi)
  cases hg : f32Gt x hi
  case true => exact .inr (.inl (clamp_of_gt hle hg))
  have hl' : ¬ f32Val x < f32Val lo := fun h => by simp [f32Lt_iff.mpr ⟨hx, hlo, h⟩] at hl
  have hg' : ¬ f32Val hi < f32Val x := fun h => by simp [f32Gt_iff.mpr ⟨hx, hhi, h⟩] at hg
  exact .inr (.inr ⟨clamp_of_inside hx hl hg, hx, not_lt.mp hl', not_lt.mp hg'⟩)

/-! ## Conversion to integers (R16, R17) -/

theorem limit_mem {lo hi : Int} (h : lo ≤ hi) (v : Int) : lo ≤ limit v lo hi ∧ limit v lo hi ≤ hi := by
  unfold limit
  split
  · omega
  · split <;> omega

theorem f32FloorSat_nan {x : F32} (h : f32IsNaN x = true) : f32FloorSat x = 0#32 := by
  rw [f32FloorSat, if_pos h]

/-- The floor as an integer: the limit keeps it within 32 bits, so no bit is lost. -/
theorem f32FloorSat_toInt {x : F32} (h : f32IsNaN x = false) :
    (f32FloorSat x).toInt = limit (f32Val x / 2 ^ 149) (-2147483648) 2147483647 := by
  have hone : (f32One : Int) = 2 ^ 149 := by norm_num [f32One]
  obtain ⟨hlo, hhi⟩ := limit_mem (lo := -2147483648) (hi := 2147483647) (by norm_num) (f32Val x / 2 ^ 149)
  rw [f32FloorSat, if_neg (by simp [h]), hone, BitVec.toInt_ofInt]
  exact Int.bmod_eq_of_le (by omega) (by omega)

/-- `roundDivEven` is within half a unit of the quotient, and exactly half away only if it is even. -/
theorem roundDivEven_nearest (v : Int) {d : Nat} (hd : 0 < d) :
    2 * (roundDivEven v d * d - v).natAbs < d ∨
      (2 * (roundDivEven v d * d - v).natAbs = d ∧ roundDivEven v d % 2 = 0) := by
  have hdiv : v / (d : Int) * d + v % (d : Int) = v := Int.ediv_mul_add_emod v d
  have hr0 := Int.emod_nonneg v (show (d : Int) ≠ 0 by omega)
  have hrd := Int.emod_lt_of_pos v (show (0 : Int) < d by omega)
  simp only [roundDivEven]
  split
  · rw [Int.add_mul]
    omega
  · omega

end Sys2Proof.Machine

namespace Sys2Proof.Claims

open Sys2Proof.Machine

/-- Settles O54, from the midpoint at which rounding leaves each pattern. -/
theorem roundingIsToNearestEven : Obligations.RoundingIsToNearestEven := by
  rintro neg n d _ hd rfl
  refine ⟨f32IsNaN_round _ _ _, f32Sign_round _ _ _, f32IsInf_round_iff neg hd, fun hfin x _ => ?_⟩
  have hlt : roundMag n d < 0x7F800000 := by
    rwa [f32IsFinite_eq, f32Round_mod, decide_eq_true_eq] at hfin
  obtain ⟨hnear, htie⟩ := roundMag_nearest hd hlt (x.toNat % 2 ^ 31)
  rw [f32Mag_round, f32Mag_eq x, f32_lastBit, f32Round_mod]
  refine ⟨hnear, fun heq hne => ?_⟩
  have := htie heq fun h => hne (congrArg magOfBits h)
  simp [this]

/-- Settles O55: finite operands, an infinite operand, integers and comparisons, each from the equation of its
operation. -/
theorem operationsRoundTheExactResult : Obligations.OperationsRoundTheExactResult := by
  refine ⟨?finite, ?infinite, fun i => ⟨rfl, f32Val_fromInt⟩, fun a b => ⟨f32Gt_iff, f32Lt_iff⟩,
    fun a => f32Val_finite_between⟩
  case finite =>
    rintro a b _ ha hb rfl
    refine ⟨?_, f32Sub_finite ha hb, f32Mul_finite ha hb, f32Div_finite ha hb⟩
    rw [f32Add_finite ha hb]
    split
    · simp only [both_negative_iff_of_zero_sum ‹_›]
      rfl
    · rfl
  case infinite =>
    rintro a b _ ha hb rfl
    refine ⟨f32Add_inf ha hb, (f32Add_comm b a).trans (f32Add_inf ha hb), f32Sub_inf ha hb,
      fun hfin => ⟨?_, f32Div_inf_finite ha hfin, ?_⟩, f32Mul_inf ha hb,
      (f32Mul_comm b a).trans (f32Mul_inf ha hb), f32Div_inf_inf ha⟩
    · rw [f32Sub_finite_inf ha hfin]
      cases f32Sign a <;> rfl
    · rw [f32Div_finite_inf ha hfin]
      cases f32Sign a <;> cases f32Sign b <;> rfl

/-- Settles O56: each operation gives the canonical NaN or no NaN at all, and the canonical one for a NaN operand. -/
theorem arithmeticNaNIsCanonical : Obligations.ArithmeticNaNIsCanonical := by
  intro a b op hop
  have hcases : (op a b = f32NaN ∨ f32IsNaN (op a b) = false) ∧
      (f32IsNaN a = true ∨ f32IsNaN b = true → op a b = f32NaN) := by
    simp only [List.mem_cons, List.not_mem_nil, or_false] at hop
    rcases hop with rfl | rfl | rfl | rfl
    · exact ⟨f32Add_nan a b, f32Add_of_nan⟩
    · exact ⟨f32Add_nan a (f32Neg b), f32Sub_of_nan⟩
    · exact ⟨f32Mul_nan a b, f32Mul_of_nan⟩
    · exact ⟨f32Div_nan a b, f32Div_of_nan⟩
  obtain ⟨hres, hnan⟩ := hcases
  exact ⟨fun h => hres.resolve_right (by simp [h]), hnan⟩

/-- Settles O57, one branch of the definition after the other. -/
theorem clampStaysInItsInterval : Obligations.ClampStaysInItsInterval := by
  intro x lo hi hlo hhi hle
  refine ⟨fun h => clamp_of_nan h lo hi, fun h => clamp_of_lt h hi, clamp_of_gt hle, clamp_of_inside, ?_⟩
  rcases clamp_cases hlo hhi hle x with h | h | ⟨h, hx, hl, hg⟩ <;> rw [h]
  · exact ⟨hlo, le_rfl, hle⟩
  · exact ⟨hhi, hle, le_rfl⟩
  · exact ⟨hx, hl, hg⟩

/-- Settles O58: the floor is the limited quotient, and each range of values picks one branch of the limit. -/
theorem floorSaturates : Obligations.FloorSaturates := by
  intro x
  refine ⟨fun h => by rw [f32FloorSat_nan h]; rfl, fun h => ?_⟩
  rw [f32FloorSat_toInt h, limit]
  refine ⟨fun hv => ?_, fun hv => ?_, fun hlo hhi => ?_⟩
  · rw [if_neg (by omega), if_pos (by omega)]; norm_num
  · rw [if_pos (by omega)]; norm_num
  · rw [if_neg (by omega), if_neg (by omega)]
    omega

/-- Settles O59: the infinities have a branch of their own, and a finite value the nearest integer as its witness. -/
theorem integerRoundingSaturates : Obligations.IntegerRoundingSaturates := by
  intro x lo hi _
  refine ⟨fun h => f32ToIntRneSat_nan h lo hi, ?_, ?_, fun h => ?_⟩
  · rintro rfl
    exact f32ToIntRneSat_inf (by decide) lo hi
  · rintro rfl
    exact f32ToIntRneSat_inf (by decide) lo hi
  · refine ⟨roundDivEven (f32Val x) f32One, ?_, f32ToIntRneSat_finite h lo hi⟩
    have hnear := roundDivEven_nearest (f32Val x) f32One_pos
    rwa [show (f32One : Int) = 2 ^ 149 by norm_num [f32One], f32One] at hnear

/-- Settles O60, from what a byte reads as after a write and the value that bytes make up. -/
theorem memoryIsLittleEndian : Obligations.MemoryIsLittleEndian := by
  refine ⟨fun m a v n h => ⟨Memory.writeBytes_wf h a v n, fun k hk => ?_, fun x hx => ?_⟩,
    fun m a w v h => ⟨Memory.write_wf h a w v, fun k hk => ?_, fun x hx => ?_, ?_, fun k hk => ?_⟩⟩
  · rw [Memory.read8_writeBytes h, if_pos (by omega), Nat.add_sub_cancel_left, BitVec.toNat_ofNat,
      Nat.shiftRight_eq_div_pow]
  · rw [Memory.read8_writeBytes h, if_neg (by omega)]
  · rw [Memory.read8_write h, if_pos (by omega), Nat.add_sub_cancel_left]
  · rw [Memory.read8_write h, if_neg (by omega)]
  · rw [Memory.read, Memory.write, Memory.bytesValue_writeBytes h]
  · apply BitVec.eq_of_toNat_eq
    rw [BitVec.extractLsb'_toNat, Memory.read_toNat]
    exact bytesValue_byte _ hk

end Sys2Proof.Claims
end

section
/-! PROOFS. The statements of 10_state.md. First what a step can do, once: what a command may do to the session and to host
memory (`CommandEffect`), and what a moment of the host may do. The invariants and the frame statements follow case by
case. -/

namespace Sys2Proof.Machine

open Sys2Proof.Claims

/-! ## What a completed command can do -/

/-- What the voice commands write into a voice of a session `S` (43_voice.md). -/
inductive VoiceEdit (S : Session) (v : Voice) : Voice → Prop
  | volume (x : F32) : VoiceEdit S v { v with vol := clamp x f32Zero f32PosOne }
  | balance (x : F32) : VoiceEdit S v (balanced v (clamp x f32NegOne f32PosOne))
  | frequency (hz : F32) (ok : frequencyOk hz = true) :
      VoiceEdit S v { v with freq := hz, pitch := f32Div hz (sampleRateF S.sr) }
  | stop : VoiceEdit S v (stopped v)
  | play (k : Nat) (snd : Sound) (slot : S.slots[k]? = some snd) (st : I32) (md : Int) (rs re : I32) :
      VoiceEdit S v (played v k snd st md rs.toInt re.toInt)

/-- What command `i`, completing from `s` in success, leaves of the session and of host memory, with the checks it has
passed. -/
inductive CommandEffect (s : State) : Instr → Session → Memory → Prop
  | answers (i : Instr) : CommandEffect s i s.session s.mem
  | starts (closed : s.session.init = false) (rate : 1 ≤ opI32 s.latched.arg0) :
      CommandEffect s .init (startedSession s.latched.arg0) s.mem
  | ends (opened : s.session.init = true) : CommandEffect s .fini .empty s.mem
  | resizes (opened : s.session.init = true) (n : Nat) (pos : 1 ≤ n) (fits : n ≤ s.params.maxVoices) :
      CommandEffect s .setnvoc { s.session with voices := freshVoices n s.session.sr } s.mem
  | globalVolume (opened : s.session.init = true) (x : F32) :
      CommandEffect s .setgvol { s.session with gvol := clamp x f32Zero f32PosOne } s.mem
  | loads (p : LoadPlan) (plan : loadPlan s = .ok p) :
      CommandEffect s .load
        { s.session with
          slots := putSlot s.session.slots p.slot (decodeFrames s.mem p.src p.byteCount p.width p.channels) } s.mem
  | pokes (i : Instr) (family : isSoundCommand i = true) (opened : s.session.init = true) (n j : Nat) (snd : Sound)
      (slot : s.session.slots[n]? = some snd) (x : F32) :
      CommandEffect s i { s.session with slots := s.session.slots.set n (snd.set j x) } s.mem
  | edits (i : Instr) (family : isVoiceCommand i = true) (opened : s.session.init = true) (n : Nat) (v v' : Voice)
      (voice : s.session.voices[n]? = some v) (edit : VoiceEdit s.session v v') :
      CommandEffect s i { s.session with voices := s.session.voices.set n v' } s.mem
  | mixes (p : UpdatePlan) (plan : updatePlan s = .ok p) (r : Mixed)
      (mixed : r = mixVoices s.session.slots p.buf p.frames s.session.voices s.mem) :
      CommandEffect s .update { s.session with voices := r.voices, active := r.active }
        (globalPass s.session.gvol p.buf (2 * p.frames) 0 r.mem)

/-- The ways command `i` may complete: with a cause of its row of 60_exceptions.md R355, or with a `CommandEffect`. -/
def Completion (s : State) (i : Instr) : Except Cause Effect → Prop
  | .error c => c ∈ causesOf i
  | .ok e => CommandEffect s i e.session e.mem

theorem completion_error {s : State} {i : Instr} {c : Cause} (h : c ∈ causesOf i) : Completion s i (.error c) := h

theorem completion_answer (s : State) (i : Instr) (r : Word) : Completion s i (answer s r) := .answers i

theorem completion_become {s : State} {i : Instr} {S : Session} (r : Word) (h : CommandEffect s i S s.mem) :
    Completion s i (become s S r) := h

theorem completion_requireInit {s : State} {i : Instr} {k : Except Cause Effect} (hc : .state ∈ causesOf i)
    (h : s.session.init = true → Completion s i k) : Completion s i (requireInit s k) := by
  cases hi : s.session.init
  · rw [requireInit_of_not_init hi]; exact hc
  · rw [requireInit_of_init hi]; exact h hi

theorem state_mem_causesOf {i : Instr} (hi : i ≠ .isinit) : .state ∈ causesOf i := by
  cases i <;> simp_all [causesOf]

theorem range_mem_causesOf {i : Instr} (h : isVoiceCommand i = true ∨ isSoundCommand i = true) :
    .range ∈ causesOf i := by
  cases i <;> simp_all [causesOf, isVoiceCommand, isSoundCommand]

theorem completion_withVoice {s : State} {i : Instr} {k : Nat → Voice → Except Cause Effect}
    (hf : isVoiceCommand i = true)
    (h : ∀ n v, s.session.init = true → s.session.voices[n]? = some v → Completion s i (k n v)) :
    Completion s i (withVoice s k) := by
  refine completion_requireInit (state_mem_causesOf (by rintro rfl; cases hf)) fun hi => ?_
  split
  · exact range_mem_causesOf (.inl hf)
  · rename_i v hv
    exact h _ v hi (lookupI_eq_some.mp hv).2

theorem completion_setVoice {s : State} {i : Instr} (hf : isVoiceCommand i = true) {n : Nat} {v v' : Voice}
    (hi : s.session.init = true) (hv : s.session.voices[n]? = some v) (h : VoiceEdit s.session v v') :
    Completion s i (setVoice s n v') := .edits i hf hi n v v' hv h

theorem completion_withFrame {s : State} {i : Instr} {k : Nat → Nat → Sound → F32 → Except Cause Effect}
    (hf : isSoundCommand i = true)
    (h : ∀ n j snd x, s.session.init = true → s.session.slots[n]? = some snd → Completion s i (k n j snd x)) :
    Completion s i (withFrame s k) := by
  refine completion_requireInit (state_mem_causesOf (by rintro rfl; cases hf)) fun hi => ?_
  split
  · exact range_mem_causesOf (.inr hf)
  · rename_i snd hs
    split
    · exact range_mem_causesOf (.inr hf)
    · exact h _ _ snd _ hi (lookupI_eq_some.mp hs).2

theorem completion_peek {s : State} {i : Instr} (hf : isSoundCommand i = true) (r : F32 → Word) :
    Completion s i (withFrame s fun _ _ _ x => answer s (r x)) :=
  completion_withFrame hf fun _ _ _ _ _ _ => completion_answer s i _

theorem completion_poke {s : State} {i : Instr} (hf : isSoundCommand i = true) (x : F32) :
    Completion s i (withFrame s fun n j snd _ => setFrame s n j snd x) :=
  completion_withFrame hf fun n j snd _ hi hs => .pokes i hf hi n j snd hs x

theorem completion_getVoice {s : State} {i : Instr} (hf : isVoiceCommand i = true) (r : Voice → Word) :
    Completion s i (withVoice s fun _ v => answer s (r v)) :=
  completion_withVoice hf fun _ _ _ _ => completion_answer s i _

theorem completion_loadPlan_error {s : State} {c : Cause} (h : loadPlan s = .error c) : Completion s .load (.error c) := by
  simp only [loadPlan] at h
  repeat' split at h
  all_goals cases h
  all_goals simp [Completion, causesOf]

theorem completion_updatePlan_error {s : State} {c : Cause} (h : updatePlan s = .error c) :
    Completion s .update (.error c) := by
  simp only [updatePlan] at h
  repeat' split at h
  all_goals cases h
  all_goals simp [Completion, causesOf]

theorem completes_next {s t : State} {i : Instr} {r : Except Cause Effect} (hr : Completion s i r)
    (h : completes s r = .next t) : ∃ r, t = s.complete r ∧ Completion s i r := by
  cases h
  exact ⟨r, rfl, hr⟩

/-- What exec can do: a next state is one of the completions of the command. -/
theorem exec_next_completion {i : Instr} {s t : State} (h : exec i s = .next t) :
    ∃ r, t = s.complete r ∧ Completion s i r := by
  cases i
  case init =>
    refine completes_next ?_ h
    split
    · exact completion_error (by decide)
    · split
      · exact completion_error (by decide)
      · exact completion_become _ (.starts (by simpa using ‹¬ s.session.init = true›) (by omega))
  case fini => exact completes_next (completion_requireInit (by decide) fun hi => completion_become _ (.ends hi)) h
  case isinit => exact completes_next (completion_answer s _ _) h
  case getsr | getnsnd | getnvoc | getact | getgvol =>
    exact completes_next (completion_requireInit (by decide) fun _ => completion_answer s _ _) h
  case setnvoc =>
    refine completes_next (completion_requireInit (by decide) fun hi => ?_) h
    dsimp only
    split
    · exact completion_error (by decide)
    · split
      · exact completion_error (by decide)
      · exact completion_become _ (.resizes hi _ (by omega) (by omega))
  case setgvol =>
    exact completes_next (completion_requireInit (by decide) fun hi => completion_become _ (.globalVolume hi _)) h
  case load =>
    simp only [exec, execLoad] at h
    split at h
    · exact completes_next (completion_loadPlan_error ‹_›) h
    · split at h
      · cases h
      · refine completes_next ?_ h
        exact CommandEffect.loads _ ‹_›
  case peekf | peeki16 | peeki8 => exact completes_next (completion_peek rfl _) h
  case pokef | pokei16 | pokei8 => exact completes_next (completion_poke rfl _) h
  case getvvol => exact completes_next (completion_getVoice rfl Voice.vol) h
  case getvbal => exact completes_next (completion_getVoice rfl Voice.pan) h
  case getvfrq => exact completes_next (completion_getVoice rfl Voice.freq) h
  case setvvol =>
    exact completes_next (completion_withVoice rfl fun _ _ hi hv => completion_setVoice rfl hi hv (.volume _)) h
  case setvbal =>
    exact completes_next (completion_withVoice rfl fun _ _ hi hv => completion_setVoice rfl hi hv (.balance _)) h
  case setvfrq =>
    refine completes_next (completion_withVoice rfl fun _ _ hi hv => ?_) h
    dsimp only
    split
    · exact completion_setVoice rfl hi hv (.frequency _ ‹_›)
    · exact completion_error (by decide)
  case stop =>
    exact completes_next (completion_withVoice rfl fun _ _ hi hv => completion_setVoice rfl hi hv .stop) h
  case play =>
    refine completes_next (completion_withVoice rfl fun _ _ hi hv => ?_) h
    split
    · exact completion_error (by decide)
    · rename_i snd hs
      exact completion_setVoice rfl hi hv (.play _ snd (lookupI_eq_some.mp hs).2 _ _ _ _)
  case update =>
    simp only [exec, execUpdate] at h
    split at h
    · exact completes_next (completion_updatePlan_error ‹_›) h
    · split at h
      · cases h
      · refine completes_next ?_ h
        exact CommandEffect.mixes _ ‹_› _ rfl

theorem none_notMem_causesOf (i : Instr) : .none ∉ causesOf i := by cases i <;> simp [causesOf]

/-- What the end of a command can do: a failure with a cause, or a success with an effect of the command decoded. -/
theorem engine_next {s t : State} (h : engine s = .next t) :
    (∃ c, c ≠ .none ∧ t = s.fail c) ∨
      ∃ i e, decode s.cmd = .ok i ∧ t = s.succeed e ∧ CommandEffect s i e.session e.mem := by
  unfold engine at h
  split at h
  · rename_i i hi
    obtain ⟨r, rfl, hr⟩ := exec_next_completion h
    cases r with
    | error c => exact .inl ⟨c, fun hc => none_notMem_causesOf i (hc ▸ hr), rfl⟩
    | ok e => exact .inr ⟨i, e, hi, rfl, hr⟩
  · cases h
    exact .inl ⟨.encoding, by decide, rfl⟩

/-- What a step can do: it completes a command whose time is over, or is a moment of the host, which may cost the command in
progress a unit of its time. -/
theorem step_next {s t : State} (h : step s = .next t) :
    (s.status.busy = true ∧ s.remaining = 0 ∧ engine s = .next t) ∨
      ((s.status.busy = false ∨ 0 < s.remaining) ∧
        ∃ k, k ≤ s.remaining ∧ hostStep { s with remaining := k } = .next t) := by
  unfold step at h
  split at h
  · split at h
    · exact .inl ⟨‹_›, ‹_›, h⟩
    · rename_i k hk
      exact .inr ⟨.inr (by omega), k, by omega, h⟩
  · exact .inr ⟨.inl (by simpa using ‹¬ s.status.busy = true›), s.remaining, le_rfl, h⟩

/-! ## What a moment of the host can do -/

theorem unlessBusy_of_busy {s : State} (h : s.status.busy = true) (k : State) :
    unlessBusy s k = { s with status := statusOverrun s.status } := if_pos h

theorem unlessBusy_of_idle {s : State} (h : s.status.busy = false) (k : State) : unlessBusy s k = k :=
  if_neg (by simp [h])

/-- What a write to the register window can do (10_state.md R57, R58, R63). -/
inductive WindowEffect (s : State) : State → Prop
  | ignored : WindowEffect s s
  | overrun (busy : s.status.busy = true) : WindowEffect s { s with status := statusOverrun s.status }
  | accepted (idle : s.status.busy = false) (w : Word) : WindowEffect s (s.accept w)
  | argument (idle : s.status.busy = false) (a : Args) : WindowEffect s { s with args := a }
  | status (w : Word) : WindowEffect s { s with status := statusWrite s.status w }

theorem windowEffect_unlessBusy {s k : State} (h : s.status.busy = false → WindowEffect s k) :
    WindowEffect s (unlessBusy s k) := by
  cases hb : s.status.busy
  · rw [unlessBusy_of_idle hb]; exact h hb
  · rw [unlessBusy_of_busy hb]; exact .overrun hb

theorem registerWrite_effect (s : State) (w : Word) (off : Nat) : WindowEffect s (registerWrite s w off) := by
  unfold registerWrite
  split
  case h_1 => exact windowEffect_unlessBusy fun hb => .accepted hb w
  case h_8 => exact .status w
  case h_9 => exact .ignored
  all_goals exact windowEffect_unlessBusy fun hb => .argument hb _

theorem windowWrite_effect (s : State) (off n data : Nat) : WindowEffect s (windowWrite s off n data) := by
  unfold windowWrite
  split
  · exact registerWrite_effect s _ off
  · exact .ignored

/-- What a moment of the host can do (70_reset_and_hazards.md R398): nothing but take its action from the list and read,
access the window, write host memory inside its bounds, or reset. -/
inductive HostEffect (s : State) : State → Prop
  | reads (h : List HostAction) (d f : Nat) : HostEffect s { s with host := h, readData := d, fresh := f }
  | window (h : List HostAction) (t : State) (effect : WindowEffect { s with host := h } t) : HostEffect s t
  | memory (h : List HostAction) (a n data : Nat) (inside : a + n ≤ s.params.hostMemBytes) :
      HostEffect s { s with host := h, mem := Memory.writeBytes s.mem a data n }
  | resets (rest : List HostAction) (action : s.host = .reset :: rest) (t : State)
      (reset : assertReset { s with host := rest } = .next t) : HostEffect s t

theorem hostStep_next {s t : State} (h : hostStep s = .next t) : HostEffect s t := by
  unfold hostStep at h
  split at h
  · cases h
    exact .reads s.host s.readData s.fresh
  · obtain ⟨d, f, rfl⟩ := hostRead_next h
    exact .reads _ d f
  · rename_i rest _
    rcases hostWrite_next h with rfl | ⟨hb, -, rfl⟩
    · exact .window rest _ (windowWrite_effect _ _ _ _)
    · exact .memory rest _ _ _ hb
  · cases h
    exact .reads _ _ s.fresh
  · exact .resets _ ‹_› t h

theorem WindowEffect.session_eq {s t : State} (h : WindowEffect s t) : t.session = s.session := by cases h <;> rfl

theorem assertReset_afterReset {s t : State} (h : assertReset s = .next t) : ∃ m f, t = afterReset s m f := by
  rcases (assertReset_next h).2 with ⟨-, rfl⟩ | ⟨p, -, rfl⟩ <;> exact ⟨_, _, rfl⟩

/-- Of the host's moments only the reset input reaches the session, and it ends it (R380). -/
theorem HostEffect.session_cases {s t : State} (h : HostEffect s t) :
    t.session = s.session ∨ ((∃ rest, s.host = .reset :: rest) ∧ t.session = .empty) := by
  cases h with
  | reads | memory => exact .inl rfl
  | window h' _ effect => exact .inl effect.session_eq
  | resets rest action _ reset =>
    obtain ⟨m, f, rfl⟩ := assertReset_afterReset reset
    exact .inr ⟨⟨rest, action⟩, rfl⟩

/-- A session is changed by the success of the command decoded, or ended by the reset input. -/
theorem step_session {s t : State} (h : step s = .next t) :
    t.session = s.session ∨
      (s.status.busy = true ∧ s.remaining = 0 ∧ ∃ i m, decode s.cmd = .ok i ∧ CommandEffect s i t.session m) ∨
      ((s.status.busy = false ∨ 0 < s.remaining) ∧ (∃ rest, s.host = .reset :: rest) ∧ t.session = .empty) := by
  rcases step_next h with ⟨hb, hr, he⟩ | ⟨hm, k, -, hh⟩
  · rcases engine_next he with ⟨c, -, rfl⟩ | ⟨i, e, hi, rfl, heff⟩
    · exact .inl rfl
    · exact .inr (.inl ⟨hb, hr, i, e.mem, hi, heff⟩)
  · rcases (hostStep_next hh).session_cases with hs | ⟨hrest, hs⟩
    · exact .inl hs
    · exact .inr (.inr ⟨hm, hrest, hs⟩)

theorem CommandEffect.active_eq {s : State} {i : Instr} {S : Session} {m : Memory} (h : CommandEffect s i S m)
    (hi : i ≠ .update ∧ i ≠ .init ∧ i ≠ .fini) : S.active = s.session.active := by
  cases h with
  | starts | ends | mixes => simp at hi
  | _ => rfl

theorem putSlot_length (slots : List Sound) (i : Nat) (new : Sound) :
    (putSlot slots i new).length = max slots.length (i + 1) := by
  unfold putSlot
  split <;> simp <;> omega

/-- Between two sessions a command keeps the rate and every slot, and only `SETNVOC` resizes the voice pool. -/
theorem CommandEffect.session_bounds {s : State} {i : Instr} {S : Session} {m : Memory} (e : CommandEffect s i S m)
    (hs : s.session.init = true) (ht : S.init = true) :
    S.sr = s.session.sr ∧ s.session.slots.length ≤ S.slots.length ∧
      (S.voices.length ≠ s.session.voices.length → i = .setnvoc) := by
  cases e with
  | answers | globalVolume => exact ⟨rfl, le_rfl, fun h => absurd rfl h⟩
  | starts closed => cases closed.symm.trans hs
  | ends => cases ht
  | resizes => exact ⟨rfl, le_rfl, fun _ => rfl⟩
  | loads p => exact ⟨rfl, by simp only [putSlot_length]; omega, fun h => absurd rfl h⟩
  | pokes => exact ⟨rfl, List.length_set.ge, fun h => absurd rfl h⟩
  | edits => exact ⟨rfl, le_rfl, fun h => absurd List.length_set h⟩
  | mixes p _ r mixed => exact ⟨rfl, le_rfl, fun h => absurd (mixed ▸ mixVoices_length _ _ _ _ _) h⟩

/-! ## The word of STATUS -/

theorem flagBit_eq (b : Bool) (n : Nat) : flagBit b n = b.toNat * 2 ^ n := by cases b <;> simp [flagBit]

theorem causeCode_lt (c : Cause) : causeCode c < 16 := by cases c <;> decide

/-- The fields of `STATUS` as digits of its word (10_state.md R62). -/
theorem statusWord_digits (st : Status) {n : Nat} (hn : n = (statusWord st).toNat) :
    n / 2 ^ 0 % 2 = st.busy.toNat ∧ n / 2 ^ 1 % 2 = st.err.toNat ∧ n / 2 ^ 2 % 2 = st.errstk.toNat ∧
      n / 2 ^ 3 % 2 = st.ovr.toNat ∧ n / 2 ^ 4 % 2 = st.init.toNat ∧ n / 2 ^ 5 % 2 ^ 3 = 0 ∧
      n / 2 ^ 12 % 2 ^ 20 = 0 ∧ n / 2 ^ 8 % 2 ^ 4 = causeCode st.cause := by
  have hcause := causeCode_lt st.cause
  have hbusy := st.busy.toNat_lt
  have herr := st.err.toNat_lt
  have herrstk := st.errstk.toNat_lt
  have hovr := st.ovr.toNat_lt
  have hinit := st.init.toNat_lt
  simp only [statusWord, flagBit_eq, BitVec.toNat_ofNat] at hn
  omega

theorem getLsbD_of_digit {w : Word} {k : Nat} {b : Bool} (h : w.toNat / 2 ^ k % 2 = b.toNat) : w.getLsbD k = b := by
  rw [BitVec.getLsbD, Nat.testBit_eq_decide_div_mod_eq, h]
  cases b <;> rfl

theorem extractLsb'_of_digit {w : Word} {k n v : Nat} (h : w.toNat / 2 ^ k % 2 ^ n = v) :
    (w.extractLsb' k n).toNat = v := by
  rw [BitVec.extractLsb'_toNat, Nat.shiftRight_eq_div_pow, h]

/-! ## The register window -/

theorem inWindow_offset (p : Params) {off : Nat} (h : off < 64) : inWindow p (p.ctrlBase + off) = true := by
  simp [inWindow, Config.windowBytes, h]

theorem hostStep_windowRead {s : State} {off n : Nat} {rest : List HostAction} (h : off < 64)
    (hs : s.host = .read (s.params.ctrlBase + off) n :: rest) :
    hostStep s = .next { s with host := rest, readData := windowRead s off n } := by
  rw [hostStep, hs]
  simp only [hostRead, inWindow_offset _ h, if_true, Nat.add_sub_cancel_left]
  rfl

theorem hostStep_windowWrite {s : State} {off n data : Nat} {rest : List HostAction} (h : off < 64)
    (hs : s.host = .write (s.params.ctrlBase + off) n data :: rest) :
    hostStep s = .next (windowWrite { s with host := rest } off n data) := by
  rw [hostStep, hs]
  simp only [hostWrite, inWindow_offset _ h, if_true, Nat.add_sub_cancel_left]

theorem windowWrite_aligned (s : State) {off : Nat} (h : off % 4 = 0) (data : Nat) :
    windowWrite s off 4 data = registerWrite s (BitVec.ofNat 32 data) off := if_pos ⟨rfl, h⟩

/-- The register map on reads (10_state.md R55). -/
theorem registerRead_eq (s : State) (off : Nat) :
    registerRead s off =
      if off = 0x00 then s.cmd else if off = 0x04 then s.args.arg0 else if off = 0x08 then s.args.arg1
      else if off = 0x0C then s.args.arg2 else if off = 0x10 then s.args.arg3
      else if off = 0x14 then s.args.arg4 else if off = 0x18 then s.args.arg5
      else if off = 0x1C then s.result else if off = 0x20 then statusWord s.status else 0#32 := by
  unfold registerRead
  split <;> simp_all

theorem registerRead_reserved (s : State) {off : Nat} (h : 0x24 ≤ off) : registerRead s off = 0#32 := by
  unfold registerRead
  split
  case h_10 => rfl
  all_goals omega

theorem registerWrite_unwritable (s : State) (w : Word) {off : Nat} (h : off = 0x1C ∨ 0x24 ≤ off) :
    registerWrite s w off = s := by
  unfold registerWrite
  split
  case h_9 => rfl
  all_goals omega

/-- Reads that miss the map (10_state.md R56, R60). -/
theorem windowRead_odd (s : State) {off n : Nat} (h : n ≠ 4 ∨ off % 4 ≠ 0 ∨ 0x24 ≤ off) : windowRead s off n = 0 := by
  unfold windowRead
  split
  · rw [registerRead_reserved s (by omega)]
    rfl
  · rfl

/-- Writes that miss the map, and writes to `RESULT` (10_state.md R56, R59, R60). -/
theorem windowWrite_ignored (s : State) {off n : Nat} (h : n ≠ 4 ∨ off % 4 ≠ 0 ∨ off = 0x1C ∨ 0x24 ≤ off) (data : Nat) :
    windowWrite s off n data = s := by
  unfold windowWrite
  split
  · exact registerWrite_unwritable s _ (by omega)
  · rfl

/-- The offsets of `CMD` and the arguments. -/
theorem commandOffset_cases {off : Nat} (h : off ≤ 0x18) (ha : off % 4 = 0) :
    off = 0x00 ∨ off = 0x04 ∨ off = 0x08 ∨ off = 0x0C ∨ off = 0x10 ∨ off = 0x14 ∨ off = 0x18 := by omega

theorem registerWrite_overrun {s : State} (hb : s.status.busy = true) (w : Word) {off : Nat} (h : off ≤ 0x18)
    (ha : off % 4 = 0) : registerWrite s w off = { s with status := statusOverrun s.status } := by
  rcases commandOffset_cases h ha with rfl | rfl | rfl | rfl | rfl | rfl | rfl <;>
    exact unlessBusy_of_busy hb _

theorem registerWrite_argument {s : State} (hb : s.status.busy = false) (w : Word) {off : Nat} (h0 : 0x04 ≤ off)
    (h : off ≤ 0x18) (ha : off % 4 = 0) :
    ∃ a, registerWrite s w off = { s with args := a } ∧ argList a = (argList s.args).set (off / 4 - 1) w := by
  rcases commandOffset_cases h ha with rfl | rfl | rfl | rfl | rfl | rfl | rfl
  · omega
  all_goals exact ⟨_, unlessBusy_of_idle hb _, rfl⟩

/-! ## The invariants of a voice -/

theorem clamp_volume_one : clamp f32PosOne f32Zero f32PosOne = f32PosOne := by decide +kernel

theorem clamp_volume_zero : clamp f32Zero f32Zero f32PosOne = f32Zero := by decide +kernel

theorem clamp_pan_zero : clamp f32Zero f32NegOne f32PosOne = f32Zero := by decide +kernel

theorem positionOk_zero : positionOk f32Zero = true := by decide

/-- A sample rate of a session converts to a finite positive value (10_state.md R32). -/
theorem sampleRateF_pos {sr : I32} (h : 1 ≤ sr.toInt) :
    f32IsFinite (sampleRateF sr) = true ∧ f32Sign (sampleRateF sr) = false ∧ 0 < f32Mag (sampleRateF sr) := by
  obtain ⟨hs, hm⟩ := f32FromInt_pos h
  exact ⟨f32IsFinite_fromWord sr, hs, f32One_pos.trans_le hm⟩

theorem Voice.Inv.pitch_pos {S : Session} {v : Voice} (h : Voice.Inv S v) (hsr : 1 ≤ S.sr.toInt) :
    f32IsNaN v.pitch = false ∧ f32Sign v.pitch = false := by
  obtain ⟨hf, hs, hm⟩ := sampleRateF_pos hsr
  rw [h.pitch_of_frequency]
  exact pitch_nonneg h.frequency_ok hf hs hm

/-- A voice depends on its session only through the rate and the slots that exist. -/
theorem Voice.Inv.mono {S S' : Session} {v : Voice} (h : Voice.Inv S v) (hsr : S'.sr = S.sr)
    (hsl : S.slots.length ≤ S'.slots.length) : Voice.Inv S' v :=
  { h with
    bound_slot_exists := fun k hk => (h.bound_slot_exists k hk).trans_le hsl
    pitch_of_frequency := hsr ▸ h.pitch_of_frequency }

theorem defaultVoice_inv {S : Session} (h : 1 ≤ S.sr.toInt) : Voice.Inv S (defaultVoice S.sr) where
  bound_slot_exists := fun _ hk => by cases hk
  volume_in_range := clamp_volume_one
  pan_in_range := clamp_pan_zero
  gains_of_pan := rfl
  frequency_ok := frequencyOk_fromInt h
  pitch_of_frequency := by
    obtain ⟨hf, -, hm⟩ := sampleRateF_pos h
    exact (f32Div_self hf hm).symm
  position_ok := positionOk_zero
  start_of_frame := isFrameBound_zero
  end_of_frame := isFrameBound_zero

theorem VoiceEdit.inv {S : Session} {v v' : Voice} (h : Voice.Inv S v) (e : VoiceEdit S v v') : Voice.Inv S v' := by
  cases e with
  | volume x => exact { h with volume_in_range := clamp_unit_idem x }
  | balance x => exact { h with pan_in_range := clamp_pan_idem x, gains_of_pan := rfl }
  | frequency hz ok => exact { h with frequency_ok := ok, pitch_of_frequency := rfl }
  | stop =>
    exact
      { h with
        bound_slot_exists := fun _ hk => by cases hk
        volume_in_range := clamp_volume_one
        position_ok := positionOk_zero
        start_of_frame := isFrameBound_zero
        end_of_frame := isFrameBound_zero }
  | play k snd slot st md rs re =>
    exact
      { h with
        bound_slot_exists := fun _ hk => by cases hk; exact (List.getElem?_eq_some_iff.mp slot).1
        position_ok := positionOk_iff.mpr (.inl (f32IsFinite_fromWord st))
        start_of_frame := isFrameBound_fromInt rs
        end_of_frame := isFrameBound_fromInt re }

/-- A voice's turn of `UPDATE` moves it to a position again and may unbind it; nothing else of the invariant is
touched. -/
theorem mixTurn_inv {S : Session} (hsr : 1 ≤ S.sr.toInt) (buf n : Nat) (v : Voice) (m : Memory) (h : Voice.Inv S v) :
    Voice.Inv S (mixTurn S.slots buf n v m).1 := by
  have hpos : positionOk (mixTurn S.slots buf n v m).1.pos = true := by
    obtain ⟨hn, hs⟩ := h.pitch_pos hsr
    unfold mixTurn
    split
    · exact h.position_ok
    · exact mixVoice_position h.position_ok h.start_finite h.end_finite hn hs
  have k := mixTurn_kept S.slots buf n v m
  exact
    { bound_slot_exists := fun j hj => by
        rcases k.sound with e | e <;> rw [e] at hj
        · exact h.bound_slot_exists j hj
        · cases hj
      volume_in_range := k.vol ▸ h.volume_in_range
      pan_in_range := k.pan ▸ h.pan_in_range
      gains_of_pan := by rw [k.gl, k.gr, k.pan]; exact h.gains_of_pan
      frequency_ok := k.freq ▸ h.frequency_ok
      pitch_of_frequency := by rw [k.pitch, k.freq]; exact h.pitch_of_frequency
      position_ok := hpos
      start_of_frame := k.rstart ▸ h.start_of_frame
      end_of_frame := k.rend ▸ h.end_of_frame }

/-! ## The frames of the slot table -/

/-- The frames of a table with one slot exchanged. -/
theorem totalFrames_set {slots : List Sound} {n : Nat} {old : Sound} (h : slots[n]? = some old) (new : Sound) :
    totalFrames (slots.set n new) + old.length = totalFrames slots + new.length := by
  induction slots generalizing n with
  | nil => cases h
  | cons x xs ih =>
    cases n with
    | zero => cases h; simp [totalFrames]; omega
    | succ n =>
      have := ih h
      simp only [totalFrames, List.set_cons_succ, List.map_cons, List.sum_cons] at this ⊢
      omega

/-- `LOAD` replaces the frames of its slot, none for a slot it creates (41_soundbank.md R202, R203). -/
theorem totalFrames_putSlot (slots : List Sound) (i : Nat) (new : Sound) :
    totalFrames (putSlot slots i new) = totalFrames slots - slotFrames slots i + new.length := by
  unfold putSlot
  split
  · rename_i hi
    have hset := totalFrames_set (List.getElem?_eq_getElem hi) new
    have hold : slotFrames slots i = slots[i].length := by simp [slotFrames, hi]
    have hle : slots[i].length ≤ totalFrames slots :=
      List.le_sum_of_mem (List.mem_map_of_mem (List.getElem_mem hi))
    omega
  · rename_i hi
    have hold : slotFrames slots i = 0 := by simp [slotFrames, List.getElem?_eq_none (Nat.le_of_not_lt hi)]
    simp [totalFrames, hold]

@[simp] theorem decodeFrames_length (m : Memory) (src n : Nat) (w : Width) (ch : Nat) :
    (decodeFrames m src n w ch).length = n / (w.bytes * ch) := by simp [decodeFrames]

/-! ## The invariants of the session -/

theorem Session.Inv.empty (p : Params) : Session.Inv p .empty where
  empty_outside := fun _ => rfl
  rate_positive := fun h => by cases h
  volume_in_range := clamp_volume_zero
  active_bounded := Nat.zero_le _
  slots_bounded := Nat.zero_le _
  frames_bounded := Nat.zero_le _
  voice_exists := fun h => by cases h
  voices_bounded := Nat.zero_le _
  voices_ok := fun _ hv => by cases hv

/-- A new voice table, and a new count, within their bounds. -/
theorem Session.Inv.with_voices {p : Params} {S : Session} (h : Session.Inv p S) (hi : S.init = true) {vs : List Voice}
    {a : Nat} (hpos : 1 ≤ vs.length) (hle : vs.length ≤ p.maxVoices) (ha : a ≤ p.maxVoices)
    (hvs : ∀ v ∈ vs, Voice.Inv S v) : Session.Inv p { S with voices := vs, active := a } :=
  { h with
    empty_outside := fun h0 => by cases hi.symm.trans h0
    active_bounded := ha
    voice_exists := fun _ => hpos
    voices_bounded := hle
    voices_ok := fun v hv => (hvs v hv).mono rfl le_rfl }

/-- A slot table that has not shrunk, within its bounds. -/
theorem Session.Inv.with_slots {p : Params} {S : Session} (h : Session.Inv p S) (hi : S.init = true) {slots : List Sound}
    (hge : S.slots.length ≤ slots.length) (hle : slots.length ≤ p.maxSounds)
    (hf : totalFrames slots ≤ p.sampleMemFrames) : Session.Inv p { S with slots := slots } :=
  { h with
    empty_outside := fun h0 => by cases hi.symm.trans h0
    slots_bounded := hle
    frames_bounded := hf
    voices_ok := fun v hv => (h.voices_ok v hv).mono rfl hge }

theorem freshVoices_inv {S : Session} (h : 1 ≤ S.sr.toInt) (n : Nat) : ∀ v ∈ freshVoices n S.sr, Voice.Inv S v := by
  intro v hv
  rw [List.eq_of_mem_replicate hv]
  exact defaultVoice_inv h

theorem startedSession_inv {p : Params} (hp : p.wf) {sr : I32} (h : 1 ≤ sr.toInt) :
    Session.Inv p (startedSession sr) where
  empty_outside := fun h0 => by cases h0
  rate_positive := fun _ => h
  volume_in_range := clamp_volume_one
  active_bounded := Nat.zero_le _
  slots_bounded := Nat.zero_le _
  frames_bounded := Nat.zero_le _
  voice_exists := fun _ => le_rfl
  voices_bounded := by
    obtain ⟨-, -, -, hv, -⟩ := hp
    exact hv
  voices_ok := freshVoices_inv (S := startedSession sr) h _

/-- Every success of a command keeps the invariants of the session. -/
theorem CommandEffect.session_inv {s : State} {i : Instr} {S : Session} {m : Memory} (hp : s.params.wf)
    (h : Session.Inv s.params s.session) (e : CommandEffect s i S m) : Session.Inv s.params S := by
  cases e with
  | answers => exact h
  | starts _ rate => exact startedSession_inv hp rate
  | ends => exact .empty _
  | resizes opened n pos fits =>
    have hlen : (freshVoices n s.session.sr).length = n := List.length_replicate
    exact h.with_voices opened (hlen.symm ▸ pos) (hlen.symm ▸ fits) h.active_bounded
      (freshVoices_inv (h.rate_positive opened) n)
  | globalVolume opened x =>
    exact
      { h with
        empty_outside := fun h0 => by cases opened.symm.trans h0
        volume_in_range := clamp_unit_idem x
        voices_ok := fun v hv => (h.voices_ok v hv).mono rfl le_rfl }
  | loads p plan =>
    obtain ⟨opened, hslot, -, -, hframes, -⟩ := loadPlan_ok plan
    have hlen := putSlot_length s.session.slots p.slot (decodeFrames s.mem p.src p.byteCount p.width p.channels)
    have hmax := h.slots_bounded
    refine h.with_slots opened (by omega) (by omega) ?_
    rwa [totalFrames_putSlot, decodeFrames_length]
  | pokes _ _ opened n j snd slot x =>
    have htotal := totalFrames_set slot (snd.set j x)
    have hmax := h.frames_bounded
    rw [List.length_set] at htotal
    exact h.with_slots opened List.length_set.ge (List.length_set.trans_le h.slots_bounded) (by omega)
  | edits _ _ opened n v v' voice edit =>
    have hlen : (s.session.voices.set n v').length = s.session.voices.length := List.length_set
    refine h.with_voices opened (hlen.symm ▸ h.voice_exists opened) (hlen.symm ▸ h.voices_bounded) h.active_bounded
      fun u hu => ?_
    rcases List.mem_or_eq_of_mem_set hu with hu | rfl
    · exact h.voices_ok u hu
    · exact edit.inv (h.voices_ok v (List.mem_of_getElem? voice))
  | mixes p plan r mixed =>
    obtain ⟨opened, -⟩ := updatePlan_ok plan
    subst mixed
    have hlen := mixVoices_length s.session.slots p.buf p.frames s.session.voices s.mem
    have hact := mixVoices_active_le s.session.slots p.buf p.frames s.session.voices s.mem
    exact h.with_voices opened (hlen.symm ▸ h.voice_exists opened) (hlen.symm ▸ h.voices_bounded)
      (hact.trans h.voices_bounded) (mixVoices_forall (mixTurn_inv (h.rate_positive opened) _ _) h.voices_ok)

/-! ## Host memory -/

/-- A success of a command keeps host memory canonical and inside its bounds: only `UPDATE` writes to it, in its buffer. -/
theorem CommandEffect.mem_inv {s : State} {i : Instr} {S : Session} {m : Memory} (e : CommandEffect s i S m)
    (hw : Memory.wf s.mem = true) (hb : s.mem.Below s.params.hostMemBytes) :
    Memory.wf m = true ∧ m.Below s.params.hostMemBytes := by
  cases e with
  | mixes p plan r mixed =>
    obtain ⟨-, -, -, -, hbuf, -⟩ := updatePlan_ok plan
    subst mixed
    exact ⟨globalPass_wf (mixVoices_wf hw _ _ _ _) _ _ _ _,
      globalPass_below (mixVoices_below hb _ _ hbuf) _ (by omega)⟩
  | _ => exact ⟨hw, hb⟩

/-! ## The invariants of the whole state -/

theorem State.Inv.after_fail {s : State} (h : s.Inv) (hr : s.remaining = 0) {c : Cause} (hc : c ≠ .none) :
    (s.fail c).Inv :=
  { h with
    err_iff_cause := by simp [hc]
    failure_returns_zero := fun _ => rfl
    latched_while_busy := fun hb => by cases hb
    idle_without_time := fun _ => hr }

theorem State.Inv.after_succeed {s : State} (h : s.Inv) (hr : s.remaining = 0) {e : Effect}
    (hs : Session.Inv s.params e.session) (hw : Memory.wf e.mem = true) (hb : e.mem.Below s.params.hostMemBytes) :
    (s.succeed e).Inv where
  params_wf := h.params_wf
  session_ok := hs
  mem_wf := hw
  mem_inside := hb
  init_mirrored := rfl
  err_iff_cause := rfl
  failure_returns_zero := fun herr => by cases herr
  latched_while_busy := fun hb => by cases hb
  idle_without_time := fun _ => hr

theorem State.Inv.after_engine {s t : State} (h : s.Inv) (hr : s.remaining = 0) (he : engine s = .next t) : t.Inv := by
  rcases engine_next he with ⟨c, hc, rfl⟩ | ⟨i, e, -, rfl, heff⟩
  · exact h.after_fail hr hc
  · obtain ⟨hw, hb⟩ := heff.mem_inv h.mem_wf h.mem_inside
    exact h.after_succeed hr (heff.session_inv h.params_wf h.session_ok) hw hb

theorem State.Inv.after_window {s t : State} (h : s.Inv) (e : WindowEffect s t) : t.Inv := by
  cases e with
  | ignored => exact h
  | overrun => exact { h with }
  | accepted idle w =>
    exact { h with latched_while_busy := fun _ => rfl, idle_without_time := fun hb => by cases hb }
  | argument idle a => exact { h with latched_while_busy := fun hb => by cases idle.symm.trans hb }
  | status w => exact { h with }

/-- The reset state satisfies the invariants whatever host memory holds inside its bounds. -/
theorem afterReset_inv {s : State} (hp : s.params.wf) {m : Memory} (hw : Memory.wf m = true)
    (hb : m.Below s.params.hostMemBytes) (fresh : Nat) : (afterReset s m fresh).Inv where
  params_wf := hp
  session_ok := .empty _
  mem_wf := hw
  mem_inside := hb
  init_mirrored := rfl
  err_iff_cause := rfl
  failure_returns_zero := fun _ => rfl
  latched_while_busy := fun hb => by cases hb
  idle_without_time := fun _ => rfl

theorem updatePlan_of_inFlightUpdate {s : State} {p : UpdatePlan} (h : inFlightUpdate s = some p) :
    updatePlan s = .ok p := by
  unfold inFlightUpdate at h
  repeat' split at h
  all_goals cases h
  assumption

theorem State.Inv.after_reset {s t : State} (h : s.Inv) (hr : assertReset s = .next t) : t.Inv := by
  rcases (assertReset_next hr).2 with ⟨-, rfl⟩ | ⟨p, hp, rfl⟩
  · exact afterReset_inv h.params_wf h.mem_wf h.mem_inside _
  · obtain ⟨-, -, -, -, hbuf, -⟩ := updatePlan_ok (updatePlan_of_inFlightUpdate hp)
    exact afterReset_inv h.params_wf (abandonWords_wf h.mem_wf _ _ _ _)
      (abandonWords_below h.mem_inside (by omega)) _

theorem State.Inv.after_host {s t : State} (h : s.Inv) (e : HostEffect s t) : t.Inv := by
  cases e with
  | reads => exact { h with }
  | window rest _ effect => exact State.Inv.after_window (s := { s with host := rest }) { h with } effect
  | memory _ a n data inside =>
    exact
      { h with
        mem_wf := Memory.writeBytes_wf h.mem_wf a data n
        mem_inside := Memory.writeBytes_below h.mem_inside a data inside }
  | resets rest _ _ reset => exact State.Inv.after_reset (s := { s with host := rest }) { h with } reset

end Sys2Proof.Machine

namespace Sys2Proof.Claims

open Sys2Proof.Machine

/-- Settles O53, from what a step can do: a completion keeps the invariants by the effect of its command, and a host moment
by the effect of its action. -/
theorem everyStepKeepsTheInvariants : Obligations.EveryStepKeepsTheInvariants := by
  intro s t h hstep
  rcases step_next hstep with ⟨-, hr, he⟩ | ⟨-, k, hk, hh⟩
  · exact h.after_engine hr he
  · have hk0 : s.status.busy = false → k = 0 := fun hb => by
      have := h.idle_without_time hb
      omega
    exact State.Inv.after_host (s := { s with remaining := k }) { h with idle_without_time := hk0 } (hostStep_next hh)

/-- Settles O52: the reset state is what the reset input leaves of itself. -/
theorem invariantsHoldAfterReset : Obligations.InvariantsHoldAfterReset := by
  have h : ∀ p : Params, p.wf → (State.resetWith p).Inv := fun p hp =>
    afterReset_inv (s := State.resetWith p) hp Memory.wf_nil (fun _ hc => by cases hc) 0
  exact ⟨h, h _ (by decide)⟩

/-- Settles O50: of the effects of a command only those of `UPDATE`, `INIT` and `FINI` write the count. -/
theorem activeCountHasFourWriters : Obligations.ActiveCountHasFourWriters := by
  intro s t hstep hne
  rcases step_session hstep with hs | ⟨hb, hr, i, m, hi, heff⟩ | ⟨hm, hrest, -⟩
  · exact absurd (congrArg Session.active hs) hne
  · refine .inl ⟨hb, hr, ?_⟩
    by_contra hno
    exact hne (heff.active_eq (by simpa [hi] using hno))
  · exact .inr ⟨hm, hrest⟩

/-- Settles O51: between two sessions stands the effect of a command, since a reset leaves no session. -/
theorem sessionBoundsHoldAcrossSteps : Obligations.SessionBoundsHoldAcrossSteps := by
  intro s t hstep hs ht
  rcases step_session hstep with heq | ⟨hb, hr, i, m, hi, heff⟩ | ⟨-, -, hempty⟩
  · rw [heq]
    exact ⟨rfl, le_rfl, fun h => absurd rfl h⟩
  · obtain ⟨hsr, hslots, hvoices⟩ := heff.session_bounds hs ht
    exact ⟨hsr, hslots, fun h => ⟨hb, hr, hvoices h ▸ hi⟩⟩
  · rw [hempty] at ht
    cases ht

/-- Settles O40, from the digits of the word. -/
theorem statusWordHasItsFields : Obligations.StatusWordHasItsFields := by
  rintro st w rfl
  obtain ⟨hbusy, herr, herrstk, hovr, hinit, hgap, htop, hcause⟩ := statusWord_digits st rfl
  refine ⟨getLsbD_of_digit hbusy, getLsbD_of_digit herr, getLsbD_of_digit herrstk, getLsbD_of_digit hovr,
    getLsbD_of_digit hinit, BitVec.eq_of_toNat_eq (extractLsb'_of_digit hgap),
    BitVec.eq_of_toNat_eq (extractLsb'_of_digit htop), ?_⟩
  rw [extractLsb'_of_digit hcause]
  cases st.cause <;> rfl

/-- Settles O37: the map reads reserved offsets as 0 and drops writes to them, and any other odd access misses the map. -/
theorem oddAccessesDoNothing : Obligations.OddAccessesDoNothing := by
  intro s off n data rest hoff hodd
  exact ⟨fun hs => by rw [hostStep_windowRead hoff hs, windowRead_odd s hodd],
    fun hs => by rw [hostStep_windowWrite hoff hs, windowWrite_ignored _ (by omega)]⟩

/-- Settles O38, by the register map on reads. -/
theorem windowReadsFollowTheMap : Obligations.WindowReadsFollowTheMap := by
  intro s off n rest hoff hs
  rw [hostStep_windowRead hoff hs, windowRead, registerRead_eq]

/-- Settles O39: a host write at an offset of the window is a `windowWrite`, and each clause is an equation of that. -/
theorem windowWritesFollowTheMap : Obligations.WindowWritesFollowTheMap := by
  rintro s off n data w rest hoff rfl hs u rfl
  rw [hostStep_windowWrite hoff hs]
  refine ⟨fun h => by rw [windowWrite_ignored _ (by omega)], ?_⟩
  rintro rfl
  refine ⟨fun h => by rw [windowWrite_ignored _ (by omega)], ?_, fun hb h ha => ?_, ?_, fun hb ha h0 h => ?_⟩
  · rintro rfl
    rfl
  · rw [windowWrite_aligned _ ha, registerWrite_overrun (s := { s with host := rest }) hb _ h ha]
    rfl
  · rintro hb rfl
    rw [windowWrite_aligned _ rfl, registerWrite, unlessBusy_of_idle (s := { s with host := rest }) hb]
    rfl
  · obtain ⟨a, hw, hargs⟩ := registerWrite_argument (s := { s with host := rest }) hb (BitVec.ofNat 32 data) h0 h ha
    exact ⟨_, by rw [windowWrite_aligned _ ha, hw], rfl, hargs⟩

end Sys2Proof.Claims
end

section
/-! PROOFS. The statements of 20_memory.md about refusals, the region in flight, and host accesses to ordinary memory. First
the region of a command that passes its checks (`commandRegion`), from which both refusals and the region in flight
follow; then what a host access to ordinary memory is. -/

namespace Sys2Proof.Machine

open Sys2Proof.Claims

/-! ## Ranges -/

theorem rangesMeet_iff {a n b k : Nat} :
    rangesMeet a n b k = true ↔ 0 < n ∧ 0 < k ∧ a < b + k ∧ b < a + n := by
  simp [rangesMeet, and_assoc]

theorem rangesMeet_eq_false_iff {a n b k : Nat} :
    rangesMeet a n b k = false ↔ n = 0 ∨ k = 0 ∨ b + k ≤ a ∨ a + n ≤ b := by
  rw [Bool.eq_false_iff, ne_eq, rangesMeet_iff]
  omega

theorem rangesMeet_window_iff {p : Params} {a n : Nat} :
    rangesMeet a n p.ctrlBase Config.windowBytes = true ↔ 0 < n ∧ a < p.ctrlBase + 64 ∧ p.ctrlBase < a + n := by
  simp [rangesMeet_iff, Config.windowBytes]

theorem anyDeviceMeets_iff {p : Params} {a n : Nat} :
    p.devices.any (fun d => rangesMeet a n d.1 d.2) = true ↔
      0 < n ∧ ∃ d ∈ p.devices, 0 < d.2 ∧ a < d.1 + d.2 ∧ d.1 < a + n := by
  simp only [List.any_eq_true, rangesMeet_iff]
  tauto

/-- A region is refused exactly where it is forbidden, and for that reason (R82, R93). -/
theorem regionRefusal_eq_some_iff {p : Params} {a n : Nat} {r : Refusal} :
    regionRefusal p a n = some r ↔ forbidden p a n r := by
  unfold regionRefusal forbidden
  split
  case isTrue hw =>
    rw [rangesMeet_window_iff] at hw
    simp [hw, eq_comm]
  case isFalse hw =>
    rw [rangesMeet_window_iff] at hw
    split
    case isTrue hd =>
      rw [anyDeviceMeets_iff] at hd
      rw [Option.some_inj, eq_comm]
      tauto
    case isFalse hd =>
      rw [anyDeviceMeets_iff] at hd
      refine iff_of_false (by simp) ?_
      rintro ⟨hn, ⟨hlo, hhi, -⟩ | ⟨-, -, hany⟩⟩
      · exact hw ⟨hn, hlo, hhi⟩
      · exact hd ⟨hn, hany⟩

/-! ## The region of a command -/

/-- The region of host memory that the arguments of a `LOAD` or an `UPDATE` name (R94), whether its checks pass or not. -/
def namedRegion (s : State) : Instr → Option Region
  | .load => some ⟨s.latched.arg1.toNat, (a2 s).toNat⟩
  | .update => some ⟨s.latched.arg0.toNat, 8 * (a1 s).toNat⟩
  | _ => none

/-- The region that command `i` accesses: that of a `LOAD` or an `UPDATE` that passes its checks (R94). -/
def commandRegion (s : State) : Instr → Option Region
  | .load => (loadPlan s).toOption.map fun p => ⟨p.src, p.byteCount⟩
  | .update => (updatePlan s).toOption.map fun p => ⟨p.buf, 8 * p.frames⟩
  | _ => none

/-- What becomes of a command whose arguments name the region `g`: it fails its checks and accesses nothing, or it passes
them, accesses `g`, and is refused for it or succeeds. -/
inductive RegionOutcome (s : State) (i : Instr) (g : Region) : Prop
  | fails (c : Cause) (unused : commandRegion s i = none) (failure : failsWith i s c)
  | passes (e : Effect) (used : commandRegion s i = some g)
      (run : exec i s = (regionRefusal s.params g.base g.len).elim (.next (s.succeed e)) .refused)

theorem load_regionOutcome (s : State) :
    RegionOutcome s .load ⟨s.latched.arg1.toNat, (a2 s).toNat⟩ := by
  cases hp : loadPlan s with
  | error c =>
    exact .fails c (by simp [commandRegion, hp, Except.toOption])
      (by simp only [failsWith, exec, execLoad, hp, completes_def, State.complete_error])
  | ok p =>
    obtain ⟨-, -, -, -, -, -, hsrc, -, hcount, -⟩ := loadPlan_ok hp
    obtain ⟨e, he⟩ : ∃ e, loadEffect s p = .ok e := ⟨_, rfl⟩
    have hn : p.byteCount = (a2 s).toNat := (congrArg Int.toNat hcount :)
    change p.src = s.latched.arg1.toNat at hsrc
    rw [← hsrc, ← hn]
    refine .passes e (by simp [commandRegion, hp, Except.toOption]) ?_
    simp only [exec, execLoad, hp, he, completes_def, State.complete_ok]
    cases regionRefusal s.params p.src p.byteCount <;> rfl

theorem update_regionOutcome (s : State) :
    RegionOutcome s .update ⟨s.latched.arg0.toNat, 8 * (a1 s).toNat⟩ := by
  cases hp : updatePlan s with
  | error c =>
    exact .fails c (by simp [commandRegion, hp, Except.toOption])
      (by simp only [failsWith, exec, execUpdate, hp, completes_def, State.complete_error])
  | ok p =>
    obtain ⟨-, -, -, -, -, hbuf, hframes⟩ := updatePlan_ok hp
    obtain ⟨e, he⟩ : ∃ e, updateEffect s p = .ok e := ⟨_, rfl⟩
    have hn : p.frames = (a1 s).toNat := (congrArg Int.toNat hframes :)
    change p.buf = s.latched.arg0.toNat at hbuf
    rw [← hbuf, ← hn]
    refine .passes e (by simp [commandRegion, hp, Except.toOption]) ?_
    simp only [exec, execUpdate, hp, he, completes_def, State.complete_ok]
    cases regionRefusal s.params p.buf (8 * p.frames) <;> rfl

theorem regionOutcome_of_namedRegion {s : State} {i : Instr} {g : Region} (h : namedRegion s i = some g) :
    RegionOutcome s i g := by
  cases i <;> cases h
  case load => exact load_regionOutcome s
  case update => exact update_regionOutcome s

/-- Any other command accesses no region and completes. -/
theorem completes_of_namedRegion_none {s : State} {i : Instr} (h : namedRegion s i = none) :
    commandRegion s i = none ∧ ∃ r, exec i s = .next (s.complete r) := by
  cases i
  case load | update => cases h
  all_goals exact ⟨rfl, _, rfl⟩

theorem State.succeed_ne_fail (s : State) (e : Effect) (c : Cause) : s.succeed e ≠ s.fail c := fun h => by
  have := congrArg (fun t => t.status.err) h
  simp at this

/-- A command accesses the region its arguments name, exactly when it does not fail. -/
theorem commandRegion_eq_some_iff {s : State} {i : Instr} {g : Region} :
    commandRegion s i = some g ↔ namedRegion s i = some g ∧ ∀ c, ¬ failsWith i s c := by
  cases hi : namedRegion s i with
  | none => simp [completes_of_namedRegion_none hi]
  | some g' =>
    cases regionOutcome_of_namedRegion hi with
    | fails c unused failure => simpa [unused] using fun _ => ⟨c, failure⟩
    | passes e used run =>
      have hrun : ∀ c, ¬ failsWith i s c := fun c => by
        rw [failsWith, run]
        cases regionRefusal s.params g'.base g'.len <;> simp [State.succeed_ne_fail]
      simp [used, hrun]

/-- A command is refused exactly for the region it accesses. -/
theorem exec_eq_refused_iff {s : State} {i : Instr} {r : Refusal} :
    exec i s = .refused r ↔ ∃ g, commandRegion s i = some g ∧ regionRefusal s.params g.base g.len = some r := by
  cases hi : namedRegion s i with
  | none =>
    obtain ⟨unused, _, run⟩ := completes_of_namedRegion_none hi
    simp [unused, run]
  | some g =>
    cases regionOutcome_of_namedRegion hi with
    | fails c unused failure =>
      rw [failsWith] at failure
      simp [unused, failure]
    | passes e used run =>
      rw [used, run]
      cases hg : regionRefusal s.params g.base g.len <;> simp [hg]

/-! ## The region in flight -/

theorem inFlight_idle {s : State} (h : s.status.busy = false) : inFlight s = none := by
  simp [inFlight, h]

theorem inFlight_illegal {s : State} {e : DecodeError} (h : decode s.cmd = .error e) : inFlight s = none := by
  simp [inFlight, h]

/-- The region in flight is the one that the command in progress accesses. -/
theorem inFlight_busy {s : State} {i : Instr} (hb : s.status.busy = true) (h : decode s.cmd = .ok i) :
    inFlight s = commandRegion s i := by
  rw [inFlight, if_pos hb, h]
  cases i
  case load => cases hp : loadPlan s <;> simp [commandRegion, hp, Except.toOption]
  case update => cases hp : updatePlan s <;> simp [commandRegion, hp, Except.toOption]
  all_goals rfl

theorem inFlight_of_commandRegion_none {s : State} {i : Instr} (h : decode s.cmd = .ok i)
    (hi : commandRegion s i = none) : inFlight s = none := by
  cases hb : s.status.busy
  · exact inFlight_idle hb
  · rw [inFlight_busy hb h, hi]

/-- What the host still has to do is no part of the region in flight. -/
theorem inFlight_with_host (s : State) (h : List HostAction) : inFlight { s with host := h } = inFlight s := rfl

/-- The access `[a, a+n)` shares no byte with the region in flight, if there is one. -/
def MissesInFlight (s : State) (a n : Nat) : Prop :=
  ∀ g, inFlight s = some g → n = 0 ∨ g.len = 0 ∨ g.base + g.len ≤ a ∨ a + n ≤ g.base

theorem touchesInFlight_of_miss {s : State} {a n : Nat} (h : MissesInFlight s a n) : touchesInFlight s a n = false := by
  unfold touchesInFlight
  split
  · rfl
  · exact rangesMeet_eq_false_iff.mpr (h _ ‹_›)

/-! ## Host accesses to ordinary memory -/

theorem onHostMemory_of_reaches {s : State} {a n : Nat} (h : reachesMemory s a n) (k : Host.Outcome State Fault Refusal) :
    onHostMemory s a n k = k := by
  obtain ⟨-, hwin, hdev, hend⟩ := h
  have hany : s.params.devices.any (fun d => rangesMeet a n d.1 d.2) = false := by simpa using hdev
  rw [onHostMemory, if_neg (by simp [Config.windowBytes, hwin]), if_neg (by simp [hany]), if_neg (by omega)]

theorem hostStep_write {s : State} {a n data : Nat} {rest : List HostAction} (hs : s.host = .write a n data :: rest)
    (h : reachesMemory s a n) :
    hostStep s = if touchesInFlight s a n then .fault .inFlightWrite
      else .next { s with host := rest, mem := Memory.writeBytes s.mem a data n } := by
  have hr : reachesMemory { s with host := rest } a n := h
  simp only [hostStep, hs, hostWrite, hr.1, onHostMemory_of_reaches hr]
  rfl

theorem hostStep_read {s : State} {a n : Nat} {rest : List HostAction} (hs : s.host = .read a n :: rest)
    (h : reachesMemory s a n) :
    hostStep s = .next
      { s with
        host := rest
        readData := bytesValue (byteSeen s a) n
        fresh := if touchesInFlight s a n then s.fresh + n else s.fresh } := by
  have hr : reachesMemory { s with host := rest } a n := h
  simp only [hostStep, hs, hostRead, hr.1, onHostMemory_of_reaches hr]
  rfl

/-- Each byte of an access that misses the region in flight misses it too, so the host sees the stored byte. -/
theorem byteSeen_of_miss {s : State} {a n i : Nat} (h : MissesInFlight s a n) (hi : i < n) :
    byteSeen s a i = Memory.read8 s.mem (a + i) := by
  have hmiss : MissesInFlight s (a + i) 1 := fun g hg => by
    have := h g hg
    omega
  simp [byteSeen, touchesInFlight_of_miss hmiss]

end Sys2Proof.Machine

namespace Sys2Proof.Claims

open Sys2Proof.Machine

/-- Settles O28: a command is refused for the region it accesses, and so is the reset that abandons it. -/
theorem forbiddenRegionsAreRefused : Obligations.ForbiddenRegionsAreRefused := by
  refine ⟨fun i s r => ?_, fun s rest r hs => ?_⟩
  · simp only [exec_eq_refused_iff, commandRegion_eq_some_iff, regionRefusal_eq_some_iff, and_assoc]
    constructor
    · rintro ⟨g, hi, hrest⟩
      refine ⟨g.base, g.len, ?_, hrest⟩
      cases i
      case load => cases hi; exact .inl ⟨rfl, rfl, rfl⟩
      case update => cases hi; exact .inr ⟨rfl, rfl, rfl⟩
      all_goals cases hi
    · rintro ⟨a, n, ⟨rfl, rfl, rfl⟩ | ⟨rfl, rfl, rfl⟩, hrest⟩
      · exact ⟨_, rfl, hrest⟩
      · exact ⟨_, rfl, hrest⟩
  · rw [hostStep, hs]
    simp only [assertReset_refused, inFlightRefusal, inFlight_with_host, ← regionRefusal_eq_some_iff]
    cases inFlight s <;> simp

/-- Settles O42: the region in flight is the one that the command in progress accesses. -/
theorem inFlightRegionIsTheCommands : Obligations.InFlightRegionIsTheCommands := by
  intro s
  refine ⟨inFlight_idle, fun i hd hload hupdate => inFlight_of_commandRegion_none hd ?_, fun _ => inFlight_illegal,
    fun i c hd hfail => inFlight_of_commandRegion_none hd ?_, fun hb hd hpass => ?_, fun hb hd hpass => ?_⟩
  · cases i
    case load => exact absurd rfl hload
    case update => exact absurd rfl hupdate
    all_goals rfl
  · exact Option.eq_none_iff_forall_ne_some.mpr fun g hg => (commandRegion_eq_some_iff.mp hg).2 c hfail
  · rw [inFlight_busy hb hd, commandRegion_eq_some_iff]
    exact ⟨rfl, hpass⟩
  · rw [inFlight_busy hb hd, commandRegion_eq_some_iff]
    exact ⟨rfl, hpass⟩

/-- Settles O41, by whether the write touches the region in flight. -/
theorem inFlightWritesFault : Obligations.InFlightWritesFault := by
  intro s a n data rest hs hreach
  rw [hostStep_write hs hreach]
  refine ⟨fun g hg hn hlen hlo hhi => ?_, fun hmiss => by simp [touchesInFlight_of_miss hmiss]⟩
  have hmeet : rangesMeet a n g.base g.len = true := rangesMeet_iff.mpr ⟨hn, hlen, hlo, hhi⟩
  simp [touchesInFlight, hg, hmeet]

/-- Settles O43: the value read is made of the bytes seen, which are the stored ones. -/
theorem hostReadsSeeMemory : Obligations.HostReadsSeeMemory := by
  intro s a n rest hs hreach
  rw [hostStep_read hs hreach]
  refine ⟨fun hmiss => ⟨_, by simp [touchesInFlight_of_miss hmiss], bytesValue_lt (byteSeen s a) n, fun k hk => ?_⟩,
    _, _, rfl⟩
  rw [← byteSeen_of_miss hmiss hk, ← Nat.shiftRight_eq_div_pow]
  exact bytesValue_byte _ hk

end Sys2Proof.Claims
end

section
/-! PROOFS. The statements of 30_encoding.md. First the opcode map as the graph of `opcode`, from which decoding and the
illegal words follow; then the register writes of a command line, one argument register after another. -/

namespace Sys2Proof

/-! ## The opcode map -/

/-- The rows of R127 are the graph of `opcode`. -/
theorem mem_opcodeRows_iff {r : OpcodeRow} : r ∈ opcodeRows ↔ r.opc = opcode r.instr := by
  constructor
  · have hrows : ∀ r ∈ opcodeRows, r.opc = opcode r.instr := by decide
    exact hrows r
  · obtain ⟨b, i⟩ := r
    rintro (rfl : b = opcode i)
    cases i <;> decide

theorem find?_opcode (i : Instr) : opcodeRows.find? (fun r => r.opc == opcode i) = some ⟨opcode i, i⟩ := by
  cases i <;> rfl

/-- A byte selects the row of command `i` exactly when it is the opcode of `i`. -/
theorem find?_opcodeRows_map_instr {b : Byte} {i : Instr} :
    (opcodeRows.find? (fun r => r.opc == b)).map OpcodeRow.instr = some i ↔ b = opcode i := by
  constructor
  · intro h
    obtain ⟨r, hr, rfl⟩ := Option.map_eq_some_iff.mp h
    have hb : r.opc = b := by simpa using List.find?_some hr
    rw [← hb, mem_opcodeRows_iff.mp (List.mem_of_find?_eq_some hr)]
  · rintro rfl
    rw [find?_opcode]
    rfl

/-- The opcodes that R128 leaves to commands. -/
theorem mem_opcodes_iff {n : Nat} :
    n ∈ opcodeRows.map (fun r => r.opc.toNat) ↔
      (0x01 ≤ n ∧ n ≤ 0x0A) ∨ (0x10 ≤ n ∧ n ≤ 0x16) ∨ (0x20 ≤ n ∧ n ≤ 0x27) ∨ n = 0x30 := by
  simp only [opcodeRows, sessionRows, soundRows, voiceRows, List.cons_append, List.nil_append, List.map_cons,
    List.map_nil, List.mem_cons, List.not_mem_nil, or_false, BitVec.reduceToNat]
  omega

/-! ## Decoding and encoding -/

/-- A byte zero-extended to a word (R132), field by field. -/
theorem eq_setWidth_iff {w : Word} {b : Byte} :
    w = b.setWidth 32 ↔ w.extractLsb' 8 24 = 0#24 ∧ w.extractLsb' 0 8 = b := by
  simp only [← BitVec.toNat_inj, BitVec.toNat_setWidth, BitVec.extractLsb'_toNat, Nat.shiftRight_eq_div_pow,
    BitVec.toNat_ofNat]
  omega

theorem toNat_encode (i : Instr) : (encode i).toNat = (opcode i).toNat := by
  have := (opcode i).isLt
  rw [encode, BitVec.toNat_setWidth]
  omega

/-- Decoding inverts encoding. -/
theorem decode_eq_ok_iff {w : Word} {i : Instr} : decode w = .ok i ↔ w = encode i := by
  rw [encode, eq_setWidth_iff, ← find?_opcodeRows_map_instr, decode]
  split
  case isTrue hres => simp [hres]
  case isFalse hres =>
    rw [not_not] at hres
    cases opcodeRows.find? (fun r => r.opc == w.extractLsb' 0 8) <;> simp [hres]

/-- A word is illegal exactly when it is the word of no command. -/
theorem decode_eq_error_iff {w : Word} : (∃ e, decode w = .error e) ↔ ∀ i, w ≠ encode i := by
  simp only [ne_eq, ← decode_eq_ok_iff]
  cases decode w <;> simp

theorem exists_eq_encode_iff {w : Word} : (∃ i, w = encode i) ↔ w.toNat ∈ opcodeRows.map (fun r => r.opc.toNat) := by
  simp only [List.mem_map, mem_opcodeRows_iff, ← BitVec.toNat_inj, toNat_encode]
  constructor
  · rintro ⟨i, hi⟩
    exact ⟨⟨opcode i, i⟩, rfl, hi.symm⟩
  · rintro ⟨r, hr, hw⟩
    exact ⟨r.instr, by omega⟩

end Sys2Proof

namespace Sys2Proof.Machine

open Sys2Proof.Claims

/-! ## The step, by the moment it falls in -/

theorem step_idle {s : State} (h : s.status.busy = false) : step s = hostStep s := by
  simp [step, h]

theorem step_over {s : State} (hb : s.status.busy = true) (hr : s.remaining = 0) : step s = engine s := by
  simp [step, hb, hr]

theorem engine_illegal {s : State} {e : DecodeError} (h : decode s.cmd = .error e) :
    engine s = .next (s.fail .encoding) := by
  simp only [engine, h, completes_def, State.complete_error]

/-! ## Runs -/

theorem run_succ_of_step {M : Host.Core} {s u : M.State} (h : M.step s = .next u) (n : Nat) :
    M.run (n + 1) s = M.run n u := by
  rw [Host.Core.run, h]

/-- A run goes on where its first part ended. -/
theorem run_add_of_run {M : Host.Core} {s u : M.State} {m : Nat} (h : M.run m s = .next u) (n : Nat) :
    M.run (m + n) s = M.run n u := by
  induction m generalizing s with
  | zero =>
    cases h
    rw [Nat.zero_add]
  | succ m ih =>
    rw [Host.Core.run] at h
    split at h
    · rw [Nat.succ_add, run_succ_of_step ‹_›, ih h]
    all_goals cases h

/-! ## The register writes of a command line (R132) -/

theorem operands_length_le (i : Instr) : i.operands.length ≤ 6 := by cases i <;> decide

theorem hostStep_writeRegister {s : State} {off : Nat} {w : Word} {rest : List HostAction} (h : off < 64)
    (ha : off % 4 = 0) (hs : s.host = writeRegister s.params off w :: rest) :
    hostStep s = .next (registerWrite { s with host := rest } w off) := by
  rw [hostStep_windowWrite h hs, windowWrite_aligned _ ha, BitVec.ofNat_toNat, BitVec.setWidth_eq]

/-- With no command in progress, the write of an operand fills its argument register. -/
theorem step_writeArgument {s : State} {k : Nat} {w : Word} {rest : List HostAction} (hb : s.status.busy = false)
    (hk : k < 6) (hs : s.host = writeRegister s.params (4 + 4 * k) w :: rest) :
    ∃ a, step s = .next { s with host := rest, args := a } ∧ argList a = (argList s.args).set k w := by
  obtain ⟨a, hw, ha⟩ := registerWrite_argument (s := { s with host := rest }) hb w (off := 4 + 4 * k)
    (by omega) (by omega) (by omega)
  have hindex : (4 + 4 * k) / 4 - 1 = k := by omega
  exact ⟨a, by rw [step_idle hb, hostStep_writeRegister (by omega) (by omega) hs, hw], by rw [ha, hindex]⟩

/-- With no command in progress, a write to `CMD` has the word accepted. -/
theorem step_writeCommand {s : State} {w : Word} {rest : List HostAction} (hb : s.status.busy = false)
    (hs : s.host = writeRegister s.params 0 w :: rest) :
    step s = .next (({ s with host := rest } : State).accept w) := by
  rw [step_idle hb, hostStep_writeRegister (by decide) rfl hs, registerWrite,
    unlessBusy_of_idle (s := { s with host := rest }) hb]

theorem argList_length (a : Args) : (argList a).length = 6 := rfl

theorem take_succ_set {α : Type} {l : List α} {k : Nat} (h : k < l.length) (x : α) :
    (l.set k x).take (k + 1) = l.take k ++ [x] := by
  rw [List.set_eq_take_append_cons_drop, if_pos h]
  simp [List.take_append, h.le]

/-- The operand writes of a command line from `ARGk` on fill those registers and leave the others. -/
theorem run_writeOperands (ops : List Literal) {s : State} {k : Nat} {rest : List HostAction}
    (hb : s.status.busy = false) (hk : k + ops.length ≤ 6) (hs : s.host = writeOperands s.params k ops ++ rest) :
    ∃ a, Host.Core.run core ops.length s = .next { s with host := rest, args := a } ∧
      argList a = (argList s.args).take k ++ ops.map literalWord ++ (argList s.args).drop (k + ops.length) := by
  induction ops generalizing s k with
  | nil =>
    rw [writeOperands, List.nil_append] at hs
    subst hs
    exact ⟨s.args, rfl, by simp⟩
  | cons l ls ih =>
    rw [List.length_cons] at hk
    obtain ⟨a, hstep, ha⟩ := step_writeArgument hb (by omega) hs
    obtain ⟨b, hrun, hargs⟩ := ih (s := { s with host := writeOperands s.params (k + 1) ls ++ rest, args := a })
      (k := k + 1) hb (by omega) rfl
    refine ⟨b, (run_succ_of_step hstep _).trans hrun, ?_⟩
    rw [hargs, ha, List.drop_set_of_lt (by omega), take_succ_set (lt_of_lt_of_eq (by omega) (argList_length _).symm),
      List.length_cons, Nat.add_right_comm, Nat.add_assoc k]
    simp

end Sys2Proof.Machine

namespace Sys2Proof.Claims

open Sys2Proof.Machine

/-- Settles O1, through the map as the graph of `opcode`: a word decodes by the row of its low byte. -/
theorem decodeInvertsEncode : Obligations.DecodeInvertsEncode := fun _ _ => decode_eq_ok_iff

/-- Settles O2: the illegal words are those outside the opcode map, and the engine fails them. -/
theorem illegalWordsFailWithEncoding : Obligations.IllegalWordsFailWithEncoding := by
  refine ⟨fun w => ?_, fun s e hb hr hd => (step_over hb hr).trans (engine_illegal hd)⟩
  rw [decode_eq_error_iff, ← not_exists, exists_eq_encode_iff, mem_opcodes_iff]
  omega

/-- Settles O46: one step per operand fills the argument registers, and the write to `CMD` latches them. -/
theorem expandedCommandIsAccepted : Obligations.ExpandedCommandIsAccepted := by
  intro s i ops rest hb hlen hs
  have hfit : 0 + ops.length ≤ 6 := by
    have := operands_length_le i
    omega
  rw [expandLine, List.append_assoc] at hs
  obtain ⟨a, hrun, ha⟩ := run_writeOperands ops hb hfit hs
  have hcmd := step_writeCommand
    (s := { s with host := writeRegister s.params 0 (encode i) :: .wait :: rest, args := a }) hb rfl
  have hall := (run_add_of_run hrun 1).trans (run_succ_of_step hcmd 0)
  exact ⟨_, hall, rfl, rfl, by simpa using ha, rfl, rfl, rfl⟩

/-- Settles O3, by running the decoder on each word. -/
theorem writtenOutWordsDecode : Obligations.WrittenOutWordsDecode := by
  unfold Obligations.WrittenOutWordsDecode
  decide

end Sys2Proof.Claims
end

section
/-! PROOFS. The statements of 40_session.md. First how a command that always completes ends, by what its meaning gives
behind the opening check; then INIT and SETNVOC, the two commands with checks of their own, in the terms of the statements. -/

namespace Sys2Proof.Machine

open Sys2Proof.Claims

/-! ## How a command that always completes ends -/

theorem failsWith_of_error {i : Instr} {s : State} {r : Except Cause Effect} {c : Cause}
    (hx : exec i s = completes s r) (hr : r = .error c) : failsWith i s c := by
  rw [failsWith, hx, hr, completes_def, State.complete_error]

theorem succeedsWith_of_become {i : Instr} {s : State} {r : Except Cause Effect} {S : Session} {w : Word}
    (hx : exec i s = completes s r) (hr : r = become s S w) : succeedsWith i s S w := by
  rw [succeedsWith, hx, hr, completes_def, become, State.complete_ok]

/-- `requireInit` outside a session (60_exceptions.md R351). -/
theorem failsWith_state_of_requireInit {i : Instr} {s : State} {k : Except Cause Effect}
    (hx : exec i s = completes s (requireInit s k)) (hi : s.session.init = false) : failsWith i s .state :=
  failsWith_of_error hx (requireInit_of_not_init hi k)

/-- `requireInit` in a session. -/
theorem exec_of_requireInit {i : Instr} {s : State} {k : Except Cause Effect}
    (hx : exec i s = completes s (requireInit s k)) (hi : s.session.init = true) : exec i s = completes s k := by
  rw [hx, requireInit_of_init hi]

/-- A command that answers `r` in a session. -/
theorem succeedsWith_of_requireInit_answer {i : Instr} {s : State} {r : Word}
    (hx : exec i s = completes s (requireInit s (answer s r))) (hi : s.session.init = true) :
    succeedsWith i s s.session r :=
  succeedsWith_of_become (exec_of_requireInit hx hi) rfl

/-! ## Values of the session commands -/

/-- A count is answered modulo 2^32 (log entry 20). -/
theorem resI32_natCast (n : Nat) : resI32 n = BitVec.ofNat 32 n := BitVec.ofInt_natCast 32 n

theorem defaultVoice_eq_r49Voice (sr : I32) : defaultVoice sr = r49Voice sr := rfl

theorem freshVoices_eq_replicate (n : Nat) (sr : I32) : freshVoices n sr = List.replicate n (r49Voice sr) := by
  rw [freshVoices, defaultVoice_eq_r49Voice]

theorem startedSession_eq (sr : I32) : startedSession sr =
    { init := true, sr := sr, gvol := 0x3F800000#32, active := 0, slots := [], voices := [r49Voice sr] } := by
  rw [startedSession, freshVoices_eq_replicate]
  rfl

/-! ## The commands with checks of their own -/

theorem exec_init (s : State) : exec .init s = completes s (
    if s.session.init then .error .state
    else if a0 s < 1 then .error .param
    else become s (startedSession s.latched.arg0) 1#32) := rfl

theorem exec_setnvoc {s : State} (hi : s.session.init = true) : exec .setnvoc s = completes s (
    if a0 s < 1 then .error .param
    else if (s.params.maxVoices : Int) < a0 s then .error .capacity
    else become s { s.session with voices := freshVoices (a0 s).toNat s.session.sr } 0#32) :=
  exec_of_requireInit rfl hi

end Sys2Proof.Machine

namespace Sys2Proof.Claims

open Sys2Proof.Machine

/-- Settles O5, one branch of `INIT` after the other. -/
theorem initStartsASession : Obligations.InitStartsASession := by
  intro s
  refine ⟨fun hi => failsWith_of_error (exec_init s) (if_pos hi),
    fun hi ha => failsWith_of_error (exec_init s) ?_, fun hi ha => succeedsWith_of_become (exec_init s) ?_⟩
  · rw [if_neg (by simp [hi]), if_pos ha]
  · rw [if_neg (by simp [hi]), if_neg (by omega), startedSession_eq]

/-- Settles O6, by the opening check. -/
theorem finiDestroysTheSession : Obligations.FiniDestroysTheSession := fun _ =>
  ⟨failsWith_state_of_requireInit rfl, fun hi => succeedsWith_of_become (exec_of_requireInit rfl hi) rfl⟩

/-- Settles O7: `ISINIT` has no check, and the other two only the opening one. -/
theorem sessionQueriesAnswer : Obligations.SessionQueriesAnswer := by
  intro s
  refine ⟨succeedsWith_of_become rfl rfl,
    fun hi => ⟨succeedsWith_of_requireInit_answer rfl hi, succeedsWith_of_requireInit_answer rfl hi⟩, fun hi => ?_⟩
  exact List.forall_mem_cons.mpr ⟨failsWith_state_of_requireInit rfl hi,
    List.forall_mem_singleton.mpr (failsWith_state_of_requireInit rfl hi)⟩

/-- Settles O8: the three commands have the opening check only, and a count answers as its residue. -/
theorem sessionCountsAnswer : Obligations.SessionCountsAnswer := by
  intro s
  simp only [← resI32_natCast]
  refine ⟨fun hi => ⟨succeedsWith_of_requireInit_answer rfl hi, succeedsWith_of_requireInit_answer rfl hi,
    succeedsWith_of_requireInit_answer rfl hi⟩, fun hi => ?_⟩
  exact List.forall_mem_cons.mpr ⟨failsWith_state_of_requireInit rfl hi,
    List.forall_mem_cons.mpr ⟨failsWith_state_of_requireInit rfl hi,
      List.forall_mem_singleton.mpr (failsWith_state_of_requireInit rfl hi)⟩⟩

/-- Settles O9, one branch of `SETNVOC` after the other. -/
theorem setVoiceCountReplacesThePool : Obligations.SetVoiceCountReplacesThePool := by
  intro s
  refine ⟨failsWith_state_of_requireInit rfl, fun hi ha => failsWith_of_error (exec_setnvoc hi) (if_pos ha),
    fun hi ha hcap => failsWith_of_error (exec_setnvoc hi) ?_,
    fun hi ha hcap => succeedsWith_of_become (exec_setnvoc hi) ?_⟩
  · rw [if_neg (by omega), if_pos hcap]
  · rw [if_neg (by omega), if_neg (by omega), freshVoices_eq_replicate]

/-- Settles O10, by the opening check. -/
theorem setGlobalVolumeClamps : Obligations.SetGlobalVolumeClamps := fun _ =>
  ⟨failsWith_state_of_requireInit rfl, fun hi => succeedsWith_of_become (exec_of_requireInit rfl hi) rfl⟩

end Sys2Proof.Claims
end

section
/-! PROOFS. The statements of 41_soundbank.md. First products by a power of two, which are exact for the values of integer
samples; then samples and frames as they stand in memory; then the slot table, and how a command on one frame ends. -/

namespace Sys2Proof.Machine

open Sys2Proof.Claims

/-! ## Exact products (R200: "Both scalings are exact") -/

theorem f32Val_natAbs (x : F32) : (f32Val x).natAbs = f32Mag x := by
  unfold f32Val
  split <;> simp

/-- A product whose magnitude has a finite pattern is not rounded. -/
theorem f32Mul_exact {a b : F32} (ha : f32IsFinite a = true) (hb : f32IsFinite b = true) {r : Nat}
    (hr : r < 0x7F800000) (h : f32Mag a * f32Mag b = magOfBits r * f32One) :
    f32IsFinite (f32Mul a b) = true ∧ f32Val (f32Mul a b) * f32One = f32Val a * f32Val b := by
  rw [f32Mul_finite ha hb, h]
  refine ⟨f32IsFinite_round f32One_pos (magOfBits_mul_le _ (by omega)), ?_⟩
  have hmag : (f32Mag a : Int) * f32Mag b = magOfBits r * f32One := by exact_mod_cast h
  simp only [f32Val, f32Sign_round, f32Mag_round, roundMag_exact f32One_pos hr.le]
  cases f32Sign a <;> cases f32Sign b <;> simp [hmag]

/-- `x` stands for exactly `v * 2^e` units of 2^-149. -/
structure Exactly (x : F32) (v : Int) (e : Nat) : Prop where
  finite : f32IsFinite x = true
  value : f32Val x = v * 2 ^ e

theorem exactly_fromInt {v : Int} (hv : v.natAbs ≤ 2 ^ 24) : Exactly (f32FromInt v) v 149 :=
  ⟨f32IsFinite_fromInt (by omega), f32Val_fromInt hv⟩

/-- A product by a power of two keeps the 24 bits of `v` and moves the exponent. -/
theorem Exactly.mul_powerOfTwo {x c : F32} {v : Int} {e f g : Nat} (hx : Exactly x v e) (hc : Exactly c 1 f)
    (hv : v.natAbs ≤ 2 ^ 24) (hexp : e + f = g + 149) (hg : g ≤ 252) : Exactly (f32Mul x c) v g := by
  obtain ⟨r, hr, hmag⟩ := exists_magOfBits_eq g hv
  have hprod : f32Mag x * f32Mag c = magOfBits r * f32One := by
    rw [← f32Val_natAbs, ← f32Val_natAbs, ← Int.natAbs_mul, hx.value, hc.value, hmag, f32One, Int.one_mul,
      Int.mul_assoc, ← pow_add, hexp, Int.natAbs_mul, Int.natAbs_pow, Nat.mul_assoc, ← pow_add]
    rfl
  obtain ⟨hfin, hval⟩ := f32Mul_exact hx.finite hc.finite (by omega) hprod
  refine ⟨hfin, mul_right_cancel₀ (b := (f32One : Int)) (by exact_mod_cast f32One_pos.ne') ?_⟩
  rw [hval, hx.value, hc.value, f32One, Nat.cast_pow, Nat.cast_ofNat, Int.one_mul, Int.mul_assoc, Int.mul_assoc,
    ← pow_add, ← pow_add, hexp]

theorem roundDivEven_mul_self (v : Int) {d : Nat} (hd : 0 < d) : roundDivEven (v * d) d = v := by
  have hd' : (d : Int) ≠ 0 := by omega
  simp only [roundDivEven, Int.mul_ediv_cancel v hd', Int.mul_emod_left]
  rw [if_neg (by omega)]

theorem limit_of_mem {v lo hi : Int} (hlo : lo ≤ v) (hhi : v ≤ hi) : limit v lo hi = v := by
  rw [limit, if_neg (by omega), if_neg (by omega)]

/-- An integer within the bounds converts to itself (R17). -/
theorem Exactly.toInt {x : F32} {v lo hi : Int} (hx : Exactly x v 149) (hlo : lo ≤ v) (hhi : v ≤ hi) :
    f32ToIntRneSat x lo hi = v := by
  have hone : f32Val x = v * f32One := by rw [hx.value, f32One, Nat.cast_pow, Nat.cast_ofNat]
  rw [f32ToIntRneSat_finite hx.finite, hone, roundDivEven_mul_self v f32One_pos, limit_of_mem hlo hhi]

theorem exactly_twoPowNeg7 : Exactly f32TwoPowNeg7 1 142 := ⟨by decide, by decide +kernel⟩

theorem exactly_twoPowNeg15 : Exactly f32TwoPowNeg15 1 134 := ⟨by decide, by decide +kernel⟩

theorem exactly_oneTwentyEight : Exactly f32OneTwentyEight 1 156 := ⟨by decide, by decide +kernel⟩

theorem exactly_twoPow15 : Exactly f32TwoPow15 1 164 := ⟨by decide, by decide +kernel⟩

theorem toInt8_mem (v : BitVec 8) : -128 ≤ v.toInt ∧ v.toInt ≤ 127 :=
  ⟨BitVec.le_toInt v, Int.le_of_lt_add_one BitVec.toInt_lt⟩

theorem toInt16_mem (v : BitVec 16) : -32768 ≤ v.toInt ∧ v.toInt ≤ 32767 :=
  ⟨BitVec.le_toInt v, Int.le_of_lt_add_one BitVec.toInt_lt⟩

/-- An 8-bit sample is scaled by 2^-7 exactly. -/
theorem exactly_sample8 (v : BitVec 8) : Exactly (f32Mul (f32FromInt v.toInt) f32TwoPowNeg7) v.toInt 142 := by
  have hv : v.toInt.natAbs ≤ 2 ^ 24 := by
    have := toInt8_mem v
    omega
  exact (exactly_fromInt hv).mul_powerOfTwo exactly_twoPowNeg7 hv rfl (by norm_num)

/-- A 16-bit sample is scaled by 2^-15 exactly. -/
theorem exactly_sample16 (v : BitVec 16) : Exactly (f32Mul (f32FromInt v.toInt) f32TwoPowNeg15) v.toInt 134 := by
  have hv : v.toInt.natAbs ≤ 2 ^ 24 := by
    have := toInt16_mem v
    omega
  exact (exactly_fromInt hv).mul_powerOfTwo exactly_twoPowNeg15 hv rfl (by norm_num)

/-! ## Samples and frames in memory (R200, R201) -/

theorem toNat_append_byte {n : Nat} (x : BitVec n) (b : Byte) : (x ++ b).toNat = x.toNat * 256 + b.toNat := by
  rw [BitVec.toNat_append, ← Nat.shiftLeft_add_eq_or_of_lt b.isLt, Nat.shiftLeft_eq]

/-- An 8-bit read has its byte in the low bits. -/
theorem extract8_read (m : Memory) (a : Nat) : (Memory.read m a .w8).extractLsb' 0 8 = Memory.read8 m a := by
  apply BitVec.eq_of_toNat_eq
  rw [BitVec.extractLsb'_toNat, Memory.read_toNat]
  exact bytesValue_byte _ (k := 0) (n := 1) one_pos

/-- A 16-bit read has its two bytes in the low bits, the lower address least significant (R85). -/
theorem extract16_read (m : Memory) (a : Nat) :
    (Memory.read m a .w16).extractLsb' 0 16 = Memory.read8 m (a + 1) ++ Memory.read8 m a := by
  apply BitVec.eq_of_toNat_eq
  simp only [BitVec.extractLsb'_toNat, Memory.read_toNat, toNat_append_byte, Width.bytes, bytesValue,
    Nat.shiftRight_zero, Nat.add_zero]
  omega

theorem decodeSample_w8 (m : Memory) (a : Nat) :
    decodeSample m a .w8 = f32Mul (f32FromInt (Memory.read8 m a).toInt) f32TwoPowNeg7 := by
  rw [decodeSample, opI8, extract8_read]

theorem decodeSample_w16 (m : Memory) (a : Nat) :
    decodeSample m a .w16 =
      f32Mul (f32FromInt (Memory.read8 m (a + 1) ++ Memory.read8 m a).toInt) f32TwoPowNeg15 := by
  rw [decodeSample, opI16, extract16_read]

theorem decodeSample_w32 (m : Memory) (a : Nat) : decodeSample m a .w32 =
    Memory.read8 m (a + 3) ++ Memory.read8 m (a + 2) ++ Memory.read8 m (a + 1) ++ Memory.read8 m a := by
  apply BitVec.eq_of_toNat_eq
  simp only [decodeSample, Memory.read_toNat, toNat_append_byte, Width.bytes, bytesValue, Nat.add_zero]
  omega

theorem addChannels_eq_foldl (m : Memory) (a : Nat) (w : Width) (count c : Nat) (acc : F32) :
    addChannels m a w count c acc =
      (List.range' c count).foldl (fun acc c => f32Add acc (decodeSample m (a + c * w.bytes) w)) acc := by
  induction count generalizing c acc with
  | zero => rfl
  | succ count ih => rw [addChannels, ih, List.range'_succ, List.foldl_cons]

theorem decodeFrames_getElem? (m : Memory) (src : Nat) {n f : Nat} {w : Width} {ch : Nat} (h : f < n / (w.bytes * ch)) :
    (decodeFrames m src n w ch)[f]? = some (decodeFrame m (src + f * ch * w.bytes) w ch) := by
  simp [decodeFrames, h]

/-! ## The slot table (R202) -/

/-- The frames of a slot, and 0 for one that does not exist: `old` of R202. -/
theorem slotFrames_eq_ite (slots : List Sound) (i : Nat) :
    slotFrames slots i = if i < slots.length then (slots.getD i []).length else 0 := by
  unfold slotFrames
  split
  · rfl
  · rw [List.getD_eq_default _ _ (by omega), List.length_nil]

/-- Putting a slot leaves every other existing slot alone. -/
theorem putSlot_getElem?_ne {slots : List Sound} {i k : Nat} (hne : i ≠ k) (hk : k < slots.length) (new : Sound) :
    (putSlot slots i new)[k]? = slots[k]? := by
  unfold putSlot
  split
  · exact List.getElem?_set_ne hne
  · rw [List.append_assoc, List.getElem?_append_left hk]

/-! ## The checks of LOAD, in the order of R202 -/

theorem sampleWidth_bytes (w : Width) : sampleWidth w.bytes = some w := by cases w <;> rfl

theorem sampleWidth_eq_none {v : Int} (h1 : v ≠ 1) (h2 : v ≠ 2) (h4 : v ≠ 4) : sampleWidth v = none := by
  rw [sampleWidth, if_neg h1, if_neg h2, if_neg h4]

/-- The checks of `LOAD` that come after those of the slot and of the width `w`. -/
def loadPlanOfWidth (s : State) (w : Width) : Except Cause LoadPlan :=
  if a4 s < 1 then .error .param
  else if a2 s < 0 then .error .param
  else if s.latched.arg1.toNat = 0 then .error .param
  else if s.params.hostMemBytes < s.latched.arg1.toNat + (a2 s).toNat then .error .range
  else if s.params.sampleMemFrames <
      totalFrames s.session.slots - slotFrames s.session.slots (a0 s).toNat +
        (a2 s).toNat / (w.bytes * (a4 s).toNat) then .error .capacity
  else .ok ⟨(a0 s).toNat, s.latched.arg1.toNat, (a2 s).toNat, w, (a4 s).toNat⟩

theorem loadPlan_of_not_init {s : State} (hi : s.session.init = false) : loadPlan s = .error .state := by
  simp only [loadPlan, hi]
  rfl

theorem loadPlan_of_init {s : State} (hi : s.session.init = true) : loadPlan s =
    if a0 s < 0 then .error .range
    else if (s.params.maxSounds : Int) ≤ a0 s then .error .capacity
    else (sampleWidth (a3 s)).elim (.error .param) (loadPlanOfWidth s) := by
  simp only [loadPlan, hi]
  cases hw : sampleWidth (a3 s) <;> rw [show sampleWidth (opI32 s.latched.arg3) = _ from hw] <;> rfl

theorem failsWith_of_loadPlan {s : State} {c : Cause} (h : loadPlan s = .error c) : failsWith .load s c := by
  simp only [failsWith, exec, execLoad, h, completes_def, State.complete_error]

theorem succeedsWith_of_loadPlan {s : State} {p : LoadPlan} (h : loadPlan s = .ok p)
    (hr : regionRefusal s.params p.src p.byteCount = none) :
    succeedsWith .load s
      { s.session with
        slots := putSlot s.session.slots p.slot (decodeFrames s.mem p.src p.byteCount p.width p.channels) } 0#32 := by
  simp only [succeedsWith, exec, execLoad, h, hr]
  rfl

/-! ## Commands on one frame (R204 to R209) -/

theorem withFrame_of_hasFrame {s : State} {snd : Sound} {x : F32} (h : hasFrame s snd x)
    (k : Nat → Nat → Sound → F32 → Except Cause Effect) :
    withFrame s k = k (a0 s).toNat (a1 s).toNat snd x := by
  obtain ⟨hi, h0, h1, hs, hx⟩ := h
  exact withFrame_of_some hi (lookupI_eq_some.mpr ⟨h0, hs⟩) (lookupI_eq_some.mpr ⟨h1, hx⟩)

theorem withFrame_of_no_slot {s : State} (hi : s.session.init = true) (h : outside (a0 s) s.session.slots.length)
    (k : Nat → Nat → Sound → F32 → Except Cause Effect) : withFrame s k = .error .range := by
  have hs : lookupI s.session.slots (opI32 s.latched.arg0) = none := lookupI_eq_none.mpr h
  rw [withFrame, requireInit_of_init hi, hs]

theorem withFrame_of_no_frame {s : State} {snd : Sound} (hi : s.session.init = true) (h0 : 0 ≤ a0 s)
    (hs : s.session.slots[(a0 s).toNat]? = some snd) (h : outside (a1 s) snd.length)
    (k : Nat → Nat → Sound → F32 → Except Cause Effect) : withFrame s k = .error .range := by
  have hs : lookupI s.session.slots (opI32 s.latched.arg0) = some snd := lookupI_eq_some.mpr ⟨h0, hs⟩
  have hx : lookupI snd (opI32 s.latched.arg1) = none := lookupI_eq_none.mpr h
  simp only [withFrame, requireInit_of_init hi, hs, hx]

/-- The checks of the peeks and pokes fail, or the frame exists and the command continues with it. -/
theorem withFrame_cases (s : State) (k : Nat → Nat → Sound → F32 → Except Cause Effect) :
    (∃ c, withFrame s k = .error c) ∨
      ∃ snd x, hasFrame s snd x ∧ withFrame s k = k (a0 s).toNat (a1 s).toNat snd x := by
  cases hi : s.session.init with
  | false => exact .inl ⟨_, requireInit_of_not_init hi _⟩
  | true =>
    cases hs : lookupI s.session.slots (a0 s) with
    | none => exact .inl ⟨_, withFrame_of_no_slot hi (lookupI_eq_none.mp hs) k⟩
    | some snd =>
      obtain ⟨h0, hs⟩ := lookupI_eq_some.mp hs
      cases hx : lookupI snd (a1 s) with
      | none => exact .inl ⟨_, withFrame_of_no_frame hi h0 hs (lookupI_eq_none.mp hx) k⟩
      | some x =>
        obtain ⟨h1, hx⟩ := lookupI_eq_some.mp hx
        have hframe : hasFrame s snd x := ⟨hi, h0, h1, hs, hx⟩
        exact .inr ⟨snd, x, hframe, withFrame_of_hasFrame hframe k⟩

/-- How a command with the checks of R204 fails. -/
theorem frameChecks_fail {i : Instr} {s : State} {k : Nat → Nat → Sound → F32 → Except Cause Effect}
    (hx : exec i s = completes s (withFrame s k)) :
    (s.session.init = false → failsWith i s .state) ∧
      (s.session.init = true → outside (a0 s) s.session.slots.length → failsWith i s .range) ∧
      ∀ snd, s.session.init = true → 0 ≤ a0 s → s.session.slots[(a0 s).toNat]? = some snd →
        outside (a1 s) snd.length → failsWith i s .range :=
  ⟨failsWith_state_of_requireInit hx, fun hi h => failsWith_of_error hx (withFrame_of_no_slot hi h k),
    fun _ hi h0 hs h => failsWith_of_error hx (withFrame_of_no_frame hi h0 hs h k)⟩

/-- How a command with the checks of R204 succeeds: its continuation gives the session and the result. -/
theorem succeedsWith_of_hasFrame {i : Instr} {s : State} {k : Nat → Nat → Sound → F32 → Except Cause Effect}
    (hx : exec i s = completes s (withFrame s k)) {snd : Sound} {x : F32} (h : hasFrame s snd x) {S : Session} {r : Word}
    (hk : k (a0 s).toNat (a1 s).toNat snd x = become s S r) : succeedsWith i s S r :=
  succeedsWith_of_become hx ((withFrame_of_hasFrame h k).trans hk)

/-! ## What the SoundBank commands leave unchanged (R210) -/

/-- From `s` to `t` the session differs at most in the slot table, there only in the slot that `ARG0` names and in new
ones, and host memory is the same. -/
structure SlotFrame (s t : State) : Prop where
  session : t.session = { s.session with slots := t.session.slots }
  mem : t.mem = s.mem
  others : ∀ k : Nat, (k : Int) ≠ a0 s → k < s.session.slots.length → t.session.slots[k]? = s.session.slots[k]?

theorem slotFrame_fail (s : State) (c : Cause) : SlotFrame s (s.fail c) := ⟨rfl, rfl, fun _ _ _ => rfl⟩

/-- Nothing but the slot that `ARG0` names changes when a slot is put there. -/
theorem slotFrame_putSlot {s : State} {n : Nat} (hn : (n : Int) = a0 s) (new : Sound) (r : Word) :
    SlotFrame s (s.succeed ⟨{ s.session with slots := putSlot s.session.slots n new }, s.mem, r⟩) :=
  ⟨rfl, rfl, fun _ hk hlt => putSlot_getElem?_ne (by omega) hlt new⟩

theorem slotFrame_answer (s : State) (r : Word) : SlotFrame s (s.complete (answer s r)) :=
  ⟨rfl, rfl, fun _ _ _ => rfl⟩

theorem slotFrame_setFrame {s : State} {snd : Sound} {x : F32} (h : hasFrame s snd x) (y : F32) :
    SlotFrame s (s.complete (setFrame s (a0 s).toNat (a1 s).toNat snd y)) := by
  obtain ⟨-, h0, -, hs, -⟩ := h
  obtain ⟨hlt, -⟩ := List.getElem?_eq_some_iff.mp hs
  have hput := slotFrame_putSlot (Int.toNat_of_nonneg h0) (snd.set (a1 s).toNat y) resNone
  rwa [putSlot, if_pos hlt] at hput

theorem slotFrame_withFrame {s t : State} {k : Nat → Nat → Sound → F32 → Except Cause Effect}
    (h : completes s (withFrame s k) = .next t)
    (hk : ∀ snd x, hasFrame s snd x → SlotFrame s (s.complete (k (a0 s).toNat (a1 s).toNat snd x))) : SlotFrame s t := by
  cases h
  obtain ⟨c, hc⟩ | ⟨snd, x, hframe, hrun⟩ := withFrame_cases s k
  · rw [hc]
    exact slotFrame_fail s c
  · rw [hrun]
    exact hk snd x hframe

theorem slotFrame_load {s t : State} (h : exec .load s = .next t) : SlotFrame s t := by
  simp only [exec, execLoad] at h
  split at h
  · cases h
    exact slotFrame_fail s _
  · rename_i p hp
    obtain ⟨-, -, -, -, -, hslot, -⟩ := loadPlan_ok hp
    split at h
    · cases h
    · cases h
      exact slotFrame_putSlot hslot _ _

end Sys2Proof.Machine

namespace Sys2Proof.Claims

open Sys2Proof.Machine

/-- Settles O11, one check of `LOAD` after the other. -/
theorem loadReplacesASlot : Obligations.LoadReplacesASlot := by
  intro s
  refine ⟨fun hi => failsWith_of_loadPlan (loadPlan_of_not_init hi), fun hi => ?_⟩
  have hplan := loadPlan_of_init hi
  refine ⟨fun h0 => failsWith_of_loadPlan ?_, fun h0 hmax => failsWith_of_loadPlan ?_, fun h0 hmax => ?_⟩
  · rw [hplan, if_pos h0]
  · rw [hplan, if_neg (by omega), if_pos hmax]
  rw [if_neg (by omega), if_neg (by omega)] at hplan
  refine ⟨fun h1 h2 h4 => failsWith_of_loadPlan ?_, fun w hw => ?_⟩
  · rw [hplan, sampleWidth_eq_none h1 h2 h4, Option.elim_none]
  rw [hw, sampleWidth_bytes, Option.elim_some, loadPlanOfWidth] at hplan
  refine ⟨fun hch => failsWith_of_loadPlan ?_, fun hch hn => failsWith_of_loadPlan ?_,
    fun hch hn hsrc => failsWith_of_loadPlan ?_, fun hch hn hsrc => ?_⟩
  · rw [hplan, if_pos hch]
  · rw [hplan, if_neg (by omega), if_pos hn]
  · rw [hplan, if_neg (by omega), if_neg (by omega), if_pos hsrc]
  rw [if_neg (by omega), if_neg (by omega), if_neg hsrc] at hplan
  refine ⟨fun hmem => failsWith_of_loadPlan ?_, ?_⟩
  · rw [hplan, if_pos hmem]
  rintro hmem _ _ rfl rfl
  rw [if_neg (by omega), slotFrames_eq_ite] at hplan
  refine ⟨fun hcap => failsWith_of_loadPlan ?_, ?_⟩
  · rw [hplan, if_pos hcap]
  rintro hcap hregion _ rfl
  rw [if_neg (by omega)] at hplan
  exact succeedsWith_of_loadPlan hplan hregion

/-- Settles O15: a sample is exact, and the peek multiplies it by the inverse power of two, exactly again. -/
theorem integerSamplesRoundTrip : Obligations.IntegerSamplesRoundTrip := by
  constructor
  · rintro v _ rfl
    obtain ⟨hlo, hhi⟩ := toInt16_mem v
    have hsample := exactly_sample16 v
    exact ⟨hsample.value,
      (hsample.mul_powerOfTwo exactly_twoPow15 (by omega) rfl (by norm_num)).toInt hlo hhi⟩
  · rintro v _ rfl
    obtain ⟨hlo, hhi⟩ := toInt8_mem v
    have hsample := exactly_sample8 v
    exact ⟨hsample.value,
      (hsample.mul_powerOfTwo exactly_oneTwentyEight (by omega) rfl (by norm_num)).toInt hlo hhi⟩

/-- Settles O12: each width reads as its bytes, the integer scalings are exact, and the channel loop is a fold. -/
theorem decodedFramesSumTheirChannels : Obligations.DecodedFramesSumTheirChannels := by
  refine ⟨fun m a => ?_, fun m src n w ch _ => ⟨decodeFrames_length m src n w ch, fun f hf => ?_⟩⟩
  · refine ⟨decodeSample_w8 m a, ?_, decodeSample_w16 m a, ?_, decodeSample_w32 m a⟩
    · rw [decodeSample_w8, (exactly_sample8 _).value]
    · rw [decodeSample_w16, (exactly_sample16 _).value]
  · rw [decodeFrames_getElem? m src hf, decodeFrame, addChannels_eq_foldl]
    simp only [Nat.add_mul, Nat.add_zero, Nat.add_assoc]

/-- Settles O16: every SoundBank command fails, answers, or puts the slot that `ARG0` names. -/
theorem soundCommandsLeaveVoicesAlone : Obligations.SoundCommandsLeaveVoicesAlone := by
  intro i s t hi h
  have hframe : SlotFrame s t := by
    cases i <;> cases hi
    case load => exact slotFrame_load h
    case peekf | peeki16 | peeki8 => exact slotFrame_withFrame h fun _ _ _ => slotFrame_answer s _
    case pokef | pokei16 | pokei8 => exact slotFrame_withFrame h fun _ _ hx => slotFrame_setFrame hx _
  exact ⟨hframe.session, hframe.mem, hframe.others⟩

/-- Settles O13: behind the checks of R204 a peek answers the frame, scaled and rounded. -/
theorem peeksAnswerTheFrame : Obligations.PeeksAnswerTheFrame := by
  refine ⟨fun s snd x h => ⟨succeedsWith_of_hasFrame rfl h rfl, succeedsWith_of_hasFrame rfl h rfl,
    succeedsWith_of_hasFrame rfl h rfl⟩, fun s => ?_⟩
  exact List.forall_mem_cons.mpr ⟨frameChecks_fail rfl, List.forall_mem_cons.mpr ⟨frameChecks_fail rfl,
    List.forall_mem_singleton.mpr (frameChecks_fail rfl)⟩⟩

/-- Settles O14: behind the checks of R204 a poke replaces the frame. -/
theorem pokesWriteOneFrame : Obligations.PokesWriteOneFrame := by
  refine ⟨fun s snd x h => ⟨succeedsWith_of_hasFrame rfl h rfl, succeedsWith_of_hasFrame rfl h rfl,
    succeedsWith_of_hasFrame rfl h rfl⟩, fun s => ?_⟩
  exact List.forall_mem_cons.mpr ⟨frameChecks_fail rfl, List.forall_mem_cons.mpr ⟨frameChecks_fail rfl,
    List.forall_mem_singleton.mpr (frameChecks_fail rfl)⟩⟩

end Sys2Proof.Claims
end

section
/-! PROOFS. The statements of 42_gain.md. First the clamped pan as an integer and one gain as a rounded number, for the
exact laws; then the angle and the Horner form of the sine against the real functions, level by level, for the two laws of
accuracy. -/

namespace Sys2Proof.Machine

open Sys2Proof.Claims

/-! ## The clamped pan (R241) -/

theorem f32Val_posOne : f32Val f32PosOne = f32One := by decide +kernel

theorem f32Val_negOne : f32Val f32NegOne = -f32One := by decide +kernel

/-- Clamping between two numbers limits the value. -/
theorem f32Val_clamp {x lo hi : F32} (hx : f32IsNaN x = false) (hlo : f32IsNaN lo = false) (hhi : f32IsNaN hi = false) :
    f32Val (clamp x lo hi) = limit (f32Val x) (f32Val lo) (f32Val hi) := by
  simp only [clamp, limit, f32Lt, f32Gt, hx, hlo, hhi, Bool.not_false, Bool.and_self, Bool.true_and, decide_eq_true_eq,
    Bool.false_eq_true, if_false]
  split
  · rfl
  · split <;> rfl

theorem limit_neg {b : Int} (hb : 0 ≤ b) (v : Int) : limit (-v) (-b) b = -limit v (-b) b := by
  unfold limit
  split
  · rw [if_neg (by omega), if_pos (by omega)]
  · split
    · rw [if_pos (by omega), neg_neg]
    · rw [if_neg (by omega), if_neg (by omega)]

/-- The clamped pan in units of 2^-149: `q` of R241. -/
def panUnits (p : F32) : Int := f32Val (clamp p f32NegOne f32PosOne)

theorem gainFn_eq (p : F32) :
    gainFn p = (gainSide ((f32One : Int) - panUnits p).toNat, gainSide ((f32One : Int) + panUnits p).toNat) := rfl

theorem panUnits_of_not_nan {p : F32} (h : f32IsNaN p = false) : panUnits p = limit (f32Val p) (-f32One) f32One := by
  rw [panUnits, f32Val_clamp h (by decide) (by decide), f32Val_negOne, f32Val_posOne]

theorem panUnits_of_nan {p : F32} (h : f32IsNaN p = true) : panUnits p = -f32One := by
  rw [panUnits, clamp_of_nan h, f32Val_negOne]

theorem panUnits_mem (p : F32) : -(f32One : Int) ≤ panUnits p ∧ panUnits p ≤ f32One := by
  cases h : f32IsNaN p
  · rw [panUnits_of_not_nan h]
    exact limit_mem (by omega) _
  · rw [panUnits_of_nan h]
    omega

theorem panUnits_neg {p : F32} (h : f32IsNaN p = false) : panUnits (f32Neg p) = -panUnits p := by
  rw [panUnits_of_not_nan h, panUnits_of_not_nan (by rwa [f32IsNaN_neg]), f32Val_neg, limit_neg (by omega)]

/-- The left gain at `q` is the right gain at `-q` (R243 law 4). -/
theorem gainFn_neg {p : F32} (h : f32IsNaN p = false) : gainFn (f32Neg p) = ((gainFn p).2, (gainFn p).1) := by
  simp only [gainFn_eq, panUnits_neg h, sub_neg_eq_add, ← sub_eq_add_neg]

theorem gainFn_negOne : gainFn f32NegOne = (f32PosOne, f32Zero) := by decide +kernel

/-- The other end is the mirror image. -/
theorem gainFn_posOne : gainFn f32PosOne = (f32Zero, f32PosOne) := by
  have hneg : f32Neg f32NegOne = f32PosOne := by decide
  calc gainFn f32PosOne = gainFn (f32Neg f32NegOne) := by rw [hneg]
    _ = (f32Zero, f32PosOne) := by rw [gainFn_neg (by decide), gainFn_negOne]

/-- A NaN pan is the pan -1.0 (00_scope.md R15). -/
theorem gainFn_of_nan {p : F32} (h : f32IsNaN p = true) : gainFn p = (f32PosOne, f32Zero) := by
  rw [← gainFn_clamp, clamp_of_nan h, gainFn_negOne]

/-! ## One gain as a rounded number -/

theorem sinQuarter_le (t : Nat) : sinQuarter t ≤ 2 ^ 192 := min_le_right _ _

theorem sinQuarter_mul_le (t : Nat) : sinQuarter t * f32One ≤ f32One * 2 ^ 192 := by
  rw [Nat.mul_comm]
  exact Nat.mul_le_mul_left _ (sinQuarter_le t)

theorem f32Val_gainSide (t : Nat) :
    f32Val (gainSide t) = magOfBits (roundMag (sinQuarter t * f32One) (2 ^ 192)) := by
  simp [f32Val, gainSide, f32Mag_round]

/-- A quotient of at most 1.0 does not round above 1.0. -/
theorem roundMag_le_one {n d : Nat} (hd : 0 < d) (h : n ≤ f32One * d) : roundMag n d ≤ 0x3F800000 :=
  roundMag_le hd (by rwa [magOfBits_one])

/-- A gain is a number without a sign, at most 1.0 (R243 law 3). -/
theorem gainSide_mem (t : Nat) :
    f32IsNaN (gainSide t) = false ∧ f32Sign (gainSide t) = false ∧ f32Val (gainSide t) ≤ f32One := by
  refine ⟨f32IsNaN_round _ _ _, f32Sign_round _ _ _, ?_⟩
  rw [f32Val_gainSide, ← magOfBits_one]
  exact_mod_cast magOfBits_strictMono.monotone (roundMag_le_one (by positivity) (sinQuarter_mul_le t))

/-- Up to the pattern of 1.0 the next pattern is at most 2^-23 away. -/
theorem magOfBits_succ_le {p : Nat} (hp : p ≤ 0x3F800000) : magOfBits (p + 1) ≤ magOfBits p + 2 ^ 126 := by
  obtain ⟨k, m, rfl, h1, h2⟩ := bits_pack p
  rw [Nat.add_assoc, magOfBits_pack h1 h2.le, magOfBits_pack (by omega) (by omega), Nat.succ_mul]
  exact Nat.add_le_add_left (Nat.pow_le_pow_right (by norm_num) (by omega)) _

/-- Rounding a quotient of at most 1.0 moves it by at most half the distance of two patterns, here 2^-24. -/
theorem roundMag_distance_le {n d : Nat} (hd : 0 < d) (h : n ≤ f32One * d) :
    ((magOfBits (roundMag n d) * d : Nat) - n : Int).natAbs ≤ 2 ^ 125 * d := by
  have hlt : roundMag n d < 0x7F800000 := (roundMag_le_one hd h).trans_lt (by norm_num)
  obtain ⟨p, hlo, hhi, -⟩ := roundMag_between n d hd
  have hp : p ≤ 0x3F800000 := by
    rw [← magOfBits_strictMono.le_iff_le, magOfBits_one]
    exact Nat.le_of_mul_le_mul_right (hlo.trans h) hd
  have hgap : magOfBits (p + 1) * d ≤ magOfBits p * d + 2 * (2 ^ 125 * d) := by
    rw [← Nat.mul_assoc, ← Nat.pow_succ', ← Nat.add_mul]
    exact Nat.mul_le_mul_right d (magOfBits_succ_le hp)
  have hbelow := (roundMag_nearest hd hlt p).1
  have habove := (roundMag_nearest hd hlt (p + 1)).1
  generalize 2 ^ 125 * d = e at hgap ⊢
  omega

theorem roundMag_error {n d : Nat} (hd : 0 < d) (h : n ≤ f32One * d) :
    |(magOfBits (roundMag n d) : ℝ) - n / d| ≤ 2 ^ 125 := by
  have hd' : (0 : ℝ) < d := by exact_mod_cast hd
  have hreal := Nat.cast_le (α := ℝ).mpr (roundMag_distance_le hd h)
  rw [Nat.cast_natAbs, Nat.cast_mul (2 ^ 125), Nat.cast_pow, Nat.cast_ofNat] at hreal
  rw [sub_div' hd'.ne', abs_div, abs_of_pos hd', div_le_iff₀ hd']
  simpa only [Int.cast_abs, Int.cast_sub, Int.cast_mul, Int.cast_natCast, Nat.cast_mul] using hreal

/-! ## Fixed point numbers -/

/-- The real number that `n` stands for in the fixed point of GAIN_FN. -/
noncomputable def fixedReal (n : Nat) : ℝ := (n : ℝ) / 2 ^ 192

theorem fixedReal_nonneg (n : Nat) : 0 ≤ fixedReal n := by unfold fixedReal; positivity

theorem fixedReal_le_one {n : Nat} (h : n ≤ 2 ^ 192) : fixedReal n ≤ 1 := by
  rw [fixedReal, div_le_one (by positivity)]
  exact_mod_cast h

theorem fixedReal_one_sub {n : Nat} (h : n ≤ 2 ^ 192) : fixedReal (2 ^ 192 - n) = 1 - fixedReal n := by
  unfold fixedReal
  rw [Nat.cast_sub h]
  push_cast
  ring

/-- An integer quotient loses less than one unit of the fixed point. -/
theorem fixedReal_div (a b : Nat) :
    fixedReal (a / b) ≤ fixedReal a / b ∧ fixedReal a / b ≤ fixedReal (a / b) + 1 / 2 ^ 192 := by
  have hlo : ((a / b : Nat) : ℝ) ≤ a / b := Nat.cast_div_le
  have hhi : (a : ℝ) / b ≤ (a / b : Nat) + 1 := by
    rw [← Nat.floor_div_eq_div (K := ℝ)]
    exact (Nat.lt_floor_add_one _).le
  unfold fixedReal
  rw [div_right_comm, ← add_div]
  exact ⟨by gcongr, by gcongr⟩

theorem fixedReal_mul (a b : Nat) :
    fixedReal (a * b / 2 ^ 192) ≤ fixedReal a * fixedReal b ∧
      fixedReal a * fixedReal b ≤ fixedReal (a * b / 2 ^ 192) + 1 / 2 ^ 192 := by
  have hprod : fixedReal (a * b) / (2 ^ 192 : Nat) = fixedReal a * fixedReal b := by
    unfold fixedReal
    push_cast
    ring
  rw [← hprod]
  exact fixedReal_div (a * b) (2 ^ 192)

/-- The gain is within 2^-24 of the fixed point number it rounds. -/
theorem gainSide_rounds (t : Nat) : |realOf (gainSide t) - fixedReal (sinQuarter t)| ≤ 1 / 2 ^ 24 := by
  have h := roundMag_error (by positivity) (sinQuarter_mul_le t)
  have e : realOf (gainSide t) - fixedReal (sinQuarter t) =
      ((magOfBits (roundMag (sinQuarter t * f32One) (2 ^ 192)) : ℝ) -
        (sinQuarter t * f32One : Nat) / (2 ^ 192 : Nat)) / 2 ^ 149 := by
    rw [realOf, f32Val_gainSide, fixedReal, f32One]
    push_cast
    ring
  rw [e, abs_div, abs_of_pos (by positivity : (0 : ℝ) < 2 ^ 149), div_le_iff₀ (by positivity)]
  exact h.trans (by norm_num)

/-! ## The sine series, cut off before a term -/

/-- Term `j` of the sine series. -/
noncomputable def sinTerm (z : ℝ) (j : Nat) : ℝ := (-1) ^ j * z ^ (2 * j + 1) / (2 * j + 1).factorial

/-- What the sine series adds from term `j` on. -/
noncomputable def sinTail (z : ℝ) (j : Nat) : ℝ := Real.sin z - ∑ i ∈ Finset.range j, sinTerm z i

theorem sinTerm_zero (z : ℝ) : sinTerm z 0 = z := by simp [sinTerm]

theorem sinTail_zero (z : ℝ) : sinTail z 0 = Real.sin z := by simp [sinTail]

theorem sinTail_eq_add (z : ℝ) (j : Nat) : sinTail z j = sinTerm z j + sinTail z (j + 1) := by
  rw [sinTail, sinTail, Finset.sum_range_succ]
  ring

/-- What level `j + 1` of the Horner form divides by. -/
def sinDivisor (j : Nat) : Nat := (2 * (j + 1)) * (2 * (j + 1) + 1)

theorem six_le_sinDivisor (j : Nat) : 6 ≤ sinDivisor j := by
  unfold sinDivisor
  nlinarith

/-- Each term is the one before it times the factor that the Horner form divides by. -/
theorem sinTerm_succ (z : ℝ) (j : Nat) :
    sinTerm z (j + 1) = -((z ^ 2 / sinDivisor j) * sinTerm z j) := by
  have hfac : (2 * (j + 1) + 1).factorial = sinDivisor j * (2 * j + 1).factorial := by
    rw [sinDivisor, Nat.factorial_succ, show 2 * (j + 1) = 2 * j + 1 + 1 by ring, Nat.factorial_succ]
    ring
  have hdiv : (sinDivisor j : ℝ) ≠ 0 := by
    exact_mod_cast (by have := six_le_sinDivisor j; omega : sinDivisor j ≠ 0)
  rw [sinTerm, sinTerm, hfac]
  push_cast
  field_simp
  ring

/-- Up to the square root of 3 the terms at least halve. -/
theorem abs_sinTerm_succ_le {z : ℝ} (hz : z ^ 2 ≤ 3) (j : Nat) : |sinTerm z (j + 1)| ≤ |sinTerm z j| / 2 := by
  have hdiv : (6 : ℝ) ≤ sinDivisor j := by exact_mod_cast six_le_sinDivisor j
  have hfactor : z ^ 2 / sinDivisor j ≤ 1 / 2 := by
    rw [div_le_div_iff₀ (by linarith) (by norm_num)]
    linarith
  calc |sinTerm z (j + 1)| = z ^ 2 / sinDivisor j * |sinTerm z j| := by
        rw [sinTerm_succ, abs_neg, abs_mul, abs_of_nonneg (by positivity)]
    _ ≤ 1 / 2 * |sinTerm z j| := by gcongr
    _ = |sinTerm z j| / 2 := by ring

theorem abs_sinTerm_add_le {z : ℝ} (hz : z ^ 2 ≤ 3) (j n : Nat) : |sinTerm z (n + j)| ≤ |sinTerm z j| / 2 ^ n := by
  induction n with
  | zero => simp
  | succ n ih =>
    rw [Nat.add_right_comm, pow_succ, ← div_div]
    exact (abs_sinTerm_succ_le hz _).trans (by gcongr)

/-- The tail is at most twice its first term, by the geometric series. -/
theorem abs_sinTail_le {z : ℝ} (hz : z ^ 2 ≤ 3) (j : Nat) : |sinTail z j| ≤ 2 * |sinTerm z j| := by
  have hsum : HasSum (fun n => sinTerm z (n + j)) (sinTail z j) :=
    (hasSum_nat_add_iff' j).mpr (Real.hasSum_sin z)
  refine hsum.norm_le_of_bounded (hasSum_geometric_two' (2 * |sinTerm z j|)) fun n => ?_
  rw [mul_div_cancel_left₀ _ two_ne_zero]
  exact abs_sinTerm_add_le hz j n

/-! ## The Horner form follows the series -/

theorem sinHorner_le (x2 fuel k : Nat) : sinHorner x2 fuel k ≤ 2 ^ 192 := by
  cases fuel with
  | zero => exact le_rfl
  | succ fuel => exact Nat.sub_le _ _

/-- One level of the Horner form over the reals: the subtraction does not stop at 0, and the division loses one unit. -/
theorem sinHorner_succ {x2 : Nat} (hx2 : x2 ≤ 3 * 2 ^ 192) (fuel j : Nat) :
    |fixedReal (sinHorner x2 (fuel + 1) (j + 1)) -
      (1 - fixedReal x2 / sinDivisor j * fixedReal (sinHorner x2 fuel (j + 2)))|
        ≤ 1 / 2 ^ 192 := by
  set h := sinHorner x2 fuel (j + 2)
  have hdiv := six_le_sinDivisor j
  have hle : x2 * h / (2 ^ 192 * sinDivisor j) ≤ 2 ^ 192 := by
    refine Nat.div_le_of_le_mul ?_
    calc x2 * h ≤ (3 * 2 ^ 192) * 2 ^ 192 := Nat.mul_le_mul hx2 (sinHorner_le _ _ _)
      _ ≤ 2 ^ 192 * sinDivisor j * 2 ^ 192 := by
        rw [Nat.mul_comm (2 ^ 192)]
        gcongr
        omega
  obtain ⟨hlo, hhi⟩ := fixedReal_div (x2 * h) (2 ^ 192 * sinDivisor j)
  have hprod : fixedReal (x2 * h) / (2 ^ 192 * sinDivisor j : Nat) = fixedReal x2 / sinDivisor j * fixedReal h := by
    unfold fixedReal
    push_cast
    ring
  rw [hprod] at hlo hhi
  rw [sinHorner, ← sinDivisor, fixedReal_one_sub hle, abs_le]
  constructor <;> linarith

/-- The same with the exact square of the argument, which the fixed point square misses by at most one unit. -/
theorem sinHorner_succ_sq {z : ℝ} {x2 : Nat} (hz : z ^ 2 ≤ 3) (hlo : fixedReal x2 ≤ z ^ 2)
    (hhi : z ^ 2 ≤ fixedReal x2 + 1 / 2 ^ 192) (fuel j : Nat) :
    |fixedReal (sinHorner x2 (fuel + 1) (j + 1)) - (1 - z ^ 2 / sinDivisor j * fixedReal (sinHorner x2 fuel (j + 2)))|
      ≤ 2 / 2 ^ 192 := by
  have hx2 : x2 ≤ 3 * 2 ^ 192 := by
    have := (div_le_iff₀ (by positivity)).mp (hlo.trans hz)
    exact_mod_cast this
  have hlevel := abs_le.mp (sinHorner_succ hx2 fuel j)
  have hdiv : (6 : ℝ) ≤ sinDivisor j := by exact_mod_cast six_le_sinDivisor j
  have h0 := fixedReal_nonneg (sinHorner x2 fuel (j + 2))
  have h1 := fixedReal_le_one (sinHorner_le x2 fuel (j + 2))
  generalize fixedReal (sinHorner x2 fuel (j + 2)) = h at *
  have hsub := sub_nonneg.mpr hlo
  have hnonneg : 0 ≤ (z ^ 2 - fixedReal x2) / sinDivisor j * h := by positivity
  have hle : (z ^ 2 - fixedReal x2) / sinDivisor j * h ≤ (z ^ 2 - fixedReal x2) * 1 :=
    mul_le_mul (div_le_self hsub (by linarith)) h1 h0 hsub
  rw [sub_div, sub_mul] at hnonneg hle
  rw [abs_le]
  constructor <;> linarith

/-- A Horner value `fuel` levels deep, times the term it starts at, is the tail of the series from there: each level adds
two units of the fixed point and halves the error of the level below it. -/
theorem sinHorner_error {z : ℝ} {x2 : Nat} (hz : z ^ 2 ≤ 3) (hlo : fixedReal x2 ≤ z ^ 2)
    (hhi : z ^ 2 ≤ fixedReal x2 + 1 / 2 ^ 192) (fuel j : Nat) :
    |sinTerm z j * fixedReal (sinHorner x2 fuel (j + 1)) - sinTail z j|
      ≤ |sinTerm z j| * (4 / 2 ^ 192 + 1 / 2 ^ fuel) := by
  induction fuel generalizing j with
  | zero =>
    have hone : fixedReal (sinHorner x2 0 (j + 1)) = 1 := by norm_num [sinHorner, fixedReal]
    rw [hone, sinTail_eq_add, mul_one, sub_add_cancel_left, abs_neg]
    have := abs_sinTail_le hz (j + 1)
    have := abs_sinTerm_succ_le hz j
    have := abs_nonneg (sinTerm z j)
    linarith
  | succ fuel ih =>
    set h := fixedReal (sinHorner x2 fuel (j + 2))
    set h' := fixedReal (sinHorner x2 (fuel + 1) (j + 1))
    have hlevel : |h' - (1 - z ^ 2 / sinDivisor j * h)| ≤ 2 / 2 ^ 192 := sinHorner_succ_sq hz hlo hhi fuel j
    have hsplit : sinTerm z j * h' - sinTail z j =
        sinTerm z j * (h' - (1 - z ^ 2 / sinDivisor j * h)) + (sinTerm z (j + 1) * h - sinTail z (j + 1)) := by
      rw [sinTail_eq_add, sinTerm_succ]
      ring
    calc |sinTerm z j * h' - sinTail z j|
        ≤ |sinTerm z j| * |h' - (1 - z ^ 2 / sinDivisor j * h)| + |sinTerm z (j + 1) * h - sinTail z (j + 1)| := by
          rw [hsplit, ← abs_mul]
          exact abs_add_le _ _
      _ ≤ |sinTerm z j| * (2 / 2 ^ 192) + |sinTerm z (j + 1)| * (4 / 2 ^ 192 + 1 / 2 ^ fuel) := by
          gcongr
          exact ih (j + 1)
      _ ≤ |sinTerm z j| * (2 / 2 ^ 192) + |sinTerm z j| / 2 * (4 / 2 ^ 192 + 1 / 2 ^ fuel) := by
          gcongr
          exact abs_sinTerm_succ_le hz j
      _ = |sinTerm z j| * (4 / 2 ^ 192 + 1 / 2 ^ (fuel + 1)) := by
          rw [pow_succ]
          ring

/-! ## The angle and the sine -/

theorem piQuarter_error : |fixedReal piQuarter - Real.pi / 4| ≤ 1 / 2 ^ 60 := by
  have hlo := Real.pi_gt_d20
  have hhi := Real.pi_lt_d20
  rw [fixedReal, piQuarter, abs_le]
  constructor <;> norm_num at hlo hhi ⊢ <;> linarith

/-- `x` of `sinQuarter`: the angle in fixed point. -/
def angleFixed (t : Nat) : Nat := t * piQuarter / f32One

/-- The sine of `x` in fixed point, by the Horner form. -/
def sinFixed (x : Nat) : Nat := x * sinHorner (x * x / 2 ^ 192) 30 1 / 2 ^ 192

theorem sinQuarter_eq (t : Nat) : sinQuarter t = min (sinFixed (angleFixed t)) (2 ^ 192) := rfl

/-- The angle `t / 2^149 * π / 4` of R241, with `t` the clamped pan plus 1.0. -/
noncomputable def gainAngle (t : Nat) : ℝ := (t : ℝ) / 2 ^ 149 * (Real.pi / 4)

theorem angleFixed_error {t : Nat} (ht : t ≤ 2 * f32One) : |fixedReal (angleFixed t) - gainAngle t| ≤ 1 / 2 ^ 58 := by
  obtain ⟨hlo, hhi⟩ := fixedReal_div (t * piQuarter) f32One
  have hprod : fixedReal (t * piQuarter) / f32One = t / 2 ^ 149 * fixedReal piQuarter := by
    rw [fixedReal, fixedReal, f32One]
    push_cast
    ring
  have ht2 : (t : ℝ) / 2 ^ 149 ≤ 2 := by
    rw [div_le_iff₀ (by positivity)]
    exact_mod_cast ht
  have hpi : |t / 2 ^ 149 * fixedReal piQuarter - gainAngle t| ≤ 2 * (1 / 2 ^ 60) := by
    rw [gainAngle, ← mul_sub, abs_mul, abs_of_nonneg (by positivity)]
    exact mul_le_mul ht2 piQuarter_error (abs_nonneg _) (by norm_num)
  rw [hprod] at hlo hhi
  rw [angleFixed]
  rw [abs_le] at hpi ⊢
  constructor <;> linarith

theorem fixedReal_angleFixed_le {t : Nat} (ht : t ≤ 2 * f32One) : fixedReal (angleFixed t) ≤ 8 / 5 := by
  have hangle : gainAngle t ≤ 2 * (Real.pi / 4) := by
    unfold gainAngle
    gcongr
    rw [div_le_iff₀ (by positivity)]
    exact_mod_cast ht
  have := (abs_le.mp (angleFixed_error ht)).2
  have := Real.pi_lt_d2
  linarith

/-- The fixed point sine is within 2^-28 of the real one. -/
theorem sinFixed_error {x : Nat} (hx : fixedReal x ≤ 8 / 5) :
    |fixedReal (sinFixed x) - Real.sin (fixedReal x)| ≤ 1 / 2 ^ 28 := by
  have h0 := fixedReal_nonneg x
  obtain ⟨hlo, hhi⟩ := fixedReal_mul x x
  rw [← sq (fixedReal x)] at hlo hhi
  have hprod := fixedReal_mul x (sinHorner (x * x / 2 ^ 192) 30 1)
  rw [← sinFixed] at hprod
  have hseries := sinHorner_error (by nlinarith) hlo hhi 30 0
  rw [sinTerm_zero, sinTail_zero, abs_of_nonneg h0] at hseries
  have hsmall : fixedReal x * (4 / 2 ^ 192 + 1 / 2 ^ 30) ≤ 8 / 5 * (4 / 2 ^ 192 + 1 / 2 ^ 30) := by gcongr
  rw [abs_le] at hseries ⊢
  constructor <;> linarith

/-- Cutting an approximation of a sine off at 1 does not take it further away. -/
theorem abs_min_one_sub_sin_le (u x : ℝ) : |min u 1 - Real.sin x| ≤ |u - Real.sin x| := by
  have hsin := Real.sin_le_one x
  rcases le_total u 1 with hu | hu
  · rw [min_eq_left hu]
  · rw [min_eq_right hu, abs_of_nonneg (by linarith), abs_of_nonneg (by linarith)]
    linarith

theorem sinQuarter_error {t : Nat} (ht : t ≤ 2 * f32One) :
    |fixedReal (sinQuarter t) - Real.sin (gainAngle t)| ≤ 1 / 2 ^ 27 := by
  have hmin : fixedReal (sinQuarter t) = min (fixedReal (sinFixed (angleFixed t))) 1 := by
    rw [sinQuarter_eq, fixedReal, Nat.cast_min, ← min_div_div_right (by positivity), ← fixedReal]
    norm_num
  have hsine := abs_le.mp (sinFixed_error (fixedReal_angleFixed_le ht))
  have hangle := abs_le.mp ((Real.abs_sin_sub_sin_le _ _).trans (angleFixed_error ht))
  rw [hmin]
  refine (abs_min_one_sub_sin_le _ _).trans (abs_le.mpr ?_)
  constructor <;> linarith

/-- A gain is the sine of its angle, up to the rounding and far less (R243 law 6). -/
theorem gainSide_error {t : Nat} (ht : t ≤ 2 * f32One) :
    |realOf (gainSide t) - Real.sin (gainAngle t)| ≤ 5 / 2 ^ 26 := by
  have hround := abs_le.mp (gainSide_rounds t)
  have hsine := abs_le.mp (sinQuarter_error ht)
  rw [abs_le]
  constructor <;> linarith

/-! ## The pair -/

/-- The angle θ of R241. -/
noncomputable def panAngle (p : F32) : ℝ := (realOf (clamp p f32NegOne f32PosOne) + 1) * Real.pi / 4

theorem gainAngle_toNat {i : Int} (h : 0 ≤ i) : gainAngle i.toNat = i / 2 ^ 149 * (Real.pi / 4) := by
  rw [gainAngle, ← Int.cast_natCast, Int.toNat_of_nonneg h]

theorem gainAngle_right (p : F32) : gainAngle ((f32One : Int) + panUnits p).toNat = panAngle p := by
  rw [gainAngle_toNat (by have := panUnits_mem p; omega), panAngle, realOf, ← panUnits, f32One]
  push_cast
  ring

theorem gainAngle_left (p : F32) : gainAngle ((f32One : Int) - panUnits p).toNat = Real.pi / 2 - panAngle p := by
  rw [gainAngle_toNat (by have := panUnits_mem p; omega), panAngle, realOf, ← panUnits, f32One]
  push_cast
  ring

theorem gainFn_right_error (p : F32) : |realOf (gainFn p).2 - Real.sin (panAngle p)| ≤ 5 / 2 ^ 26 := by
  obtain ⟨hlo, hhi⟩ := panUnits_mem p
  rw [gainFn_eq, ← gainAngle_right]
  exact gainSide_error (by omega)

theorem gainFn_left_error (p : F32) : |realOf (gainFn p).1 - Real.cos (panAngle p)| ≤ 5 / 2 ^ 26 := by
  obtain ⟨hlo, hhi⟩ := panUnits_mem p
  rw [gainFn_eq, ← Real.sin_pi_div_two_sub, ← gainAngle_left]
  exact gainSide_error (by omega)

theorem abs_sq_sub_sq_le {x c e : ℝ} (h : |x - c| ≤ e) : |x ^ 2 - c ^ 2| ≤ e * (2 * |c| + e) := by
  have hsum : |x + c| ≤ 2 * |c| + e := by
    calc |x + c| = |2 * c + (x - c)| := by ring_nf
      _ ≤ |2 * c| + |x - c| := abs_add_le _ _
      _ ≤ 2 * |c| + e := by rw [abs_mul, abs_two]; gcongr
  rw [sq_sub_sq, abs_mul, mul_comm]
  exact mul_le_mul h hsum (abs_nonneg _) ((abs_nonneg _).trans h)

theorem abs_cos_add_abs_sin_le (θ : ℝ) : |Real.cos θ| + |Real.sin θ| ≤ 3 / 2 := by
  have h := Real.cos_sq_add_sin_sq θ
  rw [← sq_abs (Real.cos θ), ← sq_abs (Real.sin θ)] at h
  nlinarith [sq_nonneg (|Real.cos θ| - |Real.sin θ|)]

/-- Two numbers near the cosine and the sine of one angle have nearly the power 1 (R243 law 5). -/
theorem power_error {l r θ : ℝ} (hl : |l - Real.cos θ| ≤ 5 / 2 ^ 26) (hr : |r - Real.sin θ| ≤ 5 / 2 ^ 26) :
    |l ^ 2 + r ^ 2 - 1| ≤ 1 / 2 ^ 22 := by
  have hc := abs_le.mp (abs_sq_sub_sq_le hl)
  have hs := abs_le.mp (abs_sq_sub_sq_le hr)
  have hone := Real.cos_sq_add_sin_sq θ
  have hsum := abs_cos_add_abs_sin_le θ
  rw [abs_le]
  constructor <;> linarith

end Sys2Proof.Machine

namespace Sys2Proof.Claims

open Sys2Proof.Machine

/-- Settles O26: each gain is the rounded fixed point sine of its angle, and the two angles add to a right one. -/
theorem gainIsAccurateAndPowerPreserving : Obligations.GainIsAccurateAndPowerPreserving := by
  rintro p _ rfl
  have hl := gainFn_left_error p
  have hr := gainFn_right_error p
  exact ⟨hl.trans (by norm_num), hr.trans (by norm_num), power_error hl hr⟩

/-- Settles O25: the exact laws of the clamped pan, of one gain, and of the pair. -/
theorem gainIsAFunctionOfTheClampedPan : Obligations.GainIsAFunctionOfTheClampedPan := by
  refine ⟨fun p => (gainFn_clamp p).symm, by decide +kernel, gainFn_negOne, gainFn_posOne, fun p => ?_,
    fun p => gainFn_neg⟩
  exact List.forall_mem_cons.mpr ⟨gainSide_mem _, List.forall_mem_singleton.mpr (gainSide_mem _)⟩

/-- Settles O24: a NaN pan by the clamp, the other rows by evaluation of the fixed point sine. -/
theorem gainTableIsTheReference : Obligations.GainTableIsTheReference := by
  refine ⟨?_, fun p => gainFn_of_nan, gainFn_negOne, ?_, ?_, ?_, ?_, ?_, ?_, ?_, gainFn_posOne, ?_⟩
  all_goals decide +kernel

end Sys2Proof.Claims
end

section
/-! PROOFS. The statements of 43_voice.md. First what the checks that all eight commands share answer, and what each of the two
kinds of command (queries, and edits of one voice) leaves unchanged; then the values and checks that `SETVFRQ` and `PLAY`
have of their own. -/

namespace Sys2Proof.Machine

open Sys2Proof.Claims

/-! ## Commands on one voice (R260 to R267) -/

theorem withVoice_of_hasVoice {s : State} {v : Voice} (h : hasVoice s v) (k : Nat → Voice → Except Cause Effect) :
    withVoice s k = k (a0 s).toNat v := by
  obtain ⟨hi, h0, hv⟩ := h
  exact withVoice_of_some hi (lookupI_eq_some.mpr ⟨h0, hv⟩)

theorem withVoice_of_outside {s : State} (hi : s.session.init = true)
    (h : outside (a0 s) s.session.voices.length) (k : Nat → Voice → Except Cause Effect) :
    withVoice s k = .error .range :=
  withVoice_of_none hi (lookupI_eq_none.mpr h)

/-- How a command with the checks of the voice commands fails. -/
theorem voiceChecks_fail {i : Instr} {s : State} {k : Nat → Voice → Except Cause Effect}
    (hx : exec i s = completes s (withVoice s k)) :
    (s.session.init = false → failsWith i s .state) ∧
      (s.session.init = true → outside (a0 s) s.session.voices.length → failsWith i s .range) :=
  ⟨failsWith_state_of_requireInit hx, fun hi h => failsWith_of_error hx (withVoice_of_outside hi h k)⟩

/-- How such a command fails behind these checks. -/
theorem failsWith_of_hasVoice {i : Instr} {s : State} {k : Nat → Voice → Except Cause Effect} {v : Voice} {c : Cause}
    (hx : exec i s = completes s (withVoice s k)) (h : hasVoice s v) (hk : k (a0 s).toNat v = .error c) :
    failsWith i s c :=
  failsWith_of_error hx ((withVoice_of_hasVoice h k).trans hk)

/-- How such a command succeeds: its continuation gives the session and the result. -/
theorem succeedsWith_of_hasVoice {i : Instr} {s : State} {k : Nat → Voice → Except Cause Effect} {v : Voice}
    {S : Session} {r : Word} (hx : exec i s = completes s (withVoice s k)) (h : hasVoice s v)
    (hk : k (a0 s).toNat v = become s S r) : succeedsWith i s S r :=
  succeedsWith_of_become hx ((withVoice_of_hasVoice h k).trans hk)

theorem setVoice_eq_become (s : State) (v : Voice) :
    setVoice s (a0 s).toNat v = become s (withVoiceSet s v) 0#32 := rfl

/-! ## What the voice commands leave unchanged (R268) -/

/-- From `s` to `t` the session differs at most in the voice table, there only in the voice that `ARG0` names, and host
memory is the same. -/
structure VoiceFrame (s t : State) : Prop where
  session : t.session = { s.session with voices := t.session.voices }
  mem : t.mem = s.mem
  length : t.session.voices.length = s.session.voices.length
  others : ∀ k : Nat, (k : Int) ≠ a0 s → t.session.voices[k]? = s.session.voices[k]?

theorem voiceFrame_fail (s : State) (c : Cause) : VoiceFrame s (s.fail c) := ⟨rfl, rfl, rfl, fun _ _ => rfl⟩

theorem voiceFrame_answer (s : State) (r : Word) : VoiceFrame s (s.complete (answer s r)) :=
  ⟨rfl, rfl, rfl, fun _ _ => rfl⟩

/-- Nothing but the voice that `ARG0` names changes when a voice is put there. -/
theorem voiceFrame_setVoice {s : State} {v : Voice} (h : hasVoice s v) (v' : Voice) :
    VoiceFrame s (s.complete (setVoice s (a0 s).toNat v')) := by
  obtain ⟨-, h0, -⟩ := h
  exact ⟨rfl, rfl, List.length_set, fun k hk => List.getElem?_set_ne (by omega)⟩

/-- A command with the checks of the voice commands keeps the rest if its continuation does. -/
theorem voiceFrame_withVoice {s t : State} {k : Nat → Voice → Except Cause Effect}
    (h : completes s (withVoice s k) = .next t)
    (hk : ∀ v, hasVoice s v → VoiceFrame s (s.complete (k (a0 s).toNat v))) : VoiceFrame s t := by
  cases h
  cases hr : withVoice s k with
  | error c => exact voiceFrame_fail s c
  | ok e =>
    obtain ⟨hi, _, v, h0, rfl, hv, hrun⟩ := withVoice_ok hr
    have hkeep := hk v ⟨hi, h0, hv⟩
    rwa [show k (a0 s).toNat v = .ok e from hrun] at hkeep

theorem voiceFrame_setvfrq {s t : State} (h : exec .setvfrq s = .next t) : VoiceFrame s t := by
  refine voiceFrame_withVoice h fun v hvoice => ?_
  dsimp only
  split
  · exact voiceFrame_setVoice hvoice _
  · exact voiceFrame_fail s .param

theorem voiceFrame_play {s t : State} (h : exec .play s = .next t) : VoiceFrame s t := by
  refine voiceFrame_withVoice h fun v hvoice => ?_
  split
  · exact voiceFrame_fail s .range
  · exact voiceFrame_setVoice hvoice _

/-! ## Values and checks of `SETVFRQ` and `PLAY` -/

/-- The frequencies that `SETVFRQ` accepts (R265). -/
theorem frequencyOk_iff {hz : F32} :
    frequencyOk hz = true ↔ f32IsNaN hz = false ∧ f32Gt hz 0x00000000#32 = true ∧ hz ≠ 0x7F800000#32 := by
  simp [frequencyOk, f32Zero, f32Inf, and_assoc]

/-- The three ways in which `SETVFRQ` does not accept a frequency. -/
theorem frequencyOk_eq_false_iff {hz : F32} :
    frequencyOk hz = false ↔ f32IsNaN hz = true ∨ f32Gt hz 0x00000000#32 = false ∨ hz = 0x7F800000#32 := by
  rw [← Bool.not_eq_true, frequencyOk_iff]
  simp only [not_and_or, Bool.not_eq_false, Bool.not_eq_true, not_ne_iff]

/-- The sample that `PLAY` pre-fetches (R267). -/
theorem prefetch_eq_ite (snd : Sound) (st : Int) :
    prefetch snd st = if 0 ≤ st ∧ st < snd.length then snd.getD st.toNat 0x00000000#32 else 0x00000000#32 := by
  split
  · rename_i hst
    obtain ⟨h0, hlt⟩ := hst
    have hin : st.toNat < snd.length := by omega
    have hx : lookupI snd st = some snd[st.toNat] := lookupI_eq_some.mpr ⟨h0, List.getElem?_eq_getElem hin⟩
    rw [prefetch, hx, Option.getD_some, List.getD_eq_getElem _ _ hin]
  · have hx : lookupI snd st = none := lookupI_eq_none.mpr (by omega)
    rw [prefetch, hx]
    rfl

end Sys2Proof.Machine

namespace Sys2Proof.Claims

open Sys2Proof.Machine

/-- Settles O23: every voice command fails, answers, or puts the voice that `ARG0` names. -/
theorem voiceCommandsLeaveTheRestAlone : Obligations.VoiceCommandsLeaveTheRestAlone := by
  intro i s t hi h
  have hframe : VoiceFrame s t := by
    cases i <;> cases hi
    case getvvol | getvbal | getvfrq => exact voiceFrame_withVoice h fun _ _ => voiceFrame_answer s _
    case setvvol | setvbal | stop => exact voiceFrame_withVoice h fun _ hv => voiceFrame_setVoice hv _
    case setvfrq => exact voiceFrame_setvfrq h
    case play => exact voiceFrame_play h
  exact ⟨hframe.session, hframe.mem, hframe.length, hframe.others⟩

/-- Settles O17: behind the checks of the voice commands a query answers its field. -/
theorem voiceQueriesAnswer : Obligations.VoiceQueriesAnswer := by
  refine ⟨fun s v h => ⟨succeedsWith_of_hasVoice rfl h rfl, succeedsWith_of_hasVoice rfl h rfl,
    succeedsWith_of_hasVoice rfl h rfl⟩, fun s => ?_⟩
  exact List.forall_mem_cons.mpr ⟨voiceChecks_fail rfl, List.forall_mem_cons.mpr ⟨voiceChecks_fail rfl,
    List.forall_mem_singleton.mpr (voiceChecks_fail rfl)⟩⟩

/-- Settles O18, by the checks of the voice commands. -/
theorem setVoiceVolumeClamps : Obligations.SetVoiceVolumeClamps :=
  ⟨fun s _ h => succeedsWith_of_hasVoice rfl h (setVoice_eq_become s _), fun _ => voiceChecks_fail rfl⟩

/-- Settles O19, by the checks of the voice commands. -/
theorem setVoiceBalanceStoresGains : Obligations.SetVoiceBalanceStoresGains := by
  refine ⟨?_, fun _ => voiceChecks_fail rfl⟩
  rintro s v _ h rfl
  exact succeedsWith_of_hasVoice rfl h (setVoice_eq_become s (balanced v _))

/-- Settles O20: behind the checks of the voice commands, one branch of `SETVFRQ` after the other. -/
theorem setVoiceFrequencyStoresPitch : Obligations.SetVoiceFrequencyStoresPitch := by
  refine ⟨fun s v h => ⟨fun hnan hgt hinf => ?_, fun hbad => ?_⟩, fun _ => voiceChecks_fail rfl⟩
  · exact succeedsWith_of_hasVoice rfl h (if_pos (frequencyOk_iff.mpr ⟨hnan, hgt, hinf⟩))
  · exact failsWith_of_hasVoice rfl h (if_neg (Bool.not_eq_true _ ▸ frequencyOk_eq_false_iff.mpr hbad))

/-- Settles O21, by the checks of the voice commands. -/
theorem stopResetsTheVoice : Obligations.StopResetsTheVoice :=
  ⟨fun s v h => succeedsWith_of_hasVoice rfl h (setVoice_eq_become s (stopped v)), fun _ => voiceChecks_fail rfl⟩

/-- Settles O22: behind the checks of the voice commands, the slot exists or not. -/
theorem playBindsTheVoice : Obligations.PlayBindsTheVoice := by
  refine ⟨?_, fun s => ?_⟩
  · rintro s v snd _ h h1 hsnd rfl
    have hslot : lookupI s.session.slots (opI32 s.latched.arg1) = some snd := lookupI_eq_some.mpr ⟨h1, hsnd⟩
    refine succeedsWith_of_hasVoice rfl h ?_
    simp only [hslot, setVoice_eq_become, ← prefetch_eq_ite]
    rfl
  · obtain ⟨hstate, hrange⟩ := voiceChecks_fail (i := .play) (s := s) rfl
    refine ⟨hstate, hrange, fun v h hout => ?_⟩
    have hslot : lookupI s.session.slots (opI32 s.latched.arg1) = none := lookupI_eq_none.mpr hout
    refine failsWith_of_hasVoice rfl h ?_
    simp only [hslot]

end Sys2Proof.Claims
end

section
/-! PROOFS. The statements of 44_mixer.md. First what a frame reads and writes and what an `UPDATE` that passes its
checks leaves; then each loop as the fold of the pseudocode of R300, the independence of the lanes, and the frames of a
voice at unity pitch. -/

namespace Sys2Proof.Machine

open Sys2Proof.Claims

/-! ## Exact values of the sampler (R311, R315) -/

/-- 1.0 is the unit of multiplication on everything but NaN. -/
theorem f32Mul_one {w : F32} (h : f32IsNaN w = false) : f32Mul w f32PosOne = w := by
  have hsign : f32Sign f32PosOne = false := by decide
  by_cases hinf : f32IsInf w = true
  · rw [f32Mul_inf hinf (by decide), if_neg (by decide +kernel), hsign, Bool.bne_false, ← eq_inf_of_isInf hinf]
  · have hmag : f32Mag f32PosOne = f32One := by decide +kernel
    rw [f32Mul_finite (finite_of_not h (by simpa using hinf)) (by decide), hsign, hmag, Bool.bne_false,
      f32Round_self h f32One_pos]

/-- A finite value less itself is `+0.0`. -/
theorem f32Sub_self {x : F32} (h : f32IsFinite x = true) : f32Sub x x = 0#32 := by
  rw [f32Sub_finite h h, if_pos (Int.sub_self _), if_neg]
  rintro ⟨rfl, h0⟩
  exact absurd h0 (by decide)

/-- The sign of a value that is no zero. -/
theorem decide_f32Val_neg {x : F32} (h : f32Val x ≠ 0) : decide (f32Val x < 0) = f32Sign x := by
  have hmag := f32Val_eq_zero_iff.not.mp h
  rw [f32Val]
  cases f32Sign x
  · simp
  · simp only [if_true, decide_eq_true_eq]; omega

/-- A summand of value 0 changes no finite value but `-0.0`. -/
theorem f32Add_of_val_zero {a z : F32} (ha : f32IsFinite a = true) (hne : a ≠ 0x80000000#32)
    (hz : f32IsFinite z = true) (h0 : f32Val z = 0) : f32Add a z = a := by
  rw [f32Add_finite ha hz, h0, Int.add_zero]
  have hpack := f32Mag_eq_zero_iff (x := a)
  split
  · rename_i hv
    rw [f32Val_eq_zero_iff] at hv
    cases hs : f32Sign a <;> rw [hs] at hpack
    · rw [hpack.mp hv]; rfl
    · exact absurd (hpack.mp hv) hne
  · rename_i hv
    rw [decide_f32Val_neg hv, f32Val_natAbs, ← Nat.mul_one (f32Mag a), f32Round_self (not_nan_of_finite ha) one_pos]

/-- The blend at fraction 0 (R315). -/
theorem blend_at_zero {a d : F32} (ha : f32IsFinite a = true) (hd : f32IsFinite d = true) (hne : a ≠ 0x80000000#32) :
    f32Add a (f32Mul d 0x00000000#32) = a := by
  have hmag : f32Mag 0x00000000#32 = 0 := by decide
  have hprod : f32Mul d 0x00000000#32 = packBits (f32Sign d != f32Sign 0x00000000#32) 0 := by
    have hround : roundMag 0 f32One = 0 := by simpa [magOfBits_zero] using roundMag_exact (a := 0) f32One_pos (by omega)
    rw [f32Mul_finite hd (by decide), hmag, Nat.mul_zero, f32Round_eq_pack, hround]
  rw [hprod]
  refine f32Add_of_val_zero ha hne ?_ (f32Val_eq_zero_iff.mpr ?_)
  · rw [f32IsFinite_eq, packBits_mod (by norm_num)]; rfl
  · rw [f32Mag_pack (by norm_num), magOfBits_zero]

/-- The floor of a frame number is that number. -/
theorem f32FloorSat_fromNat {k : Nat} (h : k ≤ 2 ^ 24) : f32FloorSat (f32FromInt k) = BitVec.ofNat 32 k := by
  have hfin : f32IsFinite (f32FromInt k) = true := f32IsFinite_fromInt (by omega)
  have hval : f32Val (f32FromInt k) = k * f32One := by
    rw [f32Val_fromInt (by omega), f32One, Nat.cast_pow, Nat.cast_ofNat]
  have hone : (f32One : Int) ≠ 0 := by exact_mod_cast f32One_pos.ne'
  rw [f32FloorSat, if_neg (by simp [not_nan_of_finite hfin]), hval, Int.mul_ediv_cancel _ hone,
    limit_of_mem (by omega) (by omega), BitVec.ofInt_natCast]

/-- One more than a frame number, up to 24 bits (R318). -/
theorem f32FromInt_add_one {k : Nat} (h : k < 2 ^ 24) :
    f32Add (f32FromInt k) f32PosOne = f32FromInt ((k + 1 : Nat) : Int) := by
  have hfin : f32IsFinite (f32FromInt k) = true := f32IsFinite_fromInt (by omega)
  have hsum : f32Val (f32FromInt k) + f32Val f32PosOne = ((k + 1) * f32One : Nat) := by
    rw [f32Val_fromInt (by omega), f32Val_posOne, f32One]; push_cast; ring
  have hpos : 0 < (k + 1) * f32One := Nat.mul_pos (by omega) f32One_pos
  rw [f32Add_finite hfin (by decide), hsum, if_neg (by omega), f32FromInt, Int.natAbs_natCast, Int.natAbs_natCast,
    decide_eq_false (by omega), decide_eq_false (by omega)]

theorem toInt_ofNat_frame {k : Nat} (h : k ≤ 2 ^ 24) : (BitVec.ofNat 32 k).toInt = k := by
  rw [BitVec.toInt_ofNat', Int.bmod_eq_of_le] <;> omega

/-! ## One frame (R303 to R308) -/

/-- Voice `v` goes on at the top of a frame (R303, R304), and `u` is what the fetch (R306) makes of it. -/
def PlaysFrame (snd : Sound) (v u : Voice) : Prop := (frameStart v).map (fetch snd) = some u

theorem mixVoice_of_playsFrame {snd : Sound} {v u : Voice} (h : PlaysFrame snd v u) (buf n i : Nat) (m : Memory) :
    mixVoice snd buf (n + 1) i v m = mixVoice snd buf n (i + 1) (advance u) (accumulate u (buf + 8 * i) m) := by
  obtain ⟨v1, hv1, rfl⟩ := Option.map_eq_some_iff.mp h
  rw [mixVoice_succ, hv1]

theorem mixVoice_of_ended {v : Voice} (h : frameStart v = none) (snd : Sound) (buf n i : Nat) (m : Memory) :
    mixVoice snd buf (n + 1) i v m = ({ v with sound := none }, m) := by
  rw [mixVoice_succ, h]

theorem frameStart_of_not_past {v : Voice} (h : f32Gt v.pos v.rend = false) : frameStart v = some v := by
  simp [frameStart, h]

theorem frameStart_of_loop {v : Voice} (h : f32Gt v.pos v.rend = true) (hm : v.mode = .loop) :
    frameStart v = some { v with pos := f32Add v.rstart (f32Sub v.pos v.rend) } := by
  simp [frameStart, h, hm]

theorem frameStart_of_single {v : Voice} (h : f32Gt v.pos v.rend = true) (hm : v.mode = .single) :
    frameStart v = none := by
  simp [frameStart, h, hm]

theorem fetch_same {snd : Sound} {v : Voice} (h : f32FloorSat v.pos = v.ipos) : fetch snd v = v := if_pos h

theorem fetch_new {v : Voice} (h : f32FloorSat v.pos ≠ v.ipos) (snd : Sound) :
    fetch snd v = { v with
      prev := v.cur, ipos := f32FloorSat v.pos, cur := (lookupI snd (f32FloorSat v.pos).toInt).getD v.cur } := if_neg h

theorem lookupI_natCast {α : Type} (l : List α) (k : Nat) : lookupI l k = l[k]? := by
  rw [lookupI, if_neg (by omega), Int.toNat_natCast]

theorem lookupI_getD (snd : Sound) (i : Int) (x : F32) :
    (lookupI snd i).getD x = if 0 ≤ i ∧ i < snd.length then snd.getD i.toNat x else x := by
  split
  · rename_i hi
    obtain ⟨k, rfl⟩ := Int.eq_ofNat_of_zero_le hi.1
    rw [lookupI_natCast, Int.toNat_natCast, List.getD_eq_getElem?_getD]
  · rw [lookupI_eq_none.mpr (by omega), Option.getD_none]

theorem addLane_read_same {m : Memory} (h : Memory.wf m = true) (a : Nat) (x : F32) :
    Memory.read (addLane m a x) a .w32 = f32Add (Memory.read m a .w32) x := Memory.read_write_same h _ _

theorem addLane_read_other {m : Memory} (h : Memory.wf m = true) {a b : Nat} (x : F32) (hd : b + 4 ≤ a ∨ a + 4 ≤ b) :
    Memory.read (addLane m a x) b .w32 = Memory.read m b .w32 := Memory.read_write_other h _ hd

theorem accumulate_read_left {m : Memory} (h : Memory.wf m = true) (v : Voice) (a : Nat) :
    Memory.read (accumulate v a m) a .w32 =
      f32Add (Memory.read m a .w32) (f32Mul (f32Mul (interpolate v) v.vol) v.gl) := by
  rw [accumulate, addLane_read_other (addLane_wf h _ _) _ (by omega), addLane_read_same h]

theorem accumulate_read_right {m : Memory} (h : Memory.wf m = true) (v : Voice) (a : Nat) :
    Memory.read (accumulate v a m) (a + 4) .w32 =
      f32Add (Memory.read m (a + 4) .w32) (f32Mul (f32Mul (interpolate v) v.vol) v.gr) := by
  rw [accumulate, addLane_read_same (addLane_wf h _ _), addLane_read_other h _ (by omega)]

/-! ## The voices that are mixed (R302) -/

/-- A voice is skipped exactly if it is not bound to a slot with frames. -/
theorem activeSound_eq (slots : List Sound) (v : Voice) :
    activeSound slots v =
      v.sound.bind fun k => if (slots.getD k []).length = 0 then none else some (slots.getD k []) := by
  unfold activeSound
  cases v.sound with
  | none => rfl
  | some k =>
    simp only [Option.bind_some, List.getD_eq_getElem?_getD]
    cases slots[k]? with
    | none => rfl
    | some snd => cases snd <;> rfl

theorem mixed_eq_isSome (S : Session) (v : Voice) : mixed S v = (activeSound S.slots v).isSome := by
  rw [activeSound_eq, mixed]
  cases v.sound with
  | none => rfl
  | some k =>
    dsimp only [Option.bind_some]
    cases S.slots.getD k [] <;> rfl

theorem mixTurn_of_skipped {S : Session} {v : Voice} (h : mixed S v = false) (buf n : Nat) (m : Memory) :
    mixTurn S.slots buf n v m = (v, m) := by
  rw [mixed_eq_isSome, Option.isSome_eq_false_iff, Option.isNone_iff_eq_none] at h
  rw [mixTurn, h]

/-- Each voice has its own turn, on the memory that the voices before it leave. -/
theorem mixVoices_getElem? (slots : List Sound) (buf n k : Nat) (vs : List Voice) (m : Memory) :
    ∃ m', (mixVoices slots buf n vs m).voices[k]? = vs[k]?.map fun v => (mixTurn slots buf n v m').1 := by
  induction vs generalizing k m with
  | nil => exact ⟨m, rfl⟩
  | cons v vs ih =>
    rw [mixVoices_cons]
    cases k with
    | zero => exact ⟨m, rfl⟩
    | succ k => simpa using ih k _

theorem mixVoices_active (S : Session) (buf n : Nat) (vs : List Voice) (m : Memory) :
    (mixVoices S.slots buf n vs m).active = vs.countP (mixed S) := by
  induction vs generalizing m with
  | nil => rfl
  | cons v vs ih => rw [mixVoices_cons, List.countP_cons, mixed_eq_isSome, ← ih]

/-- The skipped voices leave no trace in memory. -/
theorem mixVoices_filter_mem (S : Session) (buf n : Nat) (vs : List Voice) (m : Memory) :
    (mixVoices S.slots buf n (vs.filter (mixed S)) m).mem = (mixVoices S.slots buf n vs m).mem := by
  induction vs generalizing m with
  | nil => rfl
  | cons v vs ih =>
    cases h : mixed S v
    · rw [List.filter_cons_of_neg (by simp [h]), ih, mixVoices_cons, mixTurn_of_skipped h]
    · rw [List.filter_cons_of_pos h, mixVoices_cons, mixVoices_cons]
      exact ih _

theorem mixVoices_filter_active (S : Session) (buf n : Nat) (vs : List Voice) (m : Memory) :
    (mixVoices S.slots buf n (vs.filter (mixed S)) m).active = (mixVoices S.slots buf n vs m).active := by
  simp only [mixVoices_active, List.countP_filter, Bool.and_self]

/-! ## The global pass (R310) -/

theorem globalPass_read {m : Memory} (h : Memory.wf m = true) (g : F32) {buf n k j : Nat} (hk : k ≤ j)
    (hj : j < k + n) :
    Memory.read (globalPass g buf n k m) (buf + 4 * j) .w32 = f32Mul (Memory.read m (buf + 4 * j) .w32) g := by
  induction n generalizing k m with
  | zero => omega
  | succ n ih =>
    rw [globalPass]
    rcases Nat.eq_or_lt_of_le hk with rfl | hlt
    · refine Eq.trans (Memory.read_congr fun x _ hx => ?_) (Memory.read_write_same h _ _)
      exact globalPass_read8 (Memory.write_wf h _ _ _) g (by simp only [Width.bytes] at hx; omega)
    · rw [ih (Memory.write_wf h _ _ _) hlt (by omega),
        Memory.read_write_other h _ (by simp only [Width.bytes]; omega)]

/-! ## The command (R300) -/

theorem updatePlan_eq (s : State) : updatePlan s =
    if s.session.init = false then .error .state
    else if s.latched.arg0.toNat = 0 then .error .param
    else if a1 s < 1 then .error .param
    else if s.latched.arg0.toNat % 4 ≠ 0 then .error .param
    else if s.params.hostMemBytes < s.latched.arg0.toNat + 8 * (a1 s).toNat then .error .range
    else .ok ⟨s.latched.arg0.toNat, (a1 s).toNat⟩ := by
  rw [updatePlan]
  cases s.session.init <;> rfl

theorem failsWith_of_updatePlan {s : State} {c : Cause} (h : updatePlan s = .error c) : failsWith .update s c := by
  simp only [failsWith, exec, execUpdate, h, completes_def, State.complete_error]

/-- What the voice loop of an `UPDATE` on the latched arguments leaves. -/
def mixedOf (s : State) : Mixed :=
  mixVoices s.session.slots s.latched.arg0.toNat (a1 s).toNat s.session.voices s.mem

/-- What an `UPDATE` on the latched arguments leaves, if it succeeds. -/
def updated (s : State) : Effect :=
  ⟨{ s.session with voices := (mixedOf s).voices, active := (mixedOf s).active },
    globalPass s.session.gvol s.latched.arg0.toNat (2 * (a1 s).toNat) 0 (mixedOf s).mem, 0#32⟩

theorem updateEffect_of_plan {s : State} {p : UpdatePlan} (h : updatePlan s = .ok p) :
    updateEffect s p = .ok (updated s) := by
  obtain ⟨-, -, -, -, -, hbuf, hframes⟩ := updatePlan_ok h
  have hn : p.frames = (a1 s).toNat := (congrArg Int.toNat hframes :)
  rw [updateEffect, hbuf, hn]
  rfl

/-- What `UPDATE` can do: a next state is the completion that its checks decide. -/
theorem update_next {s t : State} (h : exec .update s = .next t) :
    t = s.complete ((updatePlan s).map fun _ => updated s) := by
  simp only [exec, execUpdate, completes_def] at h
  split at h
  · rename_i c hp
    cases h
    rw [hp]; rfl
  · rename_i p hp
    split at h <;> cases h
    rw [updateEffect_of_plan hp, hp]; rfl

theorem update_next_of_plan {s t : State} {p : UpdatePlan} (h : exec .update s = .next t) (hp : updatePlan s = .ok p) :
    t = s.succeed (updated s) := by
  rw [update_next h, hp]; rfl

theorem update_next_of_error {s t : State} {c : Cause} (h : exec .update s = .next t) (hp : updatePlan s = .error c) :
    t = s.fail c := by
  rw [update_next h, hp]; rfl

/-- An `UPDATE` that reports no error passed its checks. -/
theorem exists_updatePlan {s t : State} (h : exec .update s = .next t) (herr : t.status.err = false) :
    ∃ p, updatePlan s = .ok p := by
  cases hp : updatePlan s with
  | ok p => exact ⟨p, rfl⟩
  | error c => rw [update_next_of_error h hp] at herr; cases herr

/-- An `UPDATE` whose region is allowed succeeds when its checks pass. -/
theorem update_succeeds {s : State} {p : UpdatePlan} (h : updatePlan s = .ok p)
    (hr : regionRefusal s.params p.buf (8 * p.frames) = none) : exec .update s = .next (s.succeed (updated s)) := by
  simp only [exec, execUpdate, h, hr, updateEffect_of_plan h, completes_def, State.complete_ok]

/-! ## The loops as the folds of the pseudocode of R300 -/

theorem pseudoFrame_of_ended {v : Voice} (h : frameStart v = none) (snd : Sound) (buf i : Nat) (m : Memory) :
    pseudoFrame snd buf (v, m, false) i = ({ v with sound := none }, m, true) := by
  rcases frameStart_cases v with ⟨-, hgt⟩ | ⟨e, -⟩ | ⟨e, -⟩
  · simp [pseudoFrame, hgt]
  · rw [e] at h; cases h
  · rw [e] at h; cases h

/-- The fetch as the pseudocode writes it: the three cached fields on their own. -/
theorem fetch_eq (snd : Sound) (v : Voice) :
    fetch snd v = { v with
      prev := if f32FloorSat v.pos ≠ v.ipos then v.cur else v.prev
      ipos := f32FloorSat v.pos
      cur := if f32FloorSat v.pos ≠ v.ipos ∧ 0 ≤ (f32FloorSat v.pos).toInt ∧ (f32FloorSat v.pos).toInt < snd.length
        then snd.getD (f32FloorSat v.pos).toInt.toNat v.cur else v.cur } := by
  by_cases h : f32FloorSat v.pos = v.ipos
  · simp [fetch_same h, h]
  · rw [fetch_new h, lookupI_getD]
    simp [h]

theorem pseudoFrame_of_playsFrame {snd : Sound} {v u : Voice} (h : PlaysFrame snd v u) (buf i : Nat) (m : Memory) :
    pseudoFrame snd buf (v, m, false) i = (advance u, accumulate u (buf + 8 * i) m, false) := by
  obtain ⟨v1, hv1, rfl⟩ := Option.map_eq_some_iff.mp h
  rcases frameStart_cases v with ⟨e, -⟩ | ⟨e, hgt⟩ | ⟨e, hgt, hloop⟩ <;> rw [e] at hv1 <;> cases hv1
  · rw [fetch_eq]; simp [pseudoFrame, hgt, advance, accumulate, addLane, interpolate, blend]
  · rw [fetch_eq]; simp [pseudoFrame, hgt, hloop, advance, accumulate, addLane, interpolate, blend]

/-- After `break` the frame loop does nothing more. -/
theorem foldl_pseudoFrame_broken (snd : Sound) (buf : Nat) (is : List Nat) (v : Voice) (m : Memory) :
    is.foldl (pseudoFrame snd buf) (v, m, true) = (v, m, true) := by
  induction is with
  | nil => rfl
  | cons i is ih => exact ih

theorem foldl_pseudoFrame (snd : Sound) (buf n i : Nat) (v : Voice) (m : Memory) :
    ∃ broken, (List.range' i n).foldl (pseudoFrame snd buf) (v, m, false) =
      ((mixVoice snd buf n i v m).1, (mixVoice snd buf n i v m).2, broken) := by
  induction n generalizing i v m with
  | zero => exact ⟨false, rfl⟩
  | succ n ih =>
    rw [List.range'_succ, List.foldl_cons]
    cases hs : frameStart v with
    | none =>
      rw [pseudoFrame_of_ended hs, foldl_pseudoFrame_broken, mixVoice_of_ended hs]
      exact ⟨true, rfl⟩
    | some v1 =>
      have hp : PlaysFrame snd v (fetch snd v1) := by rw [PlaysFrame, hs, Option.map_some]
      rw [pseudoFrame_of_playsFrame hp, mixVoice_of_playsFrame hp]
      exact ih _ _ _

/-- The turn of the voice after those that are `done`. -/
theorem pseudoVoice_next (slots : List Sound) (buf n : Nat) (done vs : List Voice) (v : Voice) (m : Memory) (c : Nat) :
    pseudoVoice slots buf n (done ++ v :: vs, m, c) done.length =
      (done ++ (mixTurn slots buf n v m).1 :: vs, (mixTurn slots buf n v m).2,
        c + if (activeSound slots v).isSome then 1 else 0) := by
  have hget : (done ++ v :: vs)[done.length]? = some v := by simp
  simp only [pseudoVoice, hget, mixTurn, activeSound_eq]
  cases v.sound with
  | none => rfl
  | some k =>
    by_cases hlen : (slots.getD k []).length = 0
    · simp only [Option.bind_some, if_pos hlen]; rfl
    · obtain ⟨broken, hfold⟩ := foldl_pseudoFrame (slots.getD k []) buf n 0 v m
      rw [← List.range_eq_range'] at hfold
      simp only [Option.bind_some, if_neg hlen, hfold]
      simp

theorem foldl_pseudoVoice (slots : List Sound) (buf n : Nat) (done vs : List Voice) (m : Memory) (c : Nat) :
    (List.range' done.length vs.length).foldl (pseudoVoice slots buf n) (done ++ vs, m, c) =
      (done ++ (mixVoices slots buf n vs m).voices, (mixVoices slots buf n vs m).mem,
        c + (mixVoices slots buf n vs m).active) := by
  induction vs generalizing done m c with
  | nil => rfl
  | cons v vs ih =>
    have := ih (done ++ [(mixTurn slots buf n v m).1]) (mixTurn slots buf n v m).2
      (c + if (activeSound slots v).isSome then 1 else 0)
    rw [List.length_cons, List.range'_succ, List.foldl_cons, pseudoVoice_next, mixVoices_cons]
    simpa [Nat.add_assoc, Nat.add_comm] using this

theorem foldl_globalPass (g : F32) (buf n k : Nat) (m : Memory) :
    (List.range' k n).foldl
      (fun m k => Memory.write m (buf + 4 * k) .w32 (f32Mul (Memory.read m (buf + 4 * k) .w32) g)) m =
      globalPass g buf n k m := by
  induction n generalizing k m with
  | zero => rfl
  | succ n ih => rw [List.range'_succ, List.foldl_cons, ih, globalPass]

/-- The pseudocode of R300 leaves what the model's loops leave. -/
theorem pseudoUpdate_eq (s : State) :
    pseudoUpdate s.session s.mem s.latched.arg0.toNat (a1 s).toNat = ((updated s).session, (updated s).mem) := by
  have hvoices := foldl_pseudoVoice s.session.slots s.latched.arg0.toNat (a1 s).toNat [] s.session.voices s.mem 0
  simp only [List.length_nil, List.nil_append, Nat.zero_add] at hvoices
  simp only [pseudoUpdate, List.range_eq_range', hvoices, foldl_globalPass]
  rfl

/-! ## The lanes (R312, R321) -/

theorem mixTurn_voice_indep (slots : List Sound) (buf n : Nat) (v : Voice) (m m' : Memory) :
    (mixTurn slots buf n v m).1 = (mixTurn slots buf n v m').1 := by
  unfold mixTurn
  split
  · rfl
  · exact mixVoice_voice_indep _ _ _ _ _ _ _ _ _

theorem mixVoices_voices_indep (slots : List Sound) (buf n : Nat) (vs : List Voice) (m m' : Memory) :
    (mixVoices slots buf n vs m).voices = (mixVoices slots buf n vs m').voices := by
  induction vs generalizing m m' with
  | nil => rfl
  | cons v vs ih => rw [mixVoices_cons, mixVoices_cons, mixTurn_voice_indep slots buf n v m m', ih]

/-- The words at offset `d` of the `n` frames of the buffer agree in two memories. -/
structure LaneAgrees (buf n d : Nat) (m m' : Memory) : Prop where
  wf : Memory.wf m = true
  wf' : Memory.wf m' = true
  agree : ∀ i, i < n → Memory.read m (buf + 8 * i + d) .w32 = Memory.read m' (buf + 8 * i + d) .w32

section Lanes

variable {buf n d : Nat} {m m' : Memory}

/-- A word of the buffer replaced by a function of itself: it is a word of the lane, or shares no byte with one. -/
theorem LaneAgrees.rewrite (h : LaneAgrees buf n d m m') (hd : d = 0 ∨ d = 4) {a : Nat} (ha : ∃ k, a = buf + 4 * k)
    (f : Word → Word) :
    LaneAgrees buf n d (Memory.write m a .w32 (f (Memory.read m a .w32)))
      (Memory.write m' a .w32 (f (Memory.read m' a .w32))) := by
  refine ⟨Memory.write_wf h.wf _ _ _, Memory.write_wf h.wf' _ _ _, fun i hi => ?_⟩
  by_cases hai : a = buf + 8 * i + d
  · rw [hai, Memory.read_write_same h.wf, Memory.read_write_same h.wf', h.agree i hi]
  · have hapart : buf + 8 * i + d + 4 ≤ a ∨ a + 4 ≤ buf + 8 * i + d := by omega
    rw [Memory.read_write_other h.wf _ hapart, Memory.read_write_other h.wf' _ hapart, h.agree i hi]

theorem LaneAgrees.accumulate (h : LaneAgrees buf n d m m') (hd : d = 0 ∨ d = 4) (v : Voice) (i : Nat) :
    LaneAgrees buf n d (accumulate v (buf + 8 * i) m) (accumulate v (buf + 8 * i) m') :=
  (h.rewrite hd ⟨2 * i, by omega⟩ (f32Add · _)).rewrite hd ⟨2 * i + 1, by omega⟩ (f32Add · _)

theorem LaneAgrees.mixVoice (h : LaneAgrees buf n d m m') (hd : d = 0 ∨ d = 4) (snd : Sound) (count i : Nat)
    (v : Voice) :
    LaneAgrees buf n d (mixVoice snd buf count i v m).2 (mixVoice snd buf count i v m').2 := by
  induction count generalizing i v m m' with
  | zero => exact h
  | succ count ih =>
    rw [mixVoice_succ, mixVoice_succ]
    split
    · exact h
    · exact ih (h.accumulate hd _ _) _ _

theorem LaneAgrees.mixTurn (h : LaneAgrees buf n d m m') (hd : d = 0 ∨ d = 4) (slots : List Sound) (count : Nat)
    (v : Voice) :
    LaneAgrees buf n d (mixTurn slots buf count v m).2 (mixTurn slots buf count v m').2 := by
  unfold Machine.mixTurn
  split
  · exact h
  · exact h.mixVoice hd _ _ _ _

theorem LaneAgrees.mixVoices (h : LaneAgrees buf n d m m') (hd : d = 0 ∨ d = 4) (slots : List Sound) (count : Nat)
    (vs : List Voice) :
    LaneAgrees buf n d (mixVoices slots buf count vs m).mem (mixVoices slots buf count vs m').mem := by
  induction vs generalizing m m' with
  | nil => exact h
  | cons v vs ih => rw [mixVoices_cons, mixVoices_cons]; exact ih (h.mixTurn hd _ _ _)

theorem LaneAgrees.globalPass (h : LaneAgrees buf n d m m') (hd : d = 0 ∨ d = 4) (g : F32) (count k : Nat) :
    LaneAgrees buf n d (globalPass g buf count k m) (globalPass g buf count k m') := by
  induction count generalizing k m m' with
  | zero => exact h
  | succ count ih => exact ih (h.rewrite hd ⟨k, rfl⟩ (f32Mul · g)) _

end Lanes

/-! ## Unity pitch (R315) -/

/-- The frame at `a` holds in `m'` what it holds in `m` and what the voice `u` adds to it (R308). -/
structure AddsOutput (u : Voice) (a : Nat) (m m' : Memory) : Prop where
  left : Memory.read m' a .w32 = f32Add (Memory.read m a .w32) (f32Mul (f32Mul (interpolate u) u.vol) u.gl)
  right : Memory.read m' (a + 4) .w32 =
    f32Add (Memory.read m (a + 4) .w32) (f32Mul (f32Mul (interpolate u) u.vol) u.gr)

theorem addsOutput_accumulate {m : Memory} (h : Memory.wf m = true) (u : Voice) (a : Nat) :
    AddsOutput u a m (accumulate u a m) := ⟨accumulate_read_left h u a, accumulate_read_right h u a⟩

theorem AddsOutput.congr {u : Voice} {a : Nat} {m m' n n' : Memory} (h : AddsOutput u a m m')
    (hn : ∀ x, a ≤ x → x < a + 8 → Memory.read8 n x = Memory.read8 m x)
    (hn' : ∀ x, a ≤ x → x < a + 8 → Memory.read8 n' x = Memory.read8 m' x) : AddsOutput u a n n' := by
  have hword {l l' : Memory} {b : Nat} (hb : a ≤ b ∧ b + 4 ≤ a + 8)
      (hl : ∀ x, a ≤ x → x < a + 8 → Memory.read8 l x = Memory.read8 l' x) :
      Memory.read l b .w32 = Memory.read l' b .w32 :=
    Memory.read_congr fun x h1 h2 => hl x (by omega) (by simp only [Width.bytes] at h2; omega)
  constructor
  · rw [hword (by omega) hn, hword (by omega) hn', h.left]
  · rw [hword (by omega) hn, hword (by omega) hn', h.right]

/-- The voice at the top of frame `j`, when it is `v` at the top of frame 0 and `u k` after the fetch of frame `k`. -/
def entering (v : Voice) (u : Nat → Voice) : Nat → Voice
  | 0 => v
  | j + 1 => advance (u j)

/-- A voice that plays every frame adds its output to each of them. -/
theorem mixVoice_of_course {snd : Sound} {v : Voice} {u : Nat → Voice} (buf n i : Nat) {m : Memory}
    (hm : Memory.wf m = true) (h : ∀ j, i ≤ j → j < i + n → PlaysFrame snd (entering v u j) (u j)) :
    (mixVoice snd buf n i (entering v u i) m).1 = entering v u (i + n) ∧
    ∀ j, i ≤ j → j < i + n → AddsOutput (u j) (buf + 8 * j) m (mixVoice snd buf n i (entering v u i) m).2 := by
  induction n generalizing i m with
  | zero => exact ⟨rfl, fun j _ _ => by omega⟩
  | succ n ih =>
    have hacc := accumulate_wf hm (u i) (buf + 8 * i)
    obtain ⟨hvoice, hadds⟩ := ih (i + 1) hacc fun j _ _ => h j (by omega) (by omega)
    rw [mixVoice_of_playsFrame (h i le_rfl (by omega)), show i + (n + 1) = i + 1 + n by omega]
    refine ⟨hvoice, fun j hij hj => ?_⟩
    rcases Nat.eq_or_lt_of_le hij with rfl | hlt
    · exact (addsOutput_accumulate hm _ _).congr (fun _ _ _ => rfl) fun x _ _ => mixVoice_read8 hacc _ _ (by omega)
    · exact (hadds j hlt hj).congr (fun x _ _ => (accumulate_read8 hm _ (by omega)).symm) fun _ _ _ => rfl

/-- The voice `v` at another position, with another cache (R306). -/
def Voice.cached (v : Voice) (pos : F32) (ipos : I32) (cur prev : F32) : Voice :=
  { v with pos := pos, ipos := ipos, cur := cur, prev := prev }

section Cached

variable (v : Voice) (pos : F32) (ipos : I32) (cur prev : F32)

theorem Voice.cached_self : v.cached v.pos v.ipos v.cur v.prev = v := rfl

theorem Voice.kept_cached : v.Kept (v.cached pos ipos cur prev) :=
  ⟨rfl, rfl, rfl, rfl, rfl, rfl, rfl, rfl, rfl, .inl rfl⟩

theorem advance_cached : advance (v.cached pos ipos cur prev) = v.cached (f32Add pos v.pitch) ipos cur prev := rfl

theorem interpolate_cached : interpolate (v.cached pos ipos cur prev) =
    f32Add prev (f32Mul (f32Sub cur prev) (f32Sub pos (f32FromInt (f32FloorSat pos).toInt))) := rfl

variable {v pos ipos cur prev}

theorem frameStart_cached (hend : f32Gt pos v.rend = false) :
    frameStart (v.cached pos ipos cur prev) = some (v.cached pos ipos cur prev) := frameStart_of_not_past hend

theorem playsFrame_cached_same (hend : f32Gt pos v.rend = false) (h : f32FloorSat pos = ipos) (snd : Sound) :
    PlaysFrame snd (v.cached pos ipos cur prev) (v.cached pos ipos cur prev) := by
  have hfetch : fetch snd (v.cached pos ipos cur prev) = v.cached pos ipos cur prev := fetch_same h
  rw [PlaysFrame, frameStart_cached hend, Option.map_some, hfetch]

theorem playsFrame_cached_new (hend : f32Gt pos v.rend = false) (h : f32FloorSat pos ≠ ipos) (snd : Sound) :
    PlaysFrame snd (v.cached pos ipos cur prev)
      (v.cached pos (f32FloorSat pos) ((lookupI snd (f32FloorSat pos).toInt).getD cur) cur) := by
  have hfetch : fetch snd (v.cached pos ipos cur prev) =
      v.cached pos (f32FloorSat pos) ((lookupI snd (f32FloorSat pos).toInt).getD cur) cur :=
    fetch_new (v := v.cached pos ipos cur prev) h snd
  rw [PlaysFrame, frameStart_cached hend, Option.map_some, hfetch]

end Cached

/-- The voice `v`, started at frame `st` with pitch-step 1.0, after the fetch of frame `i` of the buffer. -/
def unityVoice (snd : Sound) (st : Nat) (v : Voice) (i : Nat) : Voice :=
  v.cached (f32FromInt ((st + i : Nat) : Int)) (BitVec.ofNat 32 (st + i))
    (snd.getD (st + i) (snd.getD (st + (i - 1)) 0#32)) (snd.getD (st + (i - 1)) 0#32)

/-- Inside a sound the default value of an access does not matter. -/
theorem getD_inside {snd : Sound} {k : Nat} (h : k < snd.length) (x y : F32) : snd.getD k x = snd.getD k y := by
  rw [List.getD_eq_getElem _ _ h, List.getD_eq_getElem _ _ h]

/-- `PLAY` leaves a voice as if frame 0 had been fetched (R267). -/
theorem unityVoice_zero {snd : Sound} {st : Nat} {v : Voice} (hpos : v.pos = f32FromInt st)
    (hipos : v.ipos = BitVec.ofNat 32 st) (hcur : snd[st]? = some v.cur) (hprev : v.prev = v.cur) :
    unityVoice snd st v 0 = v := by
  have hget (x : F32) : snd.getD st x = v.cur := by rw [List.getD_eq_getElem?_getD, hcur, Option.getD_some]
  have hself := v.cached_self
  rw [hpos, hipos, hprev] at hself
  rwa [unityVoice, Nat.zero_sub, Nat.add_zero, hget, hget]

theorem advance_unityVoice {snd : Sound} {st i : Nat} {v : Voice} (hpitch : v.pitch = f32PosOne)
    (h : st + i < 2 ^ 24) : advance (unityVoice snd st v i) =
      v.cached (f32FromInt ((st + (i + 1) : Nat) : Int)) (BitVec.ofNat 32 (st + i))
        (snd.getD (st + i) (snd.getD (st + (i - 1)) 0#32)) (snd.getD (st + (i - 1)) 0#32) := by
  rw [unityVoice, advance_cached, hpitch, f32FromInt_add_one h, Nat.add_assoc]

theorem interpolate_unityVoice {snd : Sound} {st i : Nat} (v : Voice) (h : st + i ≤ 2 ^ 24) :
    interpolate (unityVoice snd st v i) =
      f32Add (snd.getD (st + (i - 1)) 0#32)
        (f32Mul (f32Sub (snd.getD (st + i) (snd.getD (st + (i - 1)) 0#32)) (snd.getD (st + (i - 1)) 0#32))
          0x00000000#32) := by
  rw [unityVoice, interpolate_cached, f32FloorSat_fromNat h, toInt_ofNat_frame h,
    f32Sub_self (f32IsFinite_fromInt (by omega))]

/-- The next frame fetches: the sample that was current is the one before it. -/
theorem unityVoice_playsFrame_succ {snd : Sound} {st i : Nat} {v : Voice} (hpitch : v.pitch = f32PosOne)
    (hbits : st + (i + 1) ≤ 2 ^ 24) (hin : st + i < snd.length)
    (hend : f32Gt (f32FromInt ((st + (i + 1) : Nat) : Int)) v.rend = false) :
    PlaysFrame snd (advance (unityVoice snd st v i)) (unityVoice snd st v (i + 1)) := by
  have hfloor := f32FloorSat_fromNat hbits
  have hnew : f32FloorSat (f32FromInt ((st + (i + 1) : Nat) : Int)) ≠ BitVec.ofNat 32 (st + i) := by
    rw [hfloor, ne_eq, ← BitVec.toNat_inj, BitVec.toNat_ofNat, BitVec.toNat_ofNat]
    omega
  have hplays := playsFrame_cached_new (cur := snd.getD (st + i) (snd.getD (st + (i - 1)) 0#32))
    (prev := snd.getD (st + (i - 1)) 0#32) hend hnew snd
  rw [hfloor, toInt_ofNat_frame hbits, lookupI_natCast, ← List.getD_eq_getElem?_getD, getD_inside hin _ 0#32] at hplays
  rwa [advance_unityVoice hpitch (by omega), unityVoice, Nat.add_sub_cancel, getD_inside hin _ 0#32]

/-- The frames of a voice at unity pitch, one after the other. -/
theorem unityVoice_playsFrame {snd : Sound} {st n : Nat} {v : Voice} (hlen : st + n ≤ snd.length + 1)
    (hbits : st + n ≤ 2 ^ 24) (hpitch : v.pitch = f32PosOne) (hzero : unityVoice snd st v 0 = v)
    (hend : ∀ i, i < n → f32Gt (f32FromInt ((st + i : Nat) : Int)) v.rend = false) {i : Nat} (hi : i < n) :
    PlaysFrame snd (entering v (unityVoice snd st v) i) (unityVoice snd st v i) := by
  cases i with
  | zero =>
    rw [entering]
    conv => enter [2]; rw [← hzero]
    exact playsFrame_cached_same (hend 0 hi) (f32FloorSat_fromNat (by omega)) snd
  | succ i =>
    rw [entering]
    exact unityVoice_playsFrame_succ hpitch (by omega) (by omega) (hend _ hi)

end Sys2Proof.Machine

namespace Sys2Proof.Claims

open Sys2Proof.Machine

/-- Settles O35: at unity pitch the voice fetches one frame of the sound per frame of the buffer, and the fraction stays
0. -/
theorem unityPitchPlaysOneFrameLate : Obligations.UnityPitchPlaysOneFrameLate := by
  refine ⟨?_, fun a b ha hd hne => blend_at_zero ha hd hne⟩
  intro snd buf n st v m hm hn hlen hbits hpitch hpos hipos hcur hprev hend
  obtain ⟨hvoice, hadds⟩ := mixVoice_of_course (v := v) (u := unityVoice snd st v) buf n 0 hm fun j _ hj =>
    unityVoice_playsFrame hlen hbits hpitch (unityVoice_zero hpos hipos hcur hprev) hend (by omega)
  rw [entering, Nat.zero_add] at hvoice hadds
  constructor
  · obtain ⟨k, rfl⟩ : ∃ k, n = k + 1 := ⟨n - 1, by omega⟩
    have hst : st < snd.length := (List.getElem?_eq_some_iff.mp hcur).1
    have hlast : snd.getD (st + k) (snd.getD (st + (k - 1)) 0#32) =
        snd.getD (st + k) (snd.getD (st + (k + 1) - 2) 0#32) := by
      rcases Nat.eq_zero_or_pos k with rfl | hk
      · exact getD_inside hst _ _
      · rw [show st + (k + 1) - 2 = st + (k - 1) by omega]
    rw [entering, advance_unityVoice hpitch (by omega), hlast] at hvoice
    exact hvoice
  · rintro i hi a b x rfl rfl rfl
    obtain ⟨hleft, hright⟩ := hadds i (by omega) (by omega)
    have hkept : v.Kept (unityVoice snd st v i) := v.kept_cached _ _ _ _
    rw [interpolate_unityVoice v (by omega), hkept.vol] at hleft hright
    rw [hkept.gl] at hleft
    rw [hkept.gr] at hright
    exact ⟨hleft, hright⟩

/-- Settles O27: the checks one after the other, and the loops as folds. -/
theorem updateRunsThePseudocode : Obligations.UpdateRunsThePseudocode := by
  intro s
  refine ⟨fun hi => failsWith_of_updatePlan ?_, fun hi => ⟨fun h0 => failsWith_of_updatePlan ?_,
    fun h0 h1 => failsWith_of_updatePlan ?_, fun h0 h1 => ⟨fun h4 => failsWith_of_updatePlan ?_, fun h4 =>
      ⟨fun hout => failsWith_of_updatePlan ?_, fun hin hr => ?_⟩⟩⟩⟩
  · rw [updatePlan_eq, if_pos hi]
  · simp [updatePlan_eq, hi, h0]
  · simp [updatePlan_eq, hi, h0, h1]
  · simp [updatePlan_eq, hi, h0, h4]
  · simp [updatePlan_eq, hi, h0, h4, hout, Int.not_lt.mpr h1]
  · have hplan : updatePlan s = .ok ⟨s.latched.arg0.toNat, (a1 s).toNat⟩ := by
      simp [updatePlan_eq, hi, h0, h4, Nat.not_lt.mpr hin, Int.not_lt.mpr h1]
    rw [update_succeeds hplan hr, pseudoUpdate_eq]
    rfl

/-- Settles O30, clause by clause. -/
theorem frameFetchesBlendsAndAdds : Obligations.FrameFetchesBlendsAndAdds := by
  refine fun snd v a m hm => ⟨fetch_same, fun hnew => ?_, ?_⟩
  · rw [fetch_new hnew]
    refine ⟨rfl, fun h0 hlt => ?_, fun hout => ?_⟩
    · obtain ⟨x, hx⟩ := Option.ne_none_iff_exists'.mp
        (mt lookupI_eq_none.mp (show ¬ (_ ∨ (snd.length : Int) ≤ (f32FloorSat v.pos).toInt) by omega))
      dsimp only
      rw [hx, (lookupI_eq_some.mp hx).2, Option.getD_some]
    · dsimp only
      rw [lookupI_eq_none.mpr hout, Option.getD_none]
  · rintro _ rfl
    exact ⟨accumulate_read_left hm v a, accumulate_read_right hm v a, fun b hb => accumulate_read8 hm v hb⟩

/-- Settles O31: the pass starts from what the voice loop leaves. -/
theorem globalPassScalesEveryWord : Obligations.GlobalPassScalesEveryWord := by
  rintro s t _ hm h herr rfl
  obtain ⟨p, hp⟩ := exists_updatePlan h herr
  rw [update_next_of_plan h hp]
  have hwf : Memory.wf (mixedOf s).mem = true := mixVoices_wf hm _ _ _ _
  exact ⟨fun k hk => globalPass_read hwf _ (Nat.zero_le k) (by omega), fun x hx => globalPass_read8 hwf _ (by omega)⟩

/-- Settles O32: each voice has a turn of its own, and the turn of a skipped voice does nothing. -/
theorem updateCountsBoundNonEmptyVoices : Obligations.UpdateCountsBoundNonEmptyVoices := by
  intro s t h herr
  obtain ⟨p, hp⟩ := exists_updatePlan h herr
  have ht := update_next_of_plan h hp
  refine ⟨?_, fun k v hv hskip => ?_, fun t' h' => ?_⟩
  · rw [ht]
    exact mixVoices_active _ _ _ _ _
  · obtain ⟨m', hk⟩ := mixVoices_getElem? s.session.slots s.latched.arg0.toNat (a1 s).toNat k s.session.voices s.mem
    rw [hv, Option.map_some, mixTurn_of_skipped hskip] at hk
    rw [ht]
    exact hk
  · have hmem := mixVoices_filter_mem s.session s.latched.arg0.toNat (a1 s).toNat s.session.voices s.mem
    have hactive := mixVoices_filter_active s.session s.latched.arg0.toNat (a1 s).toNat s.session.voices s.mem
    rw [ht, update_next_of_plan h' hp]
    exact ⟨congrArg (globalPass s.session.gvol _ _ _) hmem, hactive⟩

/-- Settles O33: a failing `UPDATE` leaves everything, and one that succeeds what its loops leave alone. -/
theorem updateFrame : Obligations.UpdateFrame := by
  intro s t h
  cases hp : updatePlan s with
  | error c =>
    rw [update_next_of_error h hp]
    refine ⟨rfl, rfl, fun k v v' hv hv' => ?_, fun _ _ _ => rfl⟩
    obtain rfl : v = v' := Option.some.inj (hv.symm.trans hv')
    exact ⟨rfl, rfl, rfl, rfl, rfl, rfl, rfl, rfl, rfl, .inl rfl⟩
  | ok p =>
    rw [update_next_of_plan h hp]
    refine ⟨rfl, mixVoices_length _ _ _ _ _, fun k v v' hv hv' => ?_, fun hm x hx => ?_⟩
    · obtain ⟨m', hk⟩ := mixVoices_getElem? s.session.slots s.latched.arg0.toNat (a1 s).toNat k s.session.voices s.mem
      rw [hv, Option.map_some] at hk
      obtain rfl := Option.some.inj (hk.symm.trans hv')
      have hkept := mixTurn_kept s.session.slots s.latched.arg0.toNat (a1 s).toNat v m'
      exact ⟨hkept.freq, hkept.pitch, hkept.vol, hkept.pan, hkept.gl, hkept.gr, hkept.rstart, hkept.rend, hkept.mode,
        hkept.sound⟩
    · exact (globalPass_read8 (mixVoices_wf hm _ _ _ _) _ (by omega)).trans (mixVoices_read8 hm _ _ hx)

/-- Settles O34: both runs pass or fail the same checks, and every word written is a function of itself. -/
theorem lanesDoNotMix : Obligations.LanesDoNotMix := by
  intro s t t' m' d hd hm hm' hagree h h'
  have hplan : updatePlan { s with mem := m' } = updatePlan s := rfl
  cases hp : updatePlan s with
  | error c =>
    rw [update_next_of_error h hp, update_next_of_error h' (hplan.trans hp)]
    exact ⟨rfl, rfl, rfl, fun herr => by cases herr⟩
  | ok p =>
    have hlane : LaneAgrees s.latched.arg0.toNat (a1 s).toNat d s.mem m' := ⟨hm, hm', hagree⟩
    have hvoices : (mixedOf s).voices = (mixedOf { s with mem := m' }).voices := mixVoices_voices_indep _ _ _ _ _ _
    have hactive : (mixedOf s).active = (mixedOf { s with mem := m' }).active :=
      (mixVoices_active s.session _ _ _ _).trans (mixVoices_active s.session _ _ _ _).symm
    have hsession : (updated s).session = (updated { s with mem := m' }).session := by
      rw [updated, hvoices, hactive]; rfl
    rw [update_next_of_plan h hp, update_next_of_plan h' (hplan.trans hp)]
    exact ⟨hsession, rfl, rfl, fun _ => ((hlane.mixVoices hd _ _ _).globalPass hd _ _ _).agree⟩

/-- Settles O36, by the classes of words. -/
theorem unitVolumeChangesOnlyNaN : Obligations.UnitVolumeChangesOnlyNaN := by
  intro w
  split
  · exact f32Mul_of_nan (.inl ‹_›)
  · exact f32Mul_one (by simpa using ‹¬ f32IsNaN w = true›)

/-- Settles O29, by the three ways the end check can go. -/
theorem endCheckEndsOrWraps : Obligations.EndCheckEndsOrWraps := by
  refine fun snd buf n i v m => ⟨fun hgt hm => mixVoice_of_ended (frameStart_of_single hgt hm) _ _ _ _ _, ?_⟩
  rintro v1 _ hcase rfl
  have hstart : frameStart v = some v1 := by
    rcases hcase with ⟨hgt, hm, rfl⟩ | ⟨hgt, rfl⟩
    · exact frameStart_of_loop hgt hm
    · exact frameStart_of_not_past hgt
  exact mixVoice_of_playsFrame (by rw [PlaysFrame, hstart, Option.map_some]) buf n i m

end Sys2Proof.Claims
end

section
/-! PROOFS. The statements of 60_exceptions.md. First when the command in progress runs, and which word is the one just
accepted; then that a command of result kind NONE leaves the result 0, by the shared operations it ends with. What a
completed command can do otherwise is `exec_next_completion`. -/

namespace Sys2Proof.Machine

open Sys2Proof.Claims

/-! ## The step, by the moment it falls in (R357) -/

theorem engine_legal {s : State} {i : Instr} (h : decode s.cmd = .ok i) : engine s = exec i s := by
  simp only [engine, h]

theorem step_waiting {s : State} {k : Nat} (hb : s.status.busy = true) (hr : s.remaining = k + 1) :
    step s = hostStep { s with remaining := k } := by
  simp only [step, hb, hr, if_true]

theorem withFetchWord_toNat (s : State) (w : Word) : s.withFetchWord 32 w.toNat = s.launch w := by
  rw [State.withFetchWord, Nat.mod_eq_of_lt w.isLt, BitVec.ofNat_toNat, BitVec.setWidth_eq]

/-! ## The result of a command of kind NONE (R352) -/

/-- A success with the effect of `r`, if `r` is one, leaves the result 0. -/
def NoResult (r : Except Cause Effect) : Prop := ∀ e, r = .ok e → e.result = 0#32

theorem noResult_error (c : Cause) : NoResult (.error c) := fun _ h => by cases h

theorem noResult_become (s : State) (S : Session) : NoResult (become s S resNone) := by
  rintro _ ⟨⟩
  rfl

theorem noResult_requireInit {s : State} {k : Except Cause Effect} (h : NoResult k) : NoResult (requireInit s k) :=
  fun e he => h e (requireInit_ok he).2

theorem noResult_withVoice {s : State} {k : Nat → Voice → Except Cause Effect} (h : ∀ n v, NoResult (k n v)) :
    NoResult (withVoice s k) := fun e he => by
  obtain ⟨-, n, v, -, -, -, hk⟩ := withVoice_ok he
  exact h n v e hk

theorem noResult_poke (s : State) (x : F32) : NoResult (withFrame s fun n j snd _ => setFrame s n j snd x) :=
  fun e he => by
    obtain ⟨-, n, j, snd, _, -, -, -, -, hk⟩ := withFrame_ok he
    exact noResult_become s _ e hk

/-- A failure leaves the result 0 in any case. -/
theorem complete_result_of_noResult (s : State) {r : Except Cause Effect} (h : NoResult r) :
    (s.complete r).result = 0#32 := by
  cases r with
  | error c => rfl
  | ok e => exact h e rfl

theorem completes_result {s t : State} {r : Except Cause Effect} (hr : NoResult r) (h : completes s r = .next t) :
    t.result = 0#32 := by
  cases h
  exact complete_result_of_noResult s hr

theorem setnvoc_result {s t : State} (h : exec .setnvoc s = .next t) : t.result = 0#32 := by
  refine completes_result (noResult_requireInit ?_) h
  dsimp only
  split
  · exact noResult_error .param
  · split
    · exact noResult_error .capacity
    · exact noResult_become s _

theorem setvfrq_result {s t : State} (h : exec .setvfrq s = .next t) : t.result = 0#32 := by
  refine completes_result (noResult_withVoice fun n v => ?_) h
  dsimp only
  split
  · exact noResult_become s _
  · exact noResult_error .param

theorem play_result {s t : State} (h : exec .play s = .next t) : t.result = 0#32 := by
  refine completes_result (noResult_withVoice fun n v => ?_) h
  split
  · exact noResult_error .range
  · exact noResult_become s _

theorem load_result {s t : State} (h : exec .load s = .next t) : t.result = 0#32 := by
  simp only [exec, execLoad] at h
  split at h
  · exact completes_result (noResult_error _) h
  · split at h
    · cases h
    · exact completes_result (noResult_become s _) h

theorem update_result {s t : State} (h : exec .update s = .next t) : t.result = 0#32 := by
  rw [update_next h]
  cases updatePlan s <;> rfl

/-- A command of result kind NONE leaves `RESULT` 0, whether it fails or succeeds. -/
theorem result_of_resultKind_none {i : Instr} {s t : State} (h : exec i s = .next t) (hk : i.resultKind = .none) :
    t.result = 0#32 := by
  cases i <;> cases hk
  case fini | setgvol => exact completes_result (noResult_requireInit (noResult_become s _)) h
  case setnvoc => exact setnvoc_result h
  case load => exact load_result h
  case pokef | pokei16 | pokei8 => exact completes_result (noResult_poke s _) h
  case setvvol | setvbal | stop => exact completes_result (noResult_withVoice fun _ _ => noResult_become s _) h
  case setvfrq => exact setvfrq_result h
  case play => exact play_result h
  case update => exact update_result h

/-! ## `STATE` (R351) -/

theorem updatePlan_of_not_init {s : State} (hi : s.session.init = false) : updatePlan s = .error .state := by
  rw [updatePlan_eq, if_pos hi]

end Sys2Proof.Machine

namespace Sys2Proof.Claims

open Sys2Proof.Machine

/-- Settles O47: a next state of a command is its completion, with a cause of its row or with an effect. -/
theorem completionFollowsR352 : Obligations.CompletionFollowsR352 := by
  refine ⟨fun _ _ => rfl, fun _ _ => rfl, fun i s t h => ?_⟩
  have hresult := result_of_resultKind_none h
  obtain ⟨r, rfl, hr⟩ := exec_next_completion h
  cases r with
  | error c =>
    have hc : c ≠ .none := fun hc => none_notMem_causesOf i (hc ▸ hr)
    exact ⟨fun _ => ⟨hc, rfl⟩, fun herr => by cases herr⟩
  | ok e => exact ⟨fun herr => (by cases herr), fun _ => ⟨hresult, rfl⟩⟩

/-- Settles O49, by the cause of each completion. -/
theorem causesAreThoseOfTheTable : Obligations.CausesAreThoseOfTheTable := by
  intro i s t h
  obtain ⟨r, rfl, hr⟩ := exec_next_completion h
  cases r with
  | error c => exact .inr hr
  | ok e => exact .inl rfl

/-- Settles O48: `LOAD` and `UPDATE` check the session in their plans, the other commands by `requireInit`. -/
theorem stateCauseOutsideTheBracket : Obligations.StateCauseOutsideTheBracket := by
  refine ⟨fun i s hi hinit hisinit => ?_, fun s => (initStartsASession s).1, fun s t h => ?_⟩
  · cases i
    case init => exact absurd rfl hinit
    case isinit => exact absurd rfl hisinit
    case load => exact failsWith_of_loadPlan (loadPlan_of_not_init hi)
    case update => exact failsWith_of_updatePlan (updatePlan_of_not_init hi)
    all_goals exact failsWith_state_of_requireInit rfl hi
  · obtain hnone | hrow := causesAreThoseOfTheTable .isinit s t h
    · rw [hnone]
      decide
    · cases hrow

/-- Settles O4, one moment after the other; a word just accepted is that of its command. -/
theorem stepRunsTheDecodedCommand : Obligations.StepRunsTheDecodedCommand := by
  refine ⟨fun s i hb hr hd => (step_over hb hr).trans (engine_legal hd), fun s k => step_waiting, fun s => step_idle,
    fun s i => ?_⟩
  rw [withFetchWord_toNat]
  exact (step_over rfl rfl).trans (engine_legal (decode_eq_ok_iff.mpr rfl))

end Sys2Proof.Claims
end

section
/-! PROOFS. The statements of 70_reset_and_hazards.md. First what an allowed region in flight gives: neither the reset nor
the end of the command is refused for it; then the steps of a host that waits, which cost the command its time and change
nothing else but what the host has read. -/

namespace Sys2Proof.Machine

open Sys2Proof.Claims

/-! ## A region in flight that a command may be given (R82, R93) -/

theorem regionAllowed_iff {s : State} : regionAllowed s ↔ inFlightRefusal s = none := by
  simp only [regionAllowed, inFlightRefusal, ← regionRefusal_eq_some_iff]
  cases inFlight s with
  | none => simp
  | some g => simp [Option.eq_none_iff_forall_ne_some, @forall_comm Region]

theorem assertReset_of_allowed {s : State} (h : regionAllowed s) : ∃ t, assertReset s = .next t := by
  simp only [assertReset, regionAllowed_iff.mp h]
  cases inFlightUpdate s <;> exact ⟨_, rfl⟩

/-- A command whose region in flight is allowed completes at the end of its time, an illegal word by failing. -/
theorem engine_of_allowed {s : State} (hb : s.status.busy = true) (h : regionAllowed s) :
    ∃ r, engine s = .next (s.complete r) := by
  cases hd : decode s.cmd with
  | error e => exact ⟨.error .encoding, engine_illegal hd⟩
  | ok i =>
    rw [engine_legal hd]
    refine (exec_cases i s).resolve_left fun ⟨r, hr⟩ => ?_
    obtain ⟨g, hg, hrefused⟩ := exec_eq_refused_iff.mp hr
    exact h g r (by rw [inFlight_busy hb hd, hg]) (regionRefusal_eq_some_iff.mp hrefused)

/-! ## What a completion and a reset leave (60_exceptions.md R352, 10_state.md R64) -/

theorem State.complete_busy (s : State) (r : Except Cause Effect) : (s.complete r).status.busy = false := by
  cases r <;> rfl

/-- Completion touches neither the command registers nor the host's program. -/
theorem State.complete_inputs (s : State) (r : Except Cause Effect) :
    (s.complete r).cmd = s.cmd ∧ (s.complete r).args = s.args ∧ (s.complete r).host = s.host := by
  cases r <;> exact ⟨rfl, rfl, rfl⟩

theorem statusWord_zero : statusWord .zero = 0#32 := by decide

/-! ## A host that waits (30_encoding.md R133) -/

theorem hostStep_wait {s : State} {rest : List HostAction} (hs : s.host = .wait :: rest) :
    hostStep s = .next
      { s with readData := (statusWord s.status).toNat, host := if s.status.busy then s.host else rest } := by
  rw [hostStep, hs]

theorem hostStep_wait_busy {s : State} {rest : List HostAction} (hb : s.status.busy = true)
    (hs : s.host = .wait :: rest) : hostStep s = .next { s with readData := (statusWord s.status).toNat } := by
  rw [hostStep_wait hs, if_pos hb]

theorem step_wait_idle {s : State} {rest : List HostAction} (hb : s.status.busy = false)
    (hs : s.host = .wait :: rest) :
    step s = .next { s with readData := (statusWord s.status).toNat, host := rest } := by
  rw [step_idle hb, hostStep_wait hs, if_neg (by simp [hb])]

/-- While the host waits, the command in progress runs out of time. -/
theorem run_wait {s : State} {rest : List HostAction} (hb : s.status.busy = true) (hs : s.host = .wait :: rest) (n : Nat) :
    ∃ d, Host.Core.run core n { s with remaining := n } = .next { s with remaining := 0, readData := d } := by
  induction n generalizing s with
  | zero => exact ⟨s.readData, rfl⟩
  | succ n ih =>
    have hstep := (step_waiting (s := { s with remaining := n + 1 }) hb rfl).trans (hostStep_wait_busy hb hs)
    obtain ⟨d, hrun⟩ := ih (s := { s with readData := (statusWord s.status).toNat }) hb hs
    exact ⟨d, (run_succ_of_step hstep n).trans hrun⟩

/-- The command completes when its time is over, and the next poll of `STATUS` ends the `WAIT`. -/
theorem run_completion_wait {s : State} {rest : List HostAction} (hb : s.status.busy = true) (hr : s.remaining = 0)
    (hs : s.host = .wait :: rest) (h : regionAllowed s) :
    ∃ t, Host.Core.run core 2 s = .next t ∧ t.status.busy = false ∧ t.host = rest ∧ t.cmd = s.cmd ∧ t.args = s.args := by
  obtain ⟨r, hengine⟩ := engine_of_allowed hb h
  obtain ⟨hcmd, hargs, hhost⟩ := State.complete_inputs s r
  have hidle := State.complete_busy s r
  have hcomplete := (step_over hb hr).trans hengine
  have hpoll := step_wait_idle hidle (hhost.trans hs)
  exact ⟨_, (run_succ_of_step (M := core) hcomplete 1).trans (run_succ_of_step (M := core) hpoll 0), hidle, rfl, hcmd,
    hargs⟩

end Sys2Proof.Machine

namespace Sys2Proof.Claims

open Sys2Proof.Machine

/-- Settles O44: the reset is not refused, and it writes nothing but the buffer of an abandoned `UPDATE`. -/
theorem resetClearsTheBlock : Obligations.ResetClearsTheBlock := by
  intro s rest hs hallowed
  obtain ⟨t, ht⟩ := assertReset_of_allowed (s := { s with host := rest }) hallowed
  have hstep : hostStep s = .next t := by rw [hostStep, hs]; exact ht
  refine ⟨t, hstep, ?_⟩
  obtain ⟨-, ⟨hidle, rfl⟩ | ⟨p, hp, rfl⟩⟩ := assertReset_next ht
  · refine ⟨rfl, rfl, rfl, rfl, rfl, rfl, statusWord_zero, fun _ => rfl, fun _ p hp => ?_⟩
    cases hidle.symm.trans hp
  · refine ⟨rfl, rfl, rfl, rfl, rfl, rfl, statusWord_zero, fun hnone => ?_, fun hwf q hq x hx => ?_⟩
    · cases hnone.symm.trans hp
    · cases hp.symm.trans hq
      exact abandonWords_read8 hwf (by omega)

/-- Settles O45: the command runs out of time while the host waits; then it completes and the `WAIT` is done. -/
theorem waitAlwaysEnds : Obligations.WaitAlwaysEnds := by
  intro s rest hb hs hallowed
  obtain ⟨d, hwait⟩ := run_wait hb hs s.remaining
  rw [run_add_of_run hwait]
  exact run_completion_wait (s := { s with remaining := 0, readData := d }) hb rfl hs hallowed

end Sys2Proof.Claims
end
